-- ==== Sys2Proof/Word.lean ====
section
/-! DEFINITION. The word types of the LPE block (spec/00_scope.md R8 to R11): bytes, 16-bit
quantities, nibbles and byte strings. Bit 0 of a byte is its least significant bit (R9). -/

namespace Sys2Proof

/-- A byte: 8 bits, bit 0 the least significant (R9). -/
abbrev Byte := BitVec 8

/-- A 16-bit quantity: the operands `A` and `B`, the frame counters, the kind id (R8, R70). -/
abbrev Half := BitVec 16

/-- A 4-bit quantity: a message type or a pad count (R83, R86). -/
abbrev Nibble := BitVec 4

/-- A 32-bit word of the SHA-256 and MD5 computations. -/
abbrev Word32 := BitVec 32

/-- A byte string; byte 0 first (R10). `x ‖ y` of the spec is `x ++ y`. -/
abbrev Bytes := List Byte

end Sys2Proof
end

