-- ==== Sys2Proof/Config.lean ====
section
/-! DEFINITION. The configuration record `Cfg` of rule R7 (spec/00_scope.md): what one instance of
the block is built with. Only the OPEN parameters stand here, as plain data; the DECIDED and FIXED
ones are constants of Machine/Params.lean, and the six cryptographic functions are the ones rule
R14 identifies (Machine/Aes.lean, Sha256.lean, Md5.lean).

The record is an ARGUMENT of the model: State carries one and no operation writes it (R7, R252), so
a theorem about every state is a theorem about every configuration. The instance that
`State.reset` is built with is the uninterpreted constant `Config.installed`. -/

namespace Sys2Proof

/-- A row of `FIELD_TABLE`: byte offset `o`, shift `s`, width `w` in bits (R7, R81). -/
structure Field where
  o : Nat
  s : Nat
  w : Nat
deriving DecidableEq, Repr, Inhabited

/-- An entry of `CMD_KINDS` with its `SEQ_OFF` (R7, R111): `seqOff` is `some` offset for a kind with
`sequenced` = true and `none` for one with `sequenced` = false; `templates` maps the supported
device types to their template bytes. -/
structure Kind where
  seqOff : Option Nat
  templates : List (Half × Bytes)
deriving DecidableEq, Repr, Inhabited

/-- The OPEN parameters of rule R7. -/
structure Cfg where
  /-- `CRC_TABLE`: 256 entries of 8 bits, an opaque vendor constant (R100). -/
  crcTable : Vector Byte 256
  /-- `SIGN_KEY`: a byte string of any length. -/
  signKey : Bytes
  /-- `CMD_KINDS` and `SEQ_OFF`: kind id to kind. -/
  kinds : List (Half × Kind)
  /-- `FIELD_TABLE`: field id to field. -/
  fields : List (Half × Field)
  /-- `MT_HANDSHAKE_REQUEST`. -/
  mtHandshakeRequest : Nibble
  /-- `MT_ENCRYPTED_REQUEST`. -/
  mtEncryptedRequest : Nibble
  /-- `MT_ENCRYPTED_OTHER`. -/
  mtEncryptedOther : Nibble
deriving DecidableEq, Repr, Inhabited

/-- The configuration of the block that `State.reset` describes: rule R7 leaves every field of it
OPEN, so nothing constrains it (notes/assumptions/1.md). -/
opaque Config.installed : Cfg

end Sys2Proof
end

