-- ==== Sys2Proof/Machine/Operands.lean ====
section
/-! DEFINITION. Operand and byte-order helpers: `u16be`, `u16le`, `be16` (R11, R50), slices (R10),
byte-wise XOR (R11), and byte 5 of a frame header (R83, R86). -/

namespace Sys2Proof.Machine

/-- `u16be(v)`: high byte first (R11). -/
def u16be (v : Half) : Bytes := [BitVec.ofNat 8 (v.toNat / 256), BitVec.ofNat 8 v.toNat]

/-- `u16le(v)`: low byte first (R11). -/
def u16le (v : Half) : Bytes := [BitVec.ofNat 8 v.toNat, BitVec.ofNat 8 (v.toNat / 256)]

/-- `be16(b)` = `b[0]*256 + b[1]` (R11). -/
def be16 (b : Bytes) : Half := BitVec.ofNat 16 ((b.getD 0 0).toNat * 256 + (b.getD 1 0).toNat)

/-- The slice `b[i:j]`, half-open (R10). -/
def slice (b : Bytes) (i j : Nat) : Bytes := (b.take j).drop i

/-- `n` bytes of value 0x00. -/
def zeroBytes (n : Nat) : Bytes := List.replicate n 0

/-- Byte-wise `x XOR y` of equal-length strings (R11). -/
def xorBytes (x y : Bytes) : Bytes := List.zipWith (· ^^^ ·) x y

/-- The first 32 bytes of a string as the contents of `TCPKEY` (a shorter one is filled with 0x00;
both sources of a key are 32 bytes, R186). -/
def keyOf (x : Bytes) : Vector Byte 32 := Vector.ofFn fun i => x.getD i.val 0

/-- The cleared key: 32 bytes of 0x00 (R26, decision D28). -/
def zeroKey : Vector Byte 32 := keyOf []

/-- Header byte 5: `(pad << 4) | mtype` (R83). -/
def byte5 (pad mt : Nibble) : Byte := (pad.setWidth 8 <<< 4) ||| mt.setWidth 8

/-- The pad count of header byte 5: its high nibble (R86). -/
def padOf (b : Byte) : Nibble := (b >>> 4).setWidth 4

/-- The message type of header byte 5: its low nibble (R86). -/
def mtypeOf (b : Byte) : Nibble := b.setWidth 4

/-- The field mask `2^w - 1`, unshifted (R81, R114). -/
def fieldMask (w : Nat) : Nat := 2 ^ w - 1

/-- The clamp of rule R115: `min(B, 2^w - 1)`. -/
def clampField (w : Nat) (v : Half) : Nat := min v.toNat (fieldMask w)

/-- The byte `old` with the field (`s`, `w`) set to `v`: the field's bits are cleared before `v` is
ORed in, `(old AND (NOT (m << s) AND 0xFF)) OR (v << s)` (R114, R261). -/
def setFieldBits (old : Byte) (s w v : Nat) : Byte :=
  (old &&& ~~~(BitVec.ofNat 8 (fieldMask w <<< s))) ||| BitVec.ofNat 8 (v <<< s)

/-- The raw value of the field (`s`, `w`) of a byte: `(x >> s) AND (2^w - 1)` (R116). -/
def getFieldBits (x : Byte) (s w : Nat) : Nat := (x.toNat >>> s) &&& fieldMask w

end Sys2Proof.Machine
end

