-- ==== Sys2Proof/Machine/Params.lean ====
section
/-! DEFINITION. The parameters of rule R7 (spec/00_scope.md) that the spec DECIDES or FIXES, each
under the spec's own name, and the look-ups into the OPEN ones. -/

namespace Sys2Proof.Machine

/-- `CRC_INIT` = 0x00 (R7, R101, decision D5). -/
def crcInit : Byte := 0x00

/-- `CMD_MAX` = 256 (R7, R35, decision D6). -/
def cmdMax : Nat := 256

/-- `IN_MAX` = 65535 (R7, R77, decision D37). -/
def inMax : Nat := 65535

/-- `PLAIN_SIZE_EXTRA` = 2 (R7, R85, decision D14). -/
def plainSizeExtra : Nat := 2

/-- `HS_OFF` = 8 (R7, R183, decision D23). -/
def hsOff : Nat := 8

/-- `SEQ_RESET` = 0x00 (R7, R251, decision D10). -/
def seqReset : Byte := 0x00

/-- `ENC_KINDS` = {`MT_ENCRYPTED_REQUEST`, `MT_ENCRYPTED_OTHER`}: whether the message type is an
encrypted kind; every other code is a plain kind (R7, R151). -/
def encKind (cfg : Cfg) (mt : Nibble) : Bool :=
  mt == cfg.mtEncryptedRequest || mt == cfg.mtEncryptedOther

/-- `CMD_KINDS[k]`, absent outside its domain (R112). -/
def kindOf (cfg : Cfg) (k : Half) : Option Kind := cfg.kinds.lookup k

/-- `CMD_KINDS[k].template(devType)`, absent for an unsupported device type (R112). -/
def templateOf (k : Kind) (devType : Half) : Option Bytes := k.templates.lookup devType

/-- `FIELD_TABLE[f]`, absent outside its domain (R113). -/
def fieldOf (cfg : Cfg) (f : Half) : Option Field := cfg.fields.lookup f

/-- `CRC_TABLE[k]` (R100): the index is a byte, so the look-up is total (R103). -/
def crcEntry (cfg : Cfg) (k : Byte) : Byte := cfg.crcTable[k.toNat]'(k.isLt)

end Sys2Proof.Machine
end

