-- ==== Sys2Proof/Syntax.lean ====
section
/-! DEFINITION. The syntax of the LPE block: the request record of its port (rule R70 of
spec/30_encoding.md), the outer frame as the parser sees it (R83 to R87), and `Instr`, one
constructor for each row of spec/opcode_table.json. A constructor holds only the operands its
operation uses: an operand not listed in rule R73 is ignored, and decoding drops it. -/

namespace Sys2Proof

/-- A request record (R70): `OP`, `A`, `B`, `IN` (here `inp`), `AUX`, `RAND`. It is the one encoding
an operation has; there is no byte serialisation of it (D1 leaves pin-level signalling open). -/
structure Request where
  op : Byte
  a : Half
  b : Half
  inp : Bytes
  aux : Bytes
  rand : Bytes
deriving DecidableEq, Repr, Inhabited

/-- One outer frame, split at its header (R83 to R87): the pad and type nibbles of byte 5, and what
follows the six header bytes. -/
inductive Frame where
  /-- An encrypted kind (R84): ciphertext and the 32-byte signature. -/
  | encrypted (pad mtype : Nibble) (ct sig : Bytes)
  /-- A plain kind (R85): counter and body in clear. -/
  | plain (pad mtype : Nibble) (body : Bytes)
deriving DecidableEq, Repr

/-- The instructions: the thirteen operations of rule R72, the illegal space of rule R75, and the two
frame kinds of rules R84 and R85 (the table's `FRAME_HDR5` rows: a frame handed to the frame
parser). -/
inductive Instr where
  /-- `CRC8` (OP 0x01): `IN` = data. -/
  | crc8 (data : Bytes)
  /-- `CMD.LOAD` (OP 0x02): `A` = kind id, `B` = device type. -/
  | cmdLoad (kind devType : Half)
  /-- `CMD.SETF` (OP 0x03): `A` = field id, `B` = value. -/
  | cmdSetf (field value : Half)
  /-- `CMD.GETF` (OP 0x04): `A` = field id. -/
  | cmdGetf (field : Half)
  /-- `CMD.FIN` (OP 0x05). -/
  | cmdFin
  /-- `CMD.RD` (OP 0x06). -/
  | cmdRd
  /-- `ENV.BUILD` (OP 0x07): `AUX` = device id. -/
  | envBuild (devId : Bytes)
  /-- `ENV.DEC` (OP 0x08): `IN` = ciphertext. -/
  | envDec (ct : Bytes)
  /-- `FRM.ENC` (OP 0x09): `A` bits 3:0 = message type, `IN` = payload, `RAND` = draw. -/
  | frmEnc (mtype : Nibble) (payload rand : Bytes)
  /-- `FRM.DEC` (OP 0x0A): `IN` = one whole frame. -/
  | frmDec (frame : Bytes)
  /-- `HS.DERIVE` (OP 0x0B): `IN` = server reply, `AUX` = pairing key. -/
  | hsDerive (reply pairKey : Bytes)
  /-- `SES.DROP` (OP 0x0C). -/
  | sesDrop
  /-- `STAT.RD` (OP 0x0D). -/
  | statRd
  /-- `ILLEGAL`: a reserved operation code, 0x00 or 0x0E .. 0xFF. -/
  | illegal (op : Byte)
  /-- `FRAME.ENCRYPTED`: a frame of an encrypted kind, handed to the parser. -/
  | frameEncrypted (pad mtype : Nibble) (ct sig : Bytes)
  /-- `FRAME.PLAIN`: a frame of a plain kind, handed to the parser. -/
  | framePlain (pad mtype : Nibble) (body : Bytes)
deriving DecidableEq, Repr

/-- A parsed frame as the instruction of its `FRAME_HDR5` row. -/
def Frame.toInstr : Frame → Instr
  | .encrypted pad mt ct sig => .frameEncrypted pad mt ct sig
  | .plain pad mt body => .framePlain pad mt body

/-- Whether the instruction is a request of the port (a `REQ` row of the table), not a frame row. -/
def Instr.isRequest : Instr → Bool
  | .crc8 _ => true
  | .cmdLoad _ _ => true
  | .cmdSetf _ _ => true
  | .cmdGetf _ => true
  | .cmdFin => true
  | .cmdRd => true
  | .envBuild _ => true
  | .envDec _ => true
  | .frmEnc _ _ _ => true
  | .frmDec _ => true
  | .hsDerive _ _ => true
  | .sesDrop => true
  | .statRd => true
  | .illegal _ => true
  | .frameEncrypted _ _ _ _ => false
  | .framePlain _ _ _ => false

end Sys2Proof
end

