-- ==== Sys2Proof/Machine/State.lean ====
section
/-! DEFINITION. The state of the LPE block (spec/10_state.md), the error outcomes and response of an
operation, and the state after reset (spec/70_reset_and_hazards.md R251). -/

namespace Sys2Proof.Machine

/-- The error outcomes of rule R220 (spec/60_exceptions.md). They are ORDINARY outcomes of an
operation, reported in the response; none stops the machine (R234). -/
inductive Err where
  | illegalOperation
  | contractViolation
  | unsupportedDevice
  | framingError
  | signatureError
  | handshakeRejected
  | handshakeSignatureError
  | notAuthenticated
deriving DecidableEq, Repr

/-- A response record (R71): `ERR`, `V`, `W`, `OUT`. -/
structure Response where
  err : Byte
  v : Half
  w : Half
  out : Bytes
deriving DecidableEq, Repr

/-- What the environment does at the port: it presents a request (R70), or applies reset between two
operations (R250). -/
inductive PortEvent where
  | request (r : Request)
  | reset
deriving DecidableEq, Repr

/-- Memory as (address, byte) pairs, addresses strictly rising, no entry equal to what an unlisted
address reads as (Machine/Memory.lean). The block's one writable memory is its command buffer. -/
abbrev Memory := List Host.Cell

/-- Why the machine stops. Each is raised only under a configuration or in a state that the spec
excludes (R7, R254, R57); no run of a well-formed instance raises one. -/
inductive Fault where
  /-- Raised by `CMD.LOAD` (a template longer than `CMD_MAX`) and `CMD.FIN` (`SEQ_OFF` at or above
  `CMD_MAX`): a write to a byte the command buffer does not have (R35, R40). Safe: the
  configuration is ill-formed (R7), and the hardware's behaviour is not given. -/
  | noSuchByte (offset : Nat)
  /-- Raised by `CMD.FIN` when the loaded length is below 2, so that byte `L-2` does not exist. Safe:
  no configured template is shorter than 12 (R7, R80). -/
  | noTrailer (len : Nat)
  /-- Raised by `CMD.FIN` when `CMD_KIND` is no configured kind. Safe: `CMD.LOAD` writes only
  configured kinds (R112). -/
  | kindNotConfigured (kind : Half)
  /-- Raised by `CMD.SETF` on a table row with s + w > 8, which is no field (R81): the value does not
  fit the byte (R11). Safe: the configuration is ill-formed (R7). -/
  | fieldTooWide (field : Half)
deriving DecidableEq, Repr

/-- Why the machine has no meaning for what it was given. -/
inductive Refusal where
  /-- Raised by the dispatcher for an instruction without a meaning. Safe. No arm raises it. -/
  | notModelled (mnemonic : String)
  /-- Raised by `step` when the record at the port has a byte string longer than `IN_MAX`: it is no
  request (R70, R77). Safe: the port cannot carry it. -/
  | operandTooLong
deriving DecidableEq, Repr

/-- The state of the block. `cfg` is the instance's configuration, an argument of the model that no
operation writes (R7, R41, R252); `pending` and `resp` are the two sides of the port; all other
fields are the registers, flags and buffer of spec/10_state.md. -/
structure State where
  /-- `Cfg` (R7), constant. -/
  cfg : Cfg
  /-- `SEQ` (R23, R24): the next command sequence number to inject. -/
  seq : Byte
  /-- `REQ_CNT` (R23, R25): the outbound frame counter. -/
  reqCnt : Half
  /-- `RSP_CNT` (R23, R25): the inbound frame counter. -/
  rspCnt : Half
  /-- `RX_CTR` (R23): the counter field of the last accepted frame. -/
  rxCtr : Half
  /-- `TCPKEY` (R23, R26): the session key, byte 0 first. -/
  tcpKey : Vector Byte 32
  /-- `CMD_LEN` (R23): length of the loaded command, 0 .. `CMD_MAX`. -/
  cmdLen : Fin (cmdMax + 1)
  /-- `CMD_KIND` (R23): kind id of the loaded command. -/
  cmdKind : Half
  /-- `KEY_VALID` (R30), bit 0 of `FLAGS`. -/
  keyValid : Bool
  /-- `CMD_LOADED` (R30), bit 1 of `FLAGS`. -/
  cmdLoaded : Bool
  /-- `CMD_FINAL` (R30), bit 2 of `FLAGS`. -/
  cmdFinal : Bool
  /-- `CTR_MISMATCH` (R30), bit 3 of `FLAGS`. -/
  ctrMismatch : Bool
  /-- The command buffer `CMD` (R35), offsets 0 .. `CMD_MAX`-1. -/
  cmd : Memory
  /-- What the environment will do at the port, oldest first (R60). The MODEL's own field: the block
  has no queue (R260) and no operation reads it. -/
  pending : List PortEvent
  /-- The response port: the response to the last operation (R71). The MODEL's own field: no
  operation reads it. -/
  resp : Option Response
deriving DecidableEq, Repr

/-- The state right after reset of an instance with configuration `cfg` (R251, R252). -/
def State.resetWith (cfg : Cfg) : State where
  cfg := cfg
  seq := seqReset
  reqCnt := 0
  rspCnt := 0
  rxCtr := 0
  tcpKey := zeroKey
  cmdLen := 0
  cmdKind := 0
  keyValid := false
  cmdLoaded := false
  cmdFinal := false
  ctrMismatch := false
  cmd := []
  pending := []
  resp := none

/-- The machine right after reset, as the spec says (R251), for the uninterpreted configuration. -/
def State.reset : State := State.resetWith Config.installed

end Sys2Proof.Machine
end

