-- ==== Sys2Proof/Machine/Flags.lean ====
section
/-! DEFINITION. The `FLAGS` register (R30): its bit positions, and the one flag that an operation
computes. No flag is a condition code. -/

namespace Sys2Proof.Machine

/-- A flag as bit `n` of a byte. -/
def flagBit (n : Nat) (f : Bool) : Byte := if f then 1#8 <<< n else 0

/-- `FLAGS`: bit 0 `KEY_VALID`, bit 1 `CMD_LOADED`, bit 2 `CMD_FINAL`, bit 3 `CTR_MISMATCH`, bits 7:4
zero (R30, R197). -/
def flagsByte (s : State) : Byte :=
  flagBit 0 s.keyValid ||| flagBit 1 s.cmdLoaded ||| flagBit 2 s.cmdFinal ||| flagBit 3 s.ctrMismatch

/-- `CTR_MISMATCH` after a frame with counter `ctr` is accepted: 1 when it differs from `RSP_CNT` at
that moment (R30, R170). -/
def ctrMismatchOf (s : State) (ctr : Half) : Bool := ctr != s.rspCnt

end Sys2Proof.Machine
end

