-- ==== Sys2Proof/Machine/Memory.lean ====
section
/-! DEFINITION. The memory of the command buffer (R35, R40, R54): one byte per access, in one
canonical form, so that equal memories are equal lists. -/

namespace Sys2Proof.Machine

/-- What an unlisted address reads as: reset leaves every byte of the buffer 0x00 (R35, R251). -/
def memBlank : Byte := 0x00

/-- The byte at an address (`CMD[i]`, R12). -/
def memRead : Memory → Nat → Byte
  | [], _ => memBlank
  | (k, v) :: m, a => if a = k then v else memRead m a

/-- Write one byte (`CMD[i] <- v`, R12), keeping the canonical form. -/
def memWrite : Memory → Nat → Byte → Memory
  | [], a, b => if b = memBlank then [] else [(a, b)]
  | (k, v) :: m, a, b =>
    if a < k then (if b = memBlank then (k, v) :: m else (a, b) :: (k, v) :: m)
    else if a = k then (if b = memBlank then m else (a, b) :: m)
    else (k, v) :: memWrite m a b

/-- Write the bytes of a string at consecutive addresses, lowest first. -/
def memWriteBytes : Memory → Nat → Bytes → Memory
  | m, _, [] => m
  | m, a, b :: bs => memWriteBytes (memWrite m a b) (a + 1) bs

/-- The bytes at addresses `i .. j-1`. -/
def memSlice (m : Memory) (i j : Nat) : Bytes := (List.range' i (j - i)).map (memRead m)

/-- The canonical form: addresses strictly rising, no entry equal to `memBlank`. -/
def Memory.wf : Memory → Bool
  | [] => true
  | (k, v) :: m => v != memBlank && m.all (fun c => decide (k < c.1)) && Memory.wf m

/-- No entry at or above address `n`. -/
def memBelow (n : Nat) (m : Memory) : Bool := m.all (fun c => decide (c.1 < n))

end Sys2Proof.Machine
end

