-- ==== Sys2Proof/Machine/Ops.lean ====
section
/-! DEFINITION. The operations every meaning is built from: delivering a response, `fail E` (the
block's one "exception", spec/60_exceptions.md R222), clearing the session key, access to the
command buffer, and taking the next event from the port. -/

namespace Sys2Proof.Machine

/-- The value of an error on the response port (R220). -/
def errCode : Err → Byte
  | .illegalOperation => 0x01
  | .contractViolation => 0x02
  | .unsupportedDevice => 0x03
  | .framingError => 0x04
  | .signatureError => 0x05
  | .handshakeRejected => 0x06
  | .handshakeSignatureError => 0x07
  | .notAuthenticated => 0x08

/-- The response of a failed operation: `V` = `W` = 0 and `OUT` empty (R71, R222). -/
def errResponse (e : Err) : Response := ⟨errCode e, 0, 0, []⟩

/-- `return v`: the operation ends successfully with `ERR` = 0x00 (R12, R71). -/
def succeed (s : State) (v w : Half) (out : Bytes) : State :=
  { s with resp := some ⟨0x00, v, w, out⟩ }

/-- `fail E`: the operation ends with error `E` in the state reached so far (R12, R222). There is no
vector, no handler and no saved state; the next operation starts from here (R230, R232). -/
def failWith (e : Err) (s : State) : State := { s with resp := some (errResponse e) }

/-- `KEY_VALID <- 0 ; TCPKEY <- 00 x32` (R26, R167, R187, R195). -/
def clearKey (s : State) : State := { s with keyValid := false, tcpKey := zeroKey }

/-- `TCPKEY <- k ; KEY_VALID <- 1` (R181). -/
def installKey (k : Vector Byte 32) (s : State) : State := { s with keyValid := true, tcpKey := k }

/-- `TCPKEY` as a byte string. -/
def keyBytes (s : State) : Bytes := s.tcpKey.toList

/-- `CMD[i]` (R12). -/
def cmdByte (s : State) (i : Nat) : Byte := memRead s.cmd i

/-- `CMD[i:j]`. -/
def cmdSlice (s : State) (i j : Nat) : Bytes := memSlice s.cmd i j

/-- `CMD[0:CMD_LEN]`, the loaded command (R35). -/
def command (s : State) : Bytes := cmdSlice s 0 s.cmdLen.val

/-- `CMD[i] <- v` (R12). -/
def cmdStore (i : Nat) (v : Byte) (s : State) : State := { s with cmd := memWrite s.cmd i v }

/-- Take the oldest event from the port (R60). -/
def takeEvent (s : State) : Option (PortEvent × State) :=
  match s.pending with
  | [] => none
  | e :: rest => some (e, { s with pending := rest })

/-- The reset event (R250, R251, R252): every register, flag and buffer byte takes its reset value;
the configuration stays, and so does what the environment will do next. There is no response. -/
def applyReset (s : State) : State := { State.resetWith s.cfg with pending := s.pending }

end Sys2Proof.Machine
end

