-- ==== Sys2Proof/Machine/Crc.lean ====
section
/-! DEFINITION. Unit U1, the CRC-8 generator (spec/40_crc8.md). -/

namespace Sys2Proof.Machine

/-- One step of the CRC: XOR the byte into the running value and look the result up (R101). -/
def crcStep (cfg : Cfg) (c x : Byte) : Byte := crcEntry cfg (c ^^^ x)

/-- The loop of rule R101 from the running value `c`. -/
def crcFrom (cfg : Cfg) (c : Byte) (x : Bytes) : Byte := x.foldl (crcStep cfg) c

/-- `CRC8F(x)` (R101): lowest index first, from `CRC_INIT`; no reflection, no final XOR. -/
def crc8F (cfg : Cfg) (x : Bytes) : Byte := crcFrom cfg crcInit x

/-- `CRC8` (R102): `V` = `CRC8F(IN)` in bits 7:0; no state read or written; total. -/
def execCrc8 (data : Bytes) (s : State) : Host.Outcome State Fault Refusal :=
  .next (succeed s ((crc8F s.cfg data).setWidth 16) 0 [])

end Sys2Proof.Machine
end

