-- ==== Sys2Proof/Machine/Codec.lean ====
section
/-! DEFINITION. Unit U2, the command codec (spec/41_command_codec.md): the command buffer, `SEQ`, and
the operations `CMD.LOAD`, `CMD.SETF`, `CMD.GETF`, `CMD.FIN`, `CMD.RD`. -/

namespace Sys2Proof.Machine

/-- The state after the template `t` of kind `a` is loaded (R112): bytes from `len(t)` on keep what
they held; `SEQ` is not touched. -/
def loadTemplate (a : Half) (t : Bytes) (s : State) : State :=
  { s with
    cmd := memWriteBytes s.cmd 0 t
    cmdLen := Fin.ofNat (cmdMax + 1) t.length
    cmdKind := a
    cmdLoaded := true
    cmdFinal := false }

/-- `CMD.LOAD` (R112): unknown kind, then absent template, then the load. -/
def execCmdLoad (a b : Half) (s : State) : Host.Outcome State Fault Refusal :=
  match kindOf s.cfg a with
  | none => .next (failWith .contractViolation s)
  | some k =>
    match templateOf k b with
    | none => .next (failWith .unsupportedDevice s)
    | some t =>
      if t.length ≤ cmdMax then .next (succeed (loadTemplate a t s) 0 0 [])
      else .fault (.noSuchByte cmdMax)

/-- `LOOKUP(A)` (R113): `none` where the rule fails with `ContractViolation`. -/
def fieldLookup (s : State) (a : Half) : Option Field :=
  if s.cmdLoaded then
    match fieldOf s.cfg a with
    | none => none
    | some f => if f.o < s.cmdLen.val - 2 then some f else none
  else none

/-- The state after the field `f` is set to the clamped value of `b` (R114, R115). -/
def setField (f : Field) (b : Half) (s : State) : State :=
  { cmdStore f.o (setFieldBits (cmdByte s f.o) f.s f.w (clampField f.w b)) s with cmdFinal := false }

/-- `CMD.SETF` (R114). -/
def execCmdSetf (a b : Half) (s : State) : Host.Outcome State Fault Refusal :=
  match fieldLookup s a with
  | none => .next (failWith .contractViolation s)
  | some f =>
    if f.s + f.w ≤ 8 then .next (succeed (setField f b s) 0 0 [])
    else .fault (.fieldTooWide a)

/-- `CMD.GETF` (R116): the raw field, zero-extended; no state written. -/
def execCmdGetf (a : Half) (s : State) : Host.Outcome State Fault Refusal :=
  match fieldLookup s a with
  | none => .next (failWith .contractViolation s)
  | some f =>
    .next (succeed s (BitVec.ofNat 16 (getFieldBits (cmdByte s f.o) f.s f.w)) 0 [])

/-- The CRC byte of the trailer (R118 a): `CRC8F(CMD[10 : L-2])`. -/
def trailerCrc (s : State) : Byte := crc8F s.cfg (cmdSlice s 10 (s.cmdLen.val - 2))

/-- The sum of a byte string as an unbounded natural. -/
def byteSum (x : Bytes) : Nat := (x.map BitVec.toNat).sum

/-- The checksum byte of the trailer (R118 b): minus the sum of `CMD[1] .. CMD[L-2]`, mod 256. -/
def trailerChecksum (s : State) : Byte :=
  BitVec.ofNat 8 ((256 - byteSum (cmdSlice s 1 (s.cmdLen.val - 1)) % 256) % 256)

/-- Sequence injection (R119): write the current `SEQ`, then increment it modulo 256. -/
def injectSeq (off : Nat) (s : State) : State := { cmdStore off s.seq s with seq := s.seq + 1 }

/-- The first half of the trailer: the CRC byte (R117, R118 a). -/
def writeCrc (s : State) : State := cmdStore (s.cmdLen.val - 2) (trailerCrc s) s

/-- The trailer, CRC first and then the checksum that covers it (R117, R118). -/
def writeTrailer (s : State) : State :=
  { cmdStore (s.cmdLen.val - 1) (trailerChecksum (writeCrc s)) (writeCrc s) with cmdFinal := true }

/-- The successful end of `CMD.FIN`: `OUT` = `CMD[0:L]`. -/
def finishCommand (s : State) : State := succeed (writeTrailer s) 0 0 (command (writeTrailer s))

/-- `CMD.FIN` (R117). -/
def execCmdFin (s : State) : Host.Outcome State Fault Refusal :=
  if s.cmdLoaded then
    match kindOf s.cfg s.cmdKind with
    | none => .fault (.kindNotConfigured s.cmdKind)
    | some k =>
      if s.cmdLen.val < 2 then .fault (.noTrailer s.cmdLen.val)
      else
        match k.seqOff with
        | none => .next (finishCommand s)
        | some off =>
          if off < cmdMax then .next (finishCommand (injectSeq off s))
          else .fault (.noSuchByte off)
  else .next (failWith .contractViolation s)

/-- `CMD.RD` (R123): the buffer, final or not; no state written. -/
def execCmdRd (s : State) : Host.Outcome State Fault Refusal :=
  if s.cmdLoaded then .next (succeed s 0 0 (command s))
  else .next (failWith .contractViolation s)

end Sys2Proof.Machine
end

