-- ==== Sys2Proof/Machine/Sha256.lean ====
section
/-! DEFINITION. SHA-256 of FIPS 180-4, which rule R14 (spec/00_scope.md) identifies `SHA256` with;
the 32-byte digest in big-endian byte order. PRESUMED (notes/assumptions/2.md). Known answers KA-3
and KA-4 are tested in Tests/Slice0.lean. -/

namespace Sys2Proof.Machine

/-- The `n` 32-bit words of a number, most significant first. -/
def wordsOfNat (n x : Nat) : List Word32 :=
  (List.range n).map fun i => BitVec.ofNat 32 (x >>> (32 * (n - 1 - i)))

/-- The 64 round constants, eight to a number. FIPS 180-4 defines constant `i` as the first 32 bits of
the fractional part of the cube root of the `i`-th prime; `test_sha256_constants` of
Tests/Slice0.lean computes them so. -/
def sha256K : List Word32 :=
  [0x428a2f9871374491b5c0fbcfe9b5dba53956c25b59f111f1923f82a4ab1c5ed5,
   0xd807aa9812835b01243185be550c7dc372be5d7480deb1fe9bdc06a7c19bf174,
   0xe49b69c1efbe47860fc19dc6240ca1cc2de92c6f4a7484aa5cb0a9dc76f988da,
   0x983e5152a831c66db00327c8bf597fc7c6e00bf3d5a7914706ca635114292967,
   0x27b70a852e1b21384d2c6dfc53380d13650a7354766a0abb81c2c92e92722c85,
   0xa2bfe8a1a81a664bc24b8b70c76c51a3d192e819d6990624f40e3585106aa070,
   0x19a4c1161e376c082748774c34b0bcb5391c0cb34ed8aa4a5b9cca4f682e6ff3,
   0x748f82ee78a5636f84c878148cc7020890befffaa4506cebbef9a3f7c67178f2].flatMap (wordsOfNat 8)

/-- The eight working words `a .. h` of SHA-256. -/
structure ShaState where
  a : Word32
  b : Word32
  c : Word32
  d : Word32
  e : Word32
  f : Word32
  g : Word32
  h : Word32
deriving DecidableEq, Repr

/-- The initial hash value. -/
def sha256Init : ShaState :=
  ⟨0x6a09e667, 0xbb67ae85, 0x3c6ef372, 0xa54ff53a, 0x510e527f, 0x9b05688c, 0x1f83d9ab, 0x5be0cd19⟩

/-- Four bytes as a 32-bit word, high byte first. -/
def wordBE (b0 b1 b2 b3 : Byte) : Word32 :=
  BitVec.ofNat 32 (b0.toNat * 16777216 + b1.toNat * 65536 + b2.toNat * 256 + b3.toNat)

/-- A 32-bit word as four bytes, high byte first. -/
def wordBytesBE (w : Word32) : Bytes :=
  [BitVec.ofNat 8 (w.toNat / 16777216), BitVec.ofNat 8 (w.toNat / 65536),
   BitVec.ofNat 8 (w.toNat / 256), BitVec.ofNat 8 w.toNat]

/-- The message as 32-bit words, high byte first. -/
def wordsBE : Bytes → List Word32
  | b0 :: b1 :: b2 :: b3 :: rest => wordBE b0 b1 b2 b3 :: wordsBE rest
  | _ => []

/-- How many zero bytes the padding of SHA-256 and MD5 puts between the byte 0x80 and the 8-byte
length, for a message of `n` bytes: the total becomes a multiple of 64. -/
def hashZeroPad (n : Nat) : Nat := (119 - n % 64) % 64

/-- The padded message: `x ‖ 80 ‖ zeros ‖ 64-bit big-endian bit length`. -/
def sha256Pad (x : Bytes) : Bytes :=
  x ++ [0x80] ++ List.replicate (hashZeroPad x.length) 0
    ++ wordBytesBE (BitVec.ofNat 32 (8 * x.length / 4294967296))
    ++ wordBytesBE (BitVec.ofNat 32 (8 * x.length))

/-- The message schedule: `n` more words on `rev` (newest first, at least 16 words). -/
def sha256Schedule : Nat → List Word32 → List Word32
  | 0, rev => rev
  | n + 1, rev =>
    let w2 := rev.getD 1 0
    let w15 := rev.getD 14 0
    let s1 := w2.rotateRight 17 ^^^ w2.rotateRight 19 ^^^ (w2 >>> 10)
    let s0 := w15.rotateRight 7 ^^^ w15.rotateRight 18 ^^^ (w15 >>> 3)
    sha256Schedule n ((s1 + rev.getD 6 0 + s0 + rev.getD 15 0) :: rev)

/-- One round, with round constant plus schedule word `kw`. -/
def sha256Round (s : ShaState) (kw : Word32) : ShaState :=
  let t1 := s.h + (s.e.rotateRight 6 ^^^ s.e.rotateRight 11 ^^^ s.e.rotateRight 25)
    + ((s.e &&& s.f) ^^^ (~~~s.e &&& s.g)) + kw
  let t2 := (s.a.rotateRight 2 ^^^ s.a.rotateRight 13 ^^^ s.a.rotateRight 22)
    + ((s.a &&& s.b) ^^^ (s.a &&& s.c) ^^^ (s.b &&& s.c))
  ⟨t1 + t2, s.a, s.b, s.c, s.d + t1, s.e, s.f, s.g⟩

/-- Word-wise sum of two hash values. -/
def shaAdd (s t : ShaState) : ShaState :=
  ⟨s.a + t.a, s.b + t.b, s.c + t.c, s.d + t.d, s.e + t.e, s.f + t.f, s.g + t.g, s.h + t.h⟩

/-- The compression function on one block of 16 words. -/
def sha256Block (s : ShaState) (m : List Word32) : ShaState :=
  let w := (sha256Schedule 48 m.reverse).reverse
  shaAdd s ((List.zipWith (· + ·) sha256K w).foldl sha256Round s)

/-- The compression function over `n` blocks. -/
def sha256Blocks : Nat → List Word32 → ShaState → ShaState
  | 0, _, s => s
  | n + 1, ws, s => sha256Blocks n (ws.drop 16) (sha256Block s (ws.take 16))

/-- `SHA256` (R14): a byte string to its 32-byte digest. -/
def sha256 (x : Bytes) : Bytes :=
  let p := sha256Pad x
  let s := sha256Blocks (p.length / 64) (wordsBE p) sha256Init
  wordBytesBE s.a ++ wordBytesBE s.b ++ wordBytesBE s.c ++ wordBytesBE s.d
    ++ wordBytesBE s.e ++ wordBytesBE s.f ++ wordBytesBE s.g ++ wordBytesBE s.h

end Sys2Proof.Machine
end

