-- ==== Sys2Proof/Machine/Md5.lean ====
section
/-! DEFINITION. MD5 of RFC 1321, which rule R14 (spec/00_scope.md) identifies `MD5` with; the
16-byte digest in the standard's output order. PRESUMED (notes/assumptions/2.md). Known answers
KA-5 and KA-6 are tested in Tests/Slice0.lean. -/

namespace Sys2Proof.Machine

/-- The four working words of MD5. -/
structure Md5State where
  a : Word32
  b : Word32
  c : Word32
  d : Word32
deriving DecidableEq, Repr

/-- The initial MD5 state. -/
def md5Init : Md5State := ⟨0x67452301, 0xefcdab89, 0x98badcfe, 0x10325476⟩

/-- The 64 sine constants of RFC 1321, the integer parts of `4294967296 * |sin i|`, eight to a number. -/
def md5K : List Word32 :=
  [0xd76aa478e8c7b756242070dbc1bdceeef57c0faf4787c62aa8304613fd469501,
   0x698098d88b44f7afffff5bb1895cd7be6b901122fd987193a679438e49b40821,
   0xf61e2562c040b340265e5a51e9b6c7aad62f105d02441453d8a1e681e7d3fbc8,
   0x21e1cde6c33707d6f4d50d87455a14eda9e3e905fcefa3f8676f02d98d2a4c8a,
   0xfffa39428771f6816d9d6122fde5380ca4beea444bdecfa9f6bb4b60bebfbc70,
   0x289b7ec6eaa127fad4ef308504881d05d9d4d039e6db99e51fa27cf8c4ac5665,
   0xf4292244432aff97ab9423a7fc93a039655b59c38f0ccc92ffeff47d85845dd1,
   0x6fa87e4ffe2ce6e0a30143144e0811a1f7537e82bd3af2352ad7d2bbeb86d391].flatMap (wordsOfNat 8)

/-- The shift amounts of round `r` (0 to 3). -/
def md5Shifts : List (List Nat) :=
  [[7, 12, 17, 22], [5, 9, 14, 20], [4, 11, 16, 23], [6, 10, 15, 21]]

/-- Four bytes as a 32-bit word, low byte first. -/
def wordLE (b0 b1 b2 b3 : Byte) : Word32 := wordBE b3 b2 b1 b0

/-- A 32-bit word as four bytes, low byte first. -/
def wordBytesLE (w : Word32) : Bytes := (wordBytesBE w).reverse

/-- The message as 32-bit words, low byte first. -/
def wordsLE : Bytes → List Word32
  | b0 :: b1 :: b2 :: b3 :: rest => wordLE b0 b1 b2 b3 :: wordsLE rest
  | _ => []

/-- The padded message: `x ‖ 80 ‖ zeros ‖ 64-bit little-endian bit length`. -/
def md5Pad (x : Bytes) : Bytes :=
  x ++ [0x80] ++ List.replicate (hashZeroPad x.length) 0
    ++ wordBytesLE (BitVec.ofNat 32 (8 * x.length))
    ++ wordBytesLE (BitVec.ofNat 32 (8 * x.length / 4294967296))

/-- The auxiliary function of operation `i` (0 to 63). -/
def md5F (i : Nat) (s : Md5State) : Word32 :=
  if i < 16 then (s.b &&& s.c) ||| (~~~s.b &&& s.d)
  else if i < 32 then (s.b &&& s.d) ||| (s.c &&& ~~~s.d)
  else if i < 48 then s.b ^^^ s.c ^^^ s.d
  else s.c ^^^ (s.b ||| ~~~s.d)

/-- Which message word operation `i` uses. -/
def md5G (i : Nat) : Nat :=
  if i < 16 then i
  else if i < 32 then (5 * i + 1) % 16
  else if i < 48 then (3 * i + 5) % 16
  else 7 * i % 16

/-- Operation `i` of MD5 on the block `m`, with constant `k`. -/
def md5Op (m : List Word32) (s : Md5State) (ik : Nat × Word32) : Md5State :=
  let f := md5F ik.1 s + s.a + ik.2 + m.getD (md5G ik.1) 0
  ⟨s.d, s.b + f.rotateLeft ((md5Shifts.getD (ik.1 / 16) []).getD (ik.1 % 4) 0), s.b, s.c⟩

/-- Word-wise sum of two MD5 states. -/
def md5Add (s t : Md5State) : Md5State := ⟨s.a + t.a, s.b + t.b, s.c + t.c, s.d + t.d⟩

/-- The compression function on one block of 16 words. -/
def md5Block (s : Md5State) (m : List Word32) : Md5State :=
  md5Add s ((List.zip (List.range 64) md5K).foldl (md5Op m) s)

/-- The compression function over `n` blocks. -/
def md5Blocks : Nat → List Word32 → Md5State → Md5State
  | 0, _, s => s
  | n + 1, ws, s => md5Blocks n (ws.drop 16) (md5Block s (ws.take 16))

/-- `MD5` (R14): a byte string to its 16-byte digest. -/
def md5 (x : Bytes) : Bytes :=
  let p := md5Pad x
  let s := md5Blocks (p.length / 64) (wordsLE p) md5Init
  wordBytesLE s.a ++ wordBytesLE s.b ++ wordBytesLE s.c ++ wordBytesLE s.d

end Sys2Proof.Machine
end

