-- ==== Sys2Proof/Machine/Aes.lean ====
section
/-! DEFINITION. The AES block functions that rule R14 (spec/00_scope.md) identifies `AES128_ENC`,
`AES128_DEC`, `AES256_ENC` and `AES256_DEC` with: the forward and inverse ciphers of FIPS 197.
PRESUMED (notes/assumptions/2.md): the spec names FIPS 197 and does not reproduce it. The known
answers KA-1 and KA-2 of spec/95_test_vectors.md are tested in Tests/Slice0.lean. -/

namespace Sys2Proof.Machine

/-- One column of the AES state (four bytes, row 0 first); also one word of the key schedule. -/
structure AesCol where
  b0 : Byte
  b1 : Byte
  b2 : Byte
  b3 : Byte
deriving DecidableEq, Repr, Inhabited

/-- The 16-byte AES state as four columns: byte `4c + r` of the string is row `r` of column `c`. -/
structure AesBlock where
  c0 : AesCol
  c1 : AesCol
  c2 : AesCol
  c3 : AesCol
deriving DecidableEq, Repr, Inhabited

/-- Bytes `4c .. 4c+3` of a byte string as column `c`. -/
def aesColAt (x : Bytes) (c : Nat) : AesCol :=
  ⟨x.getD (4 * c) 0, x.getD (4 * c + 1) 0, x.getD (4 * c + 2) 0, x.getD (4 * c + 3) 0⟩

/-- The 16-byte string `x` as an AES state. -/
def aesBlockOf (x : Bytes) : AesBlock :=
  ⟨aesColAt x 0, aesColAt x 1, aesColAt x 2, aesColAt x 3⟩

/-- The four bytes of a column, row 0 first. -/
def aesColBytes (c : AesCol) : Bytes := [c.b0, c.b1, c.b2, c.b3]

/-- The 16 bytes of an AES state, in the standard's byte order. -/
def aesBlockBytes (b : AesBlock) : Bytes :=
  aesColBytes b.c0 ++ aesColBytes b.c1 ++ aesColBytes b.c2 ++ aesColBytes b.c3

/-- The AES S-box, row `x`, column `y` holding the substitute of byte `0xXY`. -/
def aesSboxTable : List (List Nat) := [
  [0x63, 0x7c, 0x77, 0x7b, 0xf2, 0x6b, 0x6f, 0xc5, 0x30, 0x01, 0x67, 0x2b, 0xfe, 0xd7, 0xab, 0x76],
  [0xca, 0x82, 0xc9, 0x7d, 0xfa, 0x59, 0x47, 0xf0, 0xad, 0xd4, 0xa2, 0xaf, 0x9c, 0xa4, 0x72, 0xc0],
  [0xb7, 0xfd, 0x93, 0x26, 0x36, 0x3f, 0xf7, 0xcc, 0x34, 0xa5, 0xe5, 0xf1, 0x71, 0xd8, 0x31, 0x15],
  [0x04, 0xc7, 0x23, 0xc3, 0x18, 0x96, 0x05, 0x9a, 0x07, 0x12, 0x80, 0xe2, 0xeb, 0x27, 0xb2, 0x75],
  [0x09, 0x83, 0x2c, 0x1a, 0x1b, 0x6e, 0x5a, 0xa0, 0x52, 0x3b, 0xd6, 0xb3, 0x29, 0xe3, 0x2f, 0x84],
  [0x53, 0xd1, 0x00, 0xed, 0x20, 0xfc, 0xb1, 0x5b, 0x6a, 0xcb, 0xbe, 0x39, 0x4a, 0x4c, 0x58, 0xcf],
  [0xd0, 0xef, 0xaa, 0xfb, 0x43, 0x4d, 0x33, 0x85, 0x45, 0xf9, 0x02, 0x7f, 0x50, 0x3c, 0x9f, 0xa8],
  [0x51, 0xa3, 0x40, 0x8f, 0x92, 0x9d, 0x38, 0xf5, 0xbc, 0xb6, 0xda, 0x21, 0x10, 0xff, 0xf3, 0xd2],
  [0xcd, 0x0c, 0x13, 0xec, 0x5f, 0x97, 0x44, 0x17, 0xc4, 0xa7, 0x7e, 0x3d, 0x64, 0x5d, 0x19, 0x73],
  [0x60, 0x81, 0x4f, 0xdc, 0x22, 0x2a, 0x90, 0x88, 0x46, 0xee, 0xb8, 0x14, 0xde, 0x5e, 0x0b, 0xdb],
  [0xe0, 0x32, 0x3a, 0x0a, 0x49, 0x06, 0x24, 0x5c, 0xc2, 0xd3, 0xac, 0x62, 0x91, 0x95, 0xe4, 0x79],
  [0xe7, 0xc8, 0x37, 0x6d, 0x8d, 0xd5, 0x4e, 0xa9, 0x6c, 0x56, 0xf4, 0xea, 0x65, 0x7a, 0xae, 0x08],
  [0xba, 0x78, 0x25, 0x2e, 0x1c, 0xa6, 0xb4, 0xc6, 0xe8, 0xdd, 0x74, 0x1f, 0x4b, 0xbd, 0x8b, 0x8a],
  [0x70, 0x3e, 0xb5, 0x66, 0x48, 0x03, 0xf6, 0x0e, 0x61, 0x35, 0x57, 0xb9, 0x86, 0xc1, 0x1d, 0x9e],
  [0xe1, 0xf8, 0x98, 0x11, 0x69, 0xd9, 0x8e, 0x94, 0x9b, 0x1e, 0x87, 0xe9, 0xce, 0x55, 0x28, 0xdf],
  [0x8c, 0xa1, 0x89, 0x0d, 0xbf, 0xe6, 0x42, 0x68, 0x41, 0x99, 0x2d, 0x0f, 0xb0, 0x54, 0xbb, 0x16]]

/-- The inverse S-box, laid out as `aesSboxTable`. -/
def aesInvSboxTable : List (List Nat) := [
  [0x52, 0x09, 0x6a, 0xd5, 0x30, 0x36, 0xa5, 0x38, 0xbf, 0x40, 0xa3, 0x9e, 0x81, 0xf3, 0xd7, 0xfb],
  [0x7c, 0xe3, 0x39, 0x82, 0x9b, 0x2f, 0xff, 0x87, 0x34, 0x8e, 0x43, 0x44, 0xc4, 0xde, 0xe9, 0xcb],
  [0x54, 0x7b, 0x94, 0x32, 0xa6, 0xc2, 0x23, 0x3d, 0xee, 0x4c, 0x95, 0x0b, 0x42, 0xfa, 0xc3, 0x4e],
  [0x08, 0x2e, 0xa1, 0x66, 0x28, 0xd9, 0x24, 0xb2, 0x76, 0x5b, 0xa2, 0x49, 0x6d, 0x8b, 0xd1, 0x25],
  [0x72, 0xf8, 0xf6, 0x64, 0x86, 0x68, 0x98, 0x16, 0xd4, 0xa4, 0x5c, 0xcc, 0x5d, 0x65, 0xb6, 0x92],
  [0x6c, 0x70, 0x48, 0x50, 0xfd, 0xed, 0xb9, 0xda, 0x5e, 0x15, 0x46, 0x57, 0xa7, 0x8d, 0x9d, 0x84],
  [0x90, 0xd8, 0xab, 0x00, 0x8c, 0xbc, 0xd3, 0x0a, 0xf7, 0xe4, 0x58, 0x05, 0xb8, 0xb3, 0x45, 0x06],
  [0xd0, 0x2c, 0x1e, 0x8f, 0xca, 0x3f, 0x0f, 0x02, 0xc1, 0xaf, 0xbd, 0x03, 0x01, 0x13, 0x8a, 0x6b],
  [0x3a, 0x91, 0x11, 0x41, 0x4f, 0x67, 0xdc, 0xea, 0x97, 0xf2, 0xcf, 0xce, 0xf0, 0xb4, 0xe6, 0x73],
  [0x96, 0xac, 0x74, 0x22, 0xe7, 0xad, 0x35, 0x85, 0xe2, 0xf9, 0x37, 0xe8, 0x1c, 0x75, 0xdf, 0x6e],
  [0x47, 0xf1, 0x1a, 0x71, 0x1d, 0x29, 0xc5, 0x89, 0x6f, 0xb7, 0x62, 0x0e, 0xaa, 0x18, 0xbe, 0x1b],
  [0xfc, 0x56, 0x3e, 0x4b, 0xc6, 0xd2, 0x79, 0x20, 0x9a, 0xdb, 0xc0, 0xfe, 0x78, 0xcd, 0x5a, 0xf4],
  [0x1f, 0xdd, 0xa8, 0x33, 0x88, 0x07, 0xc7, 0x31, 0xb1, 0x12, 0x10, 0x59, 0x27, 0x80, 0xec, 0x5f],
  [0x60, 0x51, 0x7f, 0xa9, 0x19, 0xb5, 0x4a, 0x0d, 0x2d, 0xe5, 0x7a, 0x9f, 0x93, 0xc9, 0x9c, 0xef],
  [0xa0, 0xe0, 0x3b, 0x4d, 0xae, 0x2a, 0xf5, 0xb0, 0xc8, 0xeb, 0xbb, 0x3c, 0x83, 0x53, 0x99, 0x61],
  [0x17, 0x2b, 0x04, 0x7e, 0xba, 0x77, 0xd6, 0x26, 0xe1, 0x69, 0x14, 0x63, 0x55, 0x21, 0x0c, 0x7d]]

/-- The entry of a 16 by 16 byte table that the byte `b` selects: high nibble the row, low nibble
the column. -/
def aesTableEntry (t : List (List Nat)) (b : Byte) : Byte :=
  BitVec.ofNat 8 ((t.getD (b.toNat / 16) []).getD (b.toNat % 16) 0)

/-- SubBytes on one byte. -/
def aesSub (b : Byte) : Byte := aesTableEntry aesSboxTable b

/-- InvSubBytes on one byte. -/
def aesInvSub (b : Byte) : Byte := aesTableEntry aesInvSboxTable b

/-- A function on bytes applied to each byte of a column. -/
def aesColMap (f : Byte → Byte) (c : AesCol) : AesCol := ⟨f c.b0, f c.b1, f c.b2, f c.b3⟩

/-- A function on columns applied to each column of a state. -/
def aesBlockMap (f : AesCol → AesCol) (b : AesBlock) : AesBlock := ⟨f b.c0, f b.c1, f b.c2, f b.c3⟩

/-- Byte-wise XOR of two columns. -/
def aesColXor (a b : AesCol) : AesCol := ⟨a.b0 ^^^ b.b0, a.b1 ^^^ b.b1, a.b2 ^^^ b.b2, a.b3 ^^^ b.b3⟩

/-- AddRoundKey: byte-wise XOR of two states. -/
def aesBlockXor (a b : AesBlock) : AesBlock :=
  ⟨aesColXor a.c0 b.c0, aesColXor a.c1 b.c1, aesColXor a.c2 b.c2, aesColXor a.c3 b.c3⟩

/-- ShiftRows: row `r` rotates left by `r` columns. -/
def aesShiftRows (b : AesBlock) : AesBlock :=
  ⟨⟨b.c0.b0, b.c1.b1, b.c2.b2, b.c3.b3⟩, ⟨b.c1.b0, b.c2.b1, b.c3.b2, b.c0.b3⟩,
   ⟨b.c2.b0, b.c3.b1, b.c0.b2, b.c1.b3⟩, ⟨b.c3.b0, b.c0.b1, b.c1.b2, b.c2.b3⟩⟩

/-- InvShiftRows: row `r` rotates right by `r` columns. -/
def aesInvShiftRows (b : AesBlock) : AesBlock :=
  ⟨⟨b.c0.b0, b.c3.b1, b.c2.b2, b.c1.b3⟩, ⟨b.c1.b0, b.c0.b1, b.c3.b2, b.c2.b3⟩,
   ⟨b.c2.b0, b.c1.b1, b.c0.b2, b.c3.b3⟩, ⟨b.c3.b0, b.c2.b1, b.c1.b2, b.c0.b3⟩⟩

/-- Multiplication by x in GF(2^8) modulo x^8 + x^4 + x^3 + x + 1. -/
def aesXtime (b : Byte) : Byte := (b <<< 1) ^^^ (if b.msb then 0x1b else 0)

/-- Multiplication by the constants MixColumns and InvMixColumns use. -/
def aesMul3 (b : Byte) : Byte := aesXtime b ^^^ b

/-- Multiplication by 9 in GF(2^8). -/
def aesMul9 (b : Byte) : Byte := aesXtime (aesXtime (aesXtime b)) ^^^ b

/-- Multiplication by 11 in GF(2^8). -/
def aesMulB (b : Byte) : Byte := aesXtime (aesXtime (aesXtime b) ^^^ b) ^^^ b

/-- Multiplication by 13 in GF(2^8). -/
def aesMulD (b : Byte) : Byte := aesXtime (aesXtime (aesXtime b ^^^ b)) ^^^ b

/-- Multiplication by 14 in GF(2^8). -/
def aesMulE (b : Byte) : Byte := aesXtime (aesXtime (aesXtime b ^^^ b) ^^^ b)

/-- MixColumns on one column. -/
def aesMixCol (c : AesCol) : AesCol :=
  ⟨aesXtime c.b0 ^^^ aesMul3 c.b1 ^^^ c.b2 ^^^ c.b3,
   c.b0 ^^^ aesXtime c.b1 ^^^ aesMul3 c.b2 ^^^ c.b3,
   c.b0 ^^^ c.b1 ^^^ aesXtime c.b2 ^^^ aesMul3 c.b3,
   aesMul3 c.b0 ^^^ c.b1 ^^^ c.b2 ^^^ aesXtime c.b3⟩

/-- InvMixColumns on one column. -/
def aesInvMixCol (c : AesCol) : AesCol :=
  ⟨aesMulE c.b0 ^^^ aesMulB c.b1 ^^^ aesMulD c.b2 ^^^ aesMul9 c.b3,
   aesMul9 c.b0 ^^^ aesMulE c.b1 ^^^ aesMulB c.b2 ^^^ aesMulD c.b3,
   aesMulD c.b0 ^^^ aesMul9 c.b1 ^^^ aesMulE c.b2 ^^^ aesMulB c.b3,
   aesMulB c.b0 ^^^ aesMulD c.b1 ^^^ aesMul9 c.b2 ^^^ aesMulE c.b3⟩

/-- RotWord of the key schedule. -/
def aesRotWord (c : AesCol) : AesCol := ⟨c.b1, c.b2, c.b3, c.b0⟩

/-- The round constant number `j` (from 1): `x^(j-1)` in the first byte. -/
def aesRcon : Nat → Byte
  | 0 => 0x8d
  | j + 1 => aesXtime (aesRcon j)

/-- The value the key schedule XORs onto word `i - nk` to make word `i`, from word `i - 1`. -/
def aesKeyTemp (nk i : Nat) (prev : AesCol) : AesCol :=
  if i % nk = 0 then
    aesColXor (aesColMap aesSub (aesRotWord prev)) ⟨aesRcon (i / nk), 0, 0, 0⟩
  else if 6 < nk ∧ i % nk = 4 then aesColMap aesSub prev
  else prev

/-- The key schedule: `n` more words after the `i` words of `rev` (newest first). -/
def aesExpand (nk : Nat) : Nat → Nat → List AesCol → List AesCol
  | 0, _, rev => rev
  | n + 1, i, rev =>
    aesExpand nk n (i + 1)
      (aesColXor (rev.getD (nk - 1) default) (aesKeyTemp nk i (rev.getD 0 default)) :: rev)

/-- The words of a key schedule as round keys, four words each. -/
def aesRoundKeysOf : List AesCol → List AesBlock
  | w0 :: w1 :: w2 :: w3 :: ws => ⟨w0, w1, w2, w3⟩ :: aesRoundKeysOf ws
  | _ => []

/-- The round keys of a key of `nk` words (`nk + 7` of them). -/
def aesRoundKeys (nk : Nat) (key : Bytes) : List AesBlock :=
  aesRoundKeysOf
    (aesExpand nk (4 * (nk + 7) - nk) nk ((List.range nk).reverse.map (aesColAt key))).reverse

/-- The rounds of the forward cipher after the first AddRoundKey; the last round has no
MixColumns. -/
def aesEncRounds : List AesBlock → AesBlock → AesBlock
  | [], x => x
  | [k], x => aesBlockXor (aesShiftRows (aesBlockMap (aesColMap aesSub) x)) k
  | k :: ks, x =>
    aesEncRounds ks
      (aesBlockXor (aesBlockMap aesMixCol (aesShiftRows (aesBlockMap (aesColMap aesSub) x))) k)

/-- The rounds of the inverse cipher before the last AddRoundKey, for the round keys in the
forward order. -/
def aesDecRounds : List AesBlock → AesBlock → AesBlock
  | [], x => x
  | [k], x => aesBlockMap (aesColMap aesInvSub) (aesInvShiftRows (aesBlockXor x k))
  | k :: ks, x =>
    aesBlockMap (aesColMap aesInvSub)
      (aesInvShiftRows (aesBlockMap aesInvMixCol (aesBlockXor (aesDecRounds ks x) k)))

/-- The forward cipher under a list of round keys. -/
def aesCipher : List AesBlock → AesBlock → AesBlock
  | [], x => x
  | k :: ks, x => aesEncRounds ks (aesBlockXor x k)

/-- The inverse cipher under the same list of round keys. -/
def aesInvCipher : List AesBlock → AesBlock → AesBlock
  | [], x => x
  | k :: ks, x => aesBlockXor (aesDecRounds ks x) k

/-- `AES128_ENC` (R14): a 16-byte key (4 words). -/
def aes128Enc (key : Bytes) (x : AesBlock) : AesBlock := aesCipher (aesRoundKeys 4 key) x

/-- `AES128_DEC` (R14). -/
def aes128Dec (key : Bytes) (x : AesBlock) : AesBlock := aesInvCipher (aesRoundKeys 4 key) x

/-- `AES256_ENC` (R14): a 32-byte key (8 words). -/
def aes256Enc (key : Bytes) (x : AesBlock) : AesBlock := aesCipher (aesRoundKeys 8 key) x

/-- `AES256_DEC` (R14). -/
def aes256Dec (key : Bytes) (x : AesBlock) : AesBlock := aesInvCipher (aesRoundKeys 8 key) x

end Sys2Proof.Machine
end

