-- ==== Sys2Proof/Machine/Modes.lean ====
section
/-! DEFINITION. The modes of operation of rules R15 and R16 (spec/00_scope.md): ECB without padding
and CBC with a zero initialisation vector and without padding. Both are used only on lengths that
are multiples of 16; the calling rule says what happens otherwise. -/

namespace Sys2Proof.Machine

/-- The first `n` 16-byte blocks of a byte string. -/
def blocksOf : Nat → Bytes → List AesBlock
  | 0, _ => []
  | n + 1, x => aesBlockOf x :: blocksOf n (x.drop 16)

/-- The blocks of a byte string whose length is a multiple of 16. -/
def toBlocks (x : Bytes) : List AesBlock := blocksOf (x.length / 16) x

/-- The byte string of a list of blocks. -/
def ofBlocks (bs : List AesBlock) : Bytes := bs.flatMap aesBlockBytes

/-- `ECB_ENC(AES128_ENC, k, x)` (R15): each block on its own. -/
def ecbEnc (k x : Bytes) : Bytes := ofBlocks ((toBlocks x).map (aes128Enc k))

/-- `ECB_DEC(AES128_DEC, k, x)` (R15). -/
def ecbDec (k x : Bytes) : Bytes := ofBlocks ((toBlocks x).map (aes128Dec k))

/-- The CBC chain `c_i = AES256_ENC(k, x_i XOR c_(i-1))` after the cipher block `prev` (R16). -/
def cbcEncChain (k : Bytes) : AesBlock → List AesBlock → List AesBlock
  | _, [] => []
  | prev, x :: xs =>
    let c := aes256Enc k (aesBlockXor x prev)
    c :: cbcEncChain k c xs

/-- The inverse chain `x_i = AES256_DEC(k, c_i) XOR c_(i-1)` (R16). -/
def cbcDecChain (k : Bytes) : AesBlock → List AesBlock → List AesBlock
  | _, [] => []
  | prev, c :: cs => aesBlockXor (aes256Dec k c) prev :: cbcDecChain k c cs

/-- The initialisation vector: sixteen zero bytes (R16). -/
def cbcIv : AesBlock := aesBlockOf (zeroBytes 16)

/-- `CBC_ENC(k, x)` (R16). -/
def cbcEnc (k x : Bytes) : Bytes := ofBlocks (cbcEncChain k cbcIv (toBlocks x))

/-- `CBC_DEC(k, c)` (R16). -/
def cbcDec (k c : Bytes) : Bytes := ofBlocks (cbcDecChain k cbcIv (toBlocks c))

end Sys2Proof.Machine
end

