-- ==== Sys2Proof/Machine/Envelope.lean ====
section
/-! DEFINITION. Unit U3, the inner envelope (spec/42_inner_envelope.md): `ENV.BUILD`, `ENV.DEC`. -/

namespace Sys2Proof.Machine

/-- The AES-128 key `K` = `MD5(SIGN_KEY)` (R130, R134). -/
def envelopeKey (cfg : Cfg) : Bytes := md5 cfg.signKey

/-- The 40 header bytes with the total length filled in (R82, R130, R132). -/
def envelopeHeader (total : Nat) (d : Bytes) : Bytes :=
  [0x5A, 0x5A, 0x01, 0x11] ++ u16le (BitVec.ofNat 16 total) ++ [0x20, 0x00] ++ zeroBytes 4
    ++ zeroBytes 8 ++ d ++ zeroBytes 2 ++ zeroBytes 12

/-- Header and ciphertext: what the fingerprint covers (R82, R130). -/
def envelopeBody (cfg : Cfg) (d c : Bytes) : Bytes :=
  envelopeHeader (40 + c.length + 16) d ++ ecbEnc (envelopeKey cfg) c

/-- The inner envelope of the command bytes `c` for device id `d` (R82, R130). -/
def envelope (cfg : Cfg) (d c : Bytes) : Bytes :=
  envelopeBody cfg d c ++ md5 (envelopeBody cfg d c ++ cfg.signKey)

/-- The checks of rule R131, in its order; every one fails with `ContractViolation`. -/
def envelopeReady (d : Bytes) (s : State) : Bool :=
  decide (d.length = 6) && s.cmdLoaded && s.cmdFinal && decide (s.cmdLen.val % 16 = 0)

/-- `ENV.BUILD` (R130): no state written. -/
def execEnvBuild (d : Bytes) (s : State) : Host.Outcome State Fault Refusal :=
  .next (if envelopeReady d s then succeed s 0 0 (envelope s.cfg d (command s))
    else failWith .contractViolation s)

/-- `ENV.DEC` (R140): no state written. -/
def execEnvDec (x : Bytes) (s : State) : Host.Outcome State Fault Refusal :=
  .next (if x.length % 16 = 0 then succeed s 0 0 (ecbDec (envelopeKey s.cfg) x)
    else failWith .contractViolation s)

end Sys2Proof.Machine
end

