-- ==== Sys2Proof/Machine/Handshake.lean ====
section
/-! DEFINITION. Unit U5, the handshake (spec/44_handshake.md): `HS.DERIVE`. -/

namespace Sys2Proof.Machine

/-- The window of the reply (R181, R183): bytes `HS_OFF .. HS_OFF+63`, or those that exist. -/
def hsWindow (y : Bytes) : Bytes := slice y hsOff (hsOff + 64)

/-- The ASCII bytes of "ERROR": 45 52 52 4F 52 (R184). -/
def errorWord : Bytes := [0x45, 0x52, 0x52, 0x4F, 0x52]

/-- Whether the window begins with "ERROR", whatever its length (R184). -/
def windowRejects (w : Bytes) : Bool := decide (w.take 5 = errorWord)

/-- The decrypted challenge (R185). -/
def hsPlain (pk w : Bytes) : Bytes := cbcDec pk (slice w 0 32)

/-- The state after the window `w` of the server reply is processed with a 32-byte pairing key: the
"ERROR" test, the length test, the digest test, then the derivation (R181, R184 to R187). -/
def deriveFromWindow (w pk : Bytes) (s : State) : State :=
  if windowRejects w then failWith .handshakeRejected (clearKey s)
  else if w.length < 64 then failWith .framingError (clearKey s)
  else if sha256 (hsPlain pk w) = slice w 32 64 then
    succeed (installKey (keyOf (xorBytes (hsPlain pk w) pk)) s) 0 0 []
  else failWith .handshakeSignatureError (clearKey s)

/-- `HS.DERIVE` (R181): the operand check changes no state (R74). -/
def execHsDerive (y pk : Bytes) (s : State) : Host.Outcome State Fault Refusal :=
  .next (if pk.length = 32 then deriveFromWindow (hsWindow y) pk s else failWith .contractViolation s)

end Sys2Proof.Machine
end

