-- ==== Sys2Proof/Machine/Session.lean ====
section
/-! DEFINITION. Session control and observers (spec/45_session_control.md), and the illegal operation
(R75). -/

namespace Sys2Proof.Machine

/-- The state effects of `SES.DROP` (R195): key and connection counters cleared; `SEQ` and the
command kept. -/
def dropSession (s : State) : State :=
  { clearKey s with reqCnt := 0, rspCnt := 0, rxCtr := 0, ctrMismatch := false }

/-- `SES.DROP` (R195): it cannot fail. -/
def execSesDrop (s : State) : Host.Outcome State Fault Refusal :=
  .next (succeed (dropSession s) 0 0 [])

/-- The 12-byte status record (R197): multi-byte fields high byte first; `TCPKEY` is not in it. -/
def statusRecord (s : State) : Bytes :=
  [flagsByte s, s.seq] ++ u16be s.reqCnt ++ u16be s.rspCnt ++ u16be s.rxCtr
    ++ u16be (BitVec.ofNat 16 s.cmdLen.val) ++ u16be s.cmdKind

/-- `STAT.RD` (R197): no state written; it cannot fail. -/
def execStatRd (s : State) : Host.Outcome State Fault Refusal :=
  .next (succeed s 0 0 (statusRecord s))

/-- A reserved operation code (R75): `IllegalOperation`, no state change. -/
def execIllegal (_op : Byte) (s : State) : Host.Outcome State Fault Refusal :=
  .next (failWith .illegalOperation s)

end Sys2Proof.Machine
end

