-- ==== Sys2Proof/WellFormed.lean ====
section
/-! DEFINITION. Well-formedness as decidable checks: of a request record (R70, R77), of an
instruction (R73, R75, R83 to R87) and of a configuration (R7, R254). -/

namespace Sys2Proof

/-- Every byte-string operand has length at most `IN_MAX` (R70, R77). -/
def Request.wf (r : Request) : Bool :=
  decide (r.inp.length ≤ Machine.inMax) && decide (r.aux.length ≤ Machine.inMax)
    && decide (r.rand.length ≤ Machine.inMax)

/-- Whether an operation code is reserved (R75): 0x00 and 0x0E .. 0xFF. -/
def reservedOp (op : Byte) : Bool := op == 0 || decide (0x0E ≤ op.toNat)

/-- A frame the parser can be handed and accept structurally (R83 to R87, R90), under a
configuration: its type nibble is of its class, its ciphertext is a positive number of whole
blocks with a 32-byte signature, or its body holds the two counter bytes; its stated `size` fits
two bytes and the whole frame is an operand (R77). -/
def Frame.wf (cfg : Cfg) : Frame → Bool
  | .encrypted _ mt ct sig =>
    Machine.encKind cfg mt && decide (16 ≤ ct.length) && decide (ct.length % 16 = 0)
      && decide (sig.length = 32) && decide (ct.length + 38 ≤ Machine.inMax)
  | .plain _ mt body =>
    !Machine.encKind cfg mt && decide (2 ≤ body.length) && decide (body.length + 6 ≤ Machine.inMax)

/-- Well-formed instructions: operands within `IN_MAX`, a reserved code for `ILLEGAL`, a
well-formed frame for a frame row. -/
def Instr.wf (cfg : Cfg) : Instr → Bool
  | .crc8 x => decide (x.length ≤ Machine.inMax)
  | .cmdLoad _ _ => true
  | .cmdSetf _ _ => true
  | .cmdGetf _ => true
  | .cmdFin => true
  | .cmdRd => true
  | .envBuild d => decide (d.length ≤ Machine.inMax)
  | .envDec x => decide (x.length ≤ Machine.inMax)
  | .frmEnc _ p r => decide (p.length ≤ Machine.inMax) && decide (r.length ≤ Machine.inMax)
  | .frmDec b => decide (b.length ≤ Machine.inMax)
  | .hsDerive y pk => decide (y.length ≤ Machine.inMax) && decide (pk.length ≤ Machine.inMax)
  | .sesDrop => true
  | .statRd => true
  | .illegal op => reservedOp op
  | .frameEncrypted pad mt ct sig => Frame.wf cfg (.encrypted pad mt ct sig)
  | .framePlain pad mt body => Frame.wf cfg (.plain pad mt body)

/-- A list of key and value pairs is a finite map: no key twice. -/
def distinctKeys {α : Type} : List (Half × α) → Bool
  | [] => true
  | (k, _) :: m => m.all (fun e => e.1 != k) && distinctKeys m

/-- A template of a kind (R7, R80): 12 ≤ L ≤ `CMD_MAX`, and the sequence byte lies below the
trailer. -/
def templateWf (seqOff : Option Nat) (t : Bytes) : Bool :=
  decide (12 ≤ t.length) && decide (t.length ≤ Machine.cmdMax)
    && (match seqOff with
        | none => true
        | some off => decide (off < t.length - 2))

/-- A kind (R7, R111). -/
def Kind.wf (k : Kind) : Bool :=
  distinctKeys k.templates && k.templates.all (fun e => templateWf k.seqOff e.2)

/-- A field's own shape (R7, R81): 1 ≤ w and s + w ≤ 8. -/
def Field.wf (f : Field) : Bool := decide (1 ≤ f.w) && decide (f.s + f.w ≤ 8)

/-- The field lies below the trailer of every command of the kind: `o` < L-2 for each of the kind's
templates (R7, R57, R254). -/
def fieldFits (f : Field) (k : Kind) : Bool := k.templates.all fun e => decide (f.o < e.2.length - 2)

/-- A kind whose commands can be enveloped: every template length is a multiple of 16 (R254, R271). -/
def Kind.envelopable (k : Kind) : Bool := k.templates.all fun e => decide (e.2.length % 16 = 0)

/-- What rules R7 and R254 demand of a configuration before any field is related to any kind: finite
maps, well-formed kinds and fields, distinct encrypted codes, and a handshake code that is neither.
It is all that the operations rely on, since rule R113 checks a field against the loaded command. -/
def Cfg.formed (c : Cfg) : Bool :=
  distinctKeys c.kinds && c.kinds.all (fun e => e.2.wf)
    && distinctKeys c.fields && c.fields.all (fun e => e.2.wf)
    && c.mtEncryptedRequest != c.mtEncryptedOther
    && !Machine.encKind c c.mtHandshakeRequest

/-- Configuration well-formedness (R7, R57, R254): formed, and every field offset below L-2 of every
template of every kind. The field table does not say which kinds a field applies to, so a field
applies to all of them (notes/assumptions/13.md). -/
def Cfg.wf (c : Cfg) : Bool :=
  c.formed && c.fields.all fun f => c.kinds.all fun k => fieldFits f.2 k.2

/-- Well-formedness for an instance that is to envelope the commands of the kinds `ks`: their template
lengths are multiples of 16 (R254, R271). -/
def Cfg.wfFor (c : Cfg) (ks : List Half) : Bool :=
  c.wf && ks.all fun a => (Machine.kindOf c a).all Kind.envelopable

end Sys2Proof
end

