-- ==== Sys2Proof/Decode.lean ====
section
/-! DEFINITION. Decoding and encoding (spec/30_encoding.md). Two formats exist in
spec/opcode_table.json. `decode` reads a request record (`REQ` rows, rules R70 to R76); it is total
and refuses, by name, only what is no request record. `parseFrame` reads an outer frame
(`FRAME_HDR5` rows, rules R83 to R90); it is total on any byte string and names the check that
fails, in the parser's order. `encode` is written from the same tables. -/

namespace Sys2Proof

/-- Why a record is no request of the port. -/
inductive DecodeError where
  /-- A byte-string operand longer than `IN_MAX` (R70, R77). -/
  | operandTooLong
deriving DecidableEq, Repr

/-- Why the frame parser rejects a byte string structurally, in checking order (R90). -/
inductive FrameReject where
  /-- Fewer than 6 bytes (R161). -/
  | tooShort
  /-- Byte 0 is not 0x83 or byte 1 is not 0x70 (R162). -/
  | badMagic
  /-- The length is not `size + 8` (R163). -/
  | lengthMismatch
  /-- Byte 4 is not 0x20 (R164). -/
  | badFixedByte
  /-- An encrypted kind whose ciphertext is not a positive number of whole blocks (R165). -/
  | badCiphertextLength
deriving DecidableEq, Repr

/-- The instruction an operation code selects, with the operands rule R73 lists for it; the codes
0x00 and 0x0E .. 0xFF are reserved (R72, R75). Bits 15:4 of `A` are dropped for `FRM.ENC` (R151). -/
def decodeOp (r : Request) : Instr :=
  match r.op.toNat with
  | 0x01 => .crc8 r.inp
  | 0x02 => .cmdLoad r.a r.b
  | 0x03 => .cmdSetf r.a r.b
  | 0x04 => .cmdGetf r.a
  | 0x05 => .cmdFin
  | 0x06 => .cmdRd
  | 0x07 => .envBuild r.aux
  | 0x08 => .envDec r.inp
  | 0x09 => .frmEnc (r.a.setWidth 4) r.inp r.rand
  | 0x0A => .frmDec r.inp
  | 0x0B => .hsDerive r.inp r.aux
  | 0x0C => .sesDrop
  | 0x0D => .statRd
  | _ => .illegal r.op

/-- Decode a request record (R70, R72, R73, R75, R77). -/
def decode (r : Request) : Except DecodeError Instr :=
  if r.wf then .ok (decodeOp r) else .error .operandTooLong

/-- The six header bytes of a frame (R83). -/
def frameHeader (size : Nat) (pad mt : Nibble) : Bytes :=
  [0x83, 0x70] ++ Machine.u16be (BitVec.ofNat 16 size) ++ [0x20, Machine.byte5 pad mt]

/-- The bytes of a frame: header, then what follows it, with the stated `size` that the parser
demands, total length less 8 (R83, R87). -/
def Frame.bytes : Frame → Bytes
  | .encrypted pad mt ct sig => frameHeader (ct.length + sig.length - 2) pad mt ++ ct ++ sig
  | .plain pad mt body => frameHeader (body.length - 2) pad mt ++ body

/-- The frame parser (R86, R87, R90): structural checks 1 to 5 in their order, and the split of the
frame. It consults no key. -/
def parseFrame (cfg : Cfg) (b : Bytes) : Except FrameReject Frame :=
  if b.length < 6 then .error .tooShort
  else if b.getD 0 0 ≠ 0x83 ∨ b.getD 1 0 ≠ 0x70 then .error .badMagic
  else if b.length ≠ (Machine.be16 (Machine.slice b 2 4)).toNat + 8 then .error .lengthMismatch
  else if b.getD 4 0 ≠ 0x20 then .error .badFixedByte
  else if Machine.encKind cfg (Machine.mtypeOf (b.getD 5 0)) then
    if b.length < 38 + 16 ∨ (b.length - 38) % 16 ≠ 0 then .error .badCiphertextLength
    else
      .ok (.encrypted (Machine.padOf (b.getD 5 0)) (Machine.mtypeOf (b.getD 5 0))
        (Machine.slice b 6 (b.length - 32)) (b.drop (b.length - 32)))
  else .ok (.plain (Machine.padOf (b.getD 5 0)) (Machine.mtypeOf (b.getD 5 0)) (b.drop 6))

/-- Decode a byte string as a frame row of the table. -/
def decodeFrame (cfg : Cfg) (b : Bytes) : Except FrameReject Instr :=
  (parseFrame cfg b).map Frame.toInstr

/-- The operation code of an instruction (R72); a frame is handed in by `FRM.DEC`. -/
def opcodeOf : Instr → Byte
  | .crc8 _ => 0x01
  | .cmdLoad _ _ => 0x02
  | .cmdSetf _ _ => 0x03
  | .cmdGetf _ => 0x04
  | .cmdFin => 0x05
  | .cmdRd => 0x06
  | .envBuild _ => 0x07
  | .envDec _ => 0x08
  | .frmEnc _ _ _ => 0x09
  | .frmDec _ => 0x0A
  | .hsDerive _ _ => 0x0B
  | .sesDrop => 0x0C
  | .statRd => 0x0D
  | .illegal op => op
  | .frameEncrypted _ _ _ _ => 0x0A
  | .framePlain _ _ _ => 0x0A

/-- The request record with the given code and operands `A`, `B`, `IN`, `AUX`, `RAND`. -/
def requestOf (i : Instr) (a b : Half) (inp aux rand : Bytes) : Request :=
  ⟨opcodeOf i, a, b, inp, aux, rand⟩

/-- The request record of an instruction (R72, R73): operands it does not use are zero or empty. A
frame row is the `FRM.DEC` request whose `IN` is the frame. -/
def encode (i : Instr) : Request :=
  match i with
  | .crc8 x => requestOf i 0 0 x [] []
  | .cmdLoad k d => requestOf i k d [] [] []
  | .cmdSetf f v => requestOf i f v [] [] []
  | .cmdGetf f => requestOf i f 0 [] [] []
  | .cmdFin => requestOf i 0 0 [] [] []
  | .cmdRd => requestOf i 0 0 [] [] []
  | .envBuild d => requestOf i 0 0 [] d []
  | .envDec x => requestOf i 0 0 x [] []
  | .frmEnc mt p r => requestOf i (mt.setWidth 16) 0 p [] r
  | .frmDec b => requestOf i 0 0 b [] []
  | .hsDerive y pk => requestOf i 0 0 y pk []
  | .sesDrop => requestOf i 0 0 [] [] []
  | .statRd => requestOf i 0 0 [] [] []
  | .illegal _ => requestOf i 0 0 [] [] []
  | .frameEncrypted pad mt ct sig => requestOf i 0 0 (Frame.bytes (.encrypted pad mt ct sig)) [] []
  | .framePlain pad mt body => requestOf i 0 0 (Frame.bytes (.plain pad mt body)) [] []

/-- The request whose scalar bits are the low `nbits` bits of `w`, in the record's own order: `OP` in
bits 7:0 (the table's numbering), then `A` in bits 23:8 and `B` in bits 39:24; every other bit is 0
and the byte strings are empty. -/
def requestOfWord (nbits w : Nat) : Request :=
  let v := w % 2 ^ nbits
  ⟨BitVec.ofNat 8 v, BitVec.ofNat 16 (v / 2 ^ 8), BitVec.ofNat 16 (v / 2 ^ 24), [], [], []⟩

/-- The instruction the decoder reads from a word numbered as spec/opcode_table.json numbers it. -/
def decodeTableWord (nbits w : Nat) : Option Instr :=
  match decode (requestOfWord nbits w) with
  | .ok i => some i
  | .error _ => none

end Sys2Proof
end

