-- ==== Sys2Proof/Machine/Transport.lean ====
section
/-! DEFINITION. Unit U4, transport framing (spec/43_transport_framing.md): `FRM.ENC`, `FRM.DEC`, and
the two frame rows of the opcode table. -/

namespace Sys2Proof.Machine

/-- The pad count of an encrypted kind (R153): `16 - ((len+2) mod 16)` when that remainder is not
zero, else 0. -/
def padLen (n : Nat) : Nat := if (n + 2) % 16 = 0 then 0 else 16 - (n + 2) % 16

/-- The pad count of a message type (R150): a plain kind is never padded. -/
def framePad (cfg : Cfg) (mt : Nibble) (p : Bytes) : Nat :=
  if encKind cfg mt then padLen p.length else 0

/-- The `size` field the encoder states (R150, R154). -/
def frameSize (cfg : Cfg) (mt : Nibble) (p : Bytes) : Nat :=
  if encKind cfg mt then p.length + padLen p.length + 32 else p.length + plainSizeExtra

/-- The header the encoder emits (R83, R150 step 2). -/
def encodedHeader (cfg : Cfg) (mt : Nibble) (p : Bytes) : Bytes :=
  frameHeader (frameSize cfg mt p) (BitVec.ofNat 4 (framePad cfg mt p)) mt

/-- `data` = `u16be(REQ_CNT) ‖ p ‖ RAND[0:pad]` (R150 steps 1 and 3). -/
def frameData (s : State) (mt : Nibble) (p r : Bytes) : Bytes :=
  u16be s.reqCnt ++ (p ++ r.take (framePad s.cfg mt p))

/-- The frame `FRM.ENC` returns (R84, R85, R157, R158). -/
def encodedFrame (s : State) (mt : Nibble) (p r : Bytes) : Bytes :=
  if encKind s.cfg mt then
    encodedHeader s.cfg mt p ++ cbcEnc (keyBytes s) (frameData s mt p r)
      ++ sha256 (encodedHeader s.cfg mt p ++ frameData s mt p r)
  else encodedHeader s.cfg mt p ++ frameData s mt p r

/-- The state after `FRM.ENC`: the checks in the order of rule R150, then the frame and the counter
increment of rule R156. -/
def encodeFrame (mt : Nibble) (p r : Bytes) (s : State) : State :=
  if encKind s.cfg mt && !s.keyValid then failWith .notAuthenticated s
  else if 65535 < frameSize s.cfg mt p then failWith .contractViolation s
  else if r.length < framePad s.cfg mt p then failWith .contractViolation s
  else succeed { s with reqCnt := s.reqCnt + 1 } 0 0 (encodedFrame s mt p r)

/-- `FRM.ENC` (R150). -/
def execFrmEnc (mt : Nibble) (p r : Bytes) (s : State) : Host.Outcome State Fault Refusal :=
  .next (encodeFrame mt p r s)

/-- A frame is accepted (R170, R171): the counter is read from the first two bytes of `pt`, recorded
and counted; the body is what follows. -/
def acceptFrame (mt : Nibble) (pt : Bytes) (s : State) : State :=
  succeed
    { s with
      ctrMismatch := ctrMismatchOf s (be16 pt)
      rxCtr := be16 pt
      rspCnt := s.rspCnt + 1 }
    (mt.setWidth 16) (be16 pt) (pt.drop 2)

/-- An encrypted kind after the structural checks (R166, R167, R168): key, then signature over the
header as received and the plaintext, then pad. -/
def receiveEncrypted (hdr : Bytes) (pad mt : Nibble) (ct sig : Bytes) (s : State) : State :=
  if s.keyValid then
    if sha256 (hdr ++ cbcDec (keyBytes s) ct) = sig then
      if (cbcDec (keyBytes s) ct).length < pad.toNat + 2 then failWith .framingError s
      else
        acceptFrame mt
          ((cbcDec (keyBytes s) ct).take ((cbcDec (keyBytes s) ct).length - pad.toNat)) s
    else failWith .signatureError (clearKey s)
  else failWith .notAuthenticated s

/-- The state after the frame parser is handed the bytes `b` (R160): structural checks, then by
kind. A plain kind is accepted unverified and its pad nibble ignored (R169). -/
def receiveFrame (b : Bytes) (s : State) : State :=
  match parseFrame s.cfg b with
  | .error _ => failWith .framingError s
  | .ok (.encrypted pad mt ct sig) => receiveEncrypted (b.take 6) pad mt ct sig s
  | .ok (.plain _ mt body) => acceptFrame mt body s

/-- `FRM.DEC` (R160). -/
def execFrmDec (b : Bytes) (s : State) : Host.Outcome State Fault Refusal := .next (receiveFrame b s)

/-- `FRAME.ENCRYPTED` (R84): what the parser does with this frame. -/
def execFrameEncrypted (pad mt : Nibble) (ct sig : Bytes) (s : State) :
    Host.Outcome State Fault Refusal :=
  .next (receiveFrame (Frame.bytes (.encrypted pad mt ct sig)) s)

/-- `FRAME.PLAIN` (R85): what the parser does with this frame. -/
def execFramePlain (pad mt : Nibble) (body : Bytes) (s : State) :
    Host.Outcome State Fault Refusal :=
  .next (receiveFrame (Frame.bytes (.plain pad mt body)) s)

end Sys2Proof.Machine
end

