-- ==== Sys2Proof/Machine/Dispatch.lean ====
section
/-! DEFINITION. One arm per instruction of Syntax.lean. -/

namespace Sys2Proof.Machine

def exec (i : Instr) (s : State) : Host.Outcome State Fault Refusal :=
  match i with
  | .crc8 data => Sys2Proof.Machine.execCrc8 data s
  | .cmdLoad kind devType => Sys2Proof.Machine.execCmdLoad kind devType s
  | .cmdSetf field value => Sys2Proof.Machine.execCmdSetf field value s
  | .cmdGetf field => Sys2Proof.Machine.execCmdGetf field s
  | .cmdFin => Sys2Proof.Machine.execCmdFin s
  | .cmdRd => Sys2Proof.Machine.execCmdRd s
  | .envBuild devId => Sys2Proof.Machine.execEnvBuild devId s
  | .envDec ct => Sys2Proof.Machine.execEnvDec ct s
  | .frmEnc mtype payload rand => Sys2Proof.Machine.execFrmEnc mtype payload rand s
  | .frmDec frame => Sys2Proof.Machine.execFrmDec frame s
  | .hsDerive reply pairKey => Sys2Proof.Machine.execHsDerive reply pairKey s
  | .sesDrop => Sys2Proof.Machine.execSesDrop s
  | .statRd => Sys2Proof.Machine.execStatRd s
  | .illegal op => Sys2Proof.Machine.execIllegal op s
  | .frameEncrypted pad mtype ct sig => Sys2Proof.Machine.execFrameEncrypted pad mtype ct sig s
  | .framePlain pad mtype body => Sys2Proof.Machine.execFramePlain pad mtype body s

end Sys2Proof.Machine
end

