-- ==== Sys2Proof/Machine/Step.lean ====
section
/-! DEFINITION. One step: the block accepts the next event at its port and runs it to completion
(R60). With nothing presented the block waits, unchanged (R245, R260). -/

namespace Sys2Proof.Machine

/-- One step of the block, from response to response (R260). -/
def step (s : State) : Host.Outcome State Fault Refusal :=
  match takeEvent s with
  | none => .next s
  | some (.reset, s1) => .next (applyReset s1)
  | some (.request r, s1) =>
    match decode r with
    | .error _ => .refused .operandTooLong
    | .ok i => exec i s1

/-- `s` with the request of the word `w` presented at the port as the very next event. -/
def State.withFetchWord (s : State) (nbits w : Nat) : State :=
  { s with pending := .request (requestOfWord nbits w) :: s.pending }

end Sys2Proof.Machine
end

