-- ==== Sys2Proof/Machine/TestConfig.lean ====
section
/-! DEFINITION. Test configuration T0 (spec/95_test_vectors.md section 1) and the candidate CRC table
X1 (spec/93_implementation_defined.md). Both are inventions for testing, not the hardware's: no
other definition of the model uses them, and no statement about the block is made of them alone. -/

namespace Sys2Proof.Machine

/-- One of the eight steps that regenerate an entry of table X1. -/
def x1Step (t : Nat) : Nat := if t % 2 = 1 then (t / 2) ^^^ 0x8C else t / 2

/-- Entry `k` of the candidate table X1. -/
def x1Entry (k : Nat) : Byte := BitVec.ofNat 8 (Nat.repeat x1Step 8 k)

/-- A table of 256 entries from its entry function. -/
def crcTableOf (f : Nat → Byte) : Vector Byte 256 := Vector.ofFn fun k => f k.val

/-- The bytes `lo, lo+1, .., lo+n-1` (mod 256), written `a .. b` in the spec's listings. -/
def bytesFrom (lo n : Nat) : Bytes := (List.range n).map fun i => BitVec.ofNat 8 (lo + i)

/-- The 32-byte template of kinds 0 and 1 of T0. -/
def t0Template : Bytes := bytesFrom 0 30 ++ [0, 0]

/-- Test configuration T0. -/
def t0 : Cfg where
  crcTable := crcTableOf x1Entry
  signKey := bytesFrom 0 16
  kinds :=
    [(0, ⟨none, [(0xAC, t0Template)]⟩), (1, ⟨some 29, [(0xAC, t0Template)]⟩),
     (2, ⟨none, [(0xAC, bytesFrom 0 18 ++ [0, 0])]⟩)]
  fields := [(0, ⟨11, 0, 1⟩), (1, ⟨12, 5, 3⟩), (2, ⟨12, 0, 4⟩), (3, ⟨30, 0, 8⟩)]
  mtHandshakeRequest := 0x0
  mtEncryptedRequest := 0x6
  mtEncryptedOther := 0x3

end Sys2Proof.Machine
end

