-- ==== Sys2Proof/Safety.lean ====
section
/-! DEFINITION. What counts as a safe run: a step that answers a next state, from a state that meets
the invariant `State.Inv` and whose port carries only request records. -/

namespace Sys2Proof.Machine

/-- The machine went on: neither a fault nor a refusal. An ERROR of the block (R220) is a next state. -/
def goesOn (o : Host.Outcome State Fault Refusal) : Prop := ∃ t, o = .next t

/-- The loaded length is that of a template of the loaded kind (R112). -/
def lengthFromTemplate (s : State) : Bool :=
  match kindOf s.cfg s.cmdKind with
  | none => false
  | some k => k.templates.any fun e => e.2.length == s.cmdLen.val

/-- The trailer of the loaded command is current (R30, R118, R120): byte L-2 is the CRC of
`CMD[10:L-2]`, and bytes 1 .. L-1 sum to 0 modulo 256. -/
def trailerCurrent (s : State) : Bool :=
  cmdByte s (s.cmdLen.val - 2) == crc8F s.cfg (cmdSlice s 10 (s.cmdLen.val - 2))
    && byteSum (cmdSlice s 1 s.cmdLen.val) % 256 == 0

/-- The invariant of an instance with a formed configuration (WellFormed.lean). -/
structure State.Inv (s : State) : Prop where
  /-- The configuration is formed (R254): a well-formed one is, and so is one with a field that is too
  far out for some kind, whose use rule R113 refuses. -/
  cfgWf : s.cfg.formed = true
  /-- The command buffer is in its canonical form. -/
  cmdWf : Memory.wf s.cmd = true
  /-- Only bytes 0 .. `CMD_MAX`-1 of the buffer are ever written (R35, R57). -/
  cmdInRange : memBelow cmdMax s.cmd = true
  /-- `TCPKEY` is 32 zero bytes while `KEY_VALID` = 0 (R26). -/
  keyZero : s.keyValid = false → s.tcpKey = zeroKey
  /-- Before the first `CMD.LOAD` the command registers hold their reset values (R30, R251). -/
  unloaded : s.cmdLoaded = false → s.cmdLen = 0 ∧ s.cmdKind = 0 ∧ s.cmdFinal = false ∧ s.cmd = []
  /-- A loaded command has the length of a template of its kind (R112). -/
  loaded : s.cmdLoaded = true → lengthFromTemplate s = true
  /-- `CMD_FINAL` means a current trailer (R30). -/
  final : s.cmdFinal = true → trailerCurrent s = true

/-- What the environment will present is a request record (R70) or a reset. -/
def eventOk : PortEvent → Bool
  | .request r => r.wf
  | .reset => true

/-- Every event at the port is one the port can carry. -/
def portOk (s : State) : Bool := s.pending.all eventOk

/-- The same instruction run `n` times in a row, stopping at the first fault or refusal. -/
def execTimes (i : Instr) : Nat → State → Host.Outcome State Fault Refusal
  | 0, s => .next s
  | n + 1, s =>
    match exec i s with
    | .next t => execTimes i n t
    | .fault r => .fault r
    | .refused r => .refused r

end Sys2Proof.Machine
end

