-- ==== Sys2Proof/Certificates/Slice0/Obligations.lean ====
section
/-! DEFINITION. The statements for the provers, taken from the numbered rules of spec/. A next state is
written `{ s with … }`, so every field that is not named is unchanged; memory is compared through
`memRead`, one byte at a time. The fields `pending` and `resp` are the model's two sides of the port
(notes/assumptions/4.md). -/

open Sys2Proof Sys2Proof.Machine

/-! ## Reset, port, decoding -/

/-- R251: the reset state of every register, flag and buffer byte, of `State.reset` and of a block with
any configuration. -/
def Obligations.ResetStateOfEveryRegister : Prop :=
  ∀ s : State, (s = State.reset ∨ ∃ cfg : Cfg, s = State.resetWith cfg) →
    s.seq = 0x00 ∧ s.reqCnt = 0x0000 ∧ s.rspCnt = 0x0000 ∧ s.rxCtr = 0x0000 ∧
    s.tcpKey.toList = List.replicate 32 0x00 ∧
    s.keyValid = false ∧ s.cmdLoaded = false ∧ s.cmdFinal = false ∧ s.ctrMismatch = false ∧
    s.cmdLen.val = 0 ∧ s.cmdKind = 0x0000 ∧
    ∀ a, memRead s.cmd a = 0x00

/-- The invariant holds right after reset of every instance with a formed configuration. -/
def Obligations.ResetMeetsTheInvariant : Prop :=
  ∀ cfg : Cfg, cfg.formed = true → (State.resetWith cfg).Inv

/-- R250, R252: a reset event between two operations gives the reset state of the same
configuration, and what the environment does next is untouched. That the event is read from the
field `pending`, and that no response is left, is the model's choice (notes/assumptions/4.md). -/
def Obligations.ResetEventRestoresTheResetState : Prop :=
  ∀ (s : State) (rest : List PortEvent), s.pending = .reset :: rest →
    step s = .next { State.resetWith s.cfg with pending := rest }

/-- A step runs the instruction that the request at the port decodes to; the step adds only that the
event is taken from the port. With no event at the port the block waits, unchanged. The port as a
list of events is the model's choice (notes/assumptions/4.md). -/
def Obligations.StepRunsTheDecodedInstruction : Prop :=
  (∀ (s : State) (r : Request) (rest : List PortEvent) (i : Instr),
    s.pending = .request r :: rest → decode r = .ok i →
      step s = exec i { s with pending := rest }) ∧
  (∀ s : State, s.pending = [] → step s = .next s)

/-- R72, R73: each operation code selects its operation with the operands the table lists for it,
whatever the other operands hold. -/
def Obligations.OperationCodesSelectTheirOperations : Prop :=
  ∀ r : Request, r.inp.length ≤ 65535 → r.aux.length ≤ 65535 → r.rand.length ≤ 65535 →
    (r.op = 0x01 → decode r = .ok (.crc8 r.inp)) ∧
    (r.op = 0x02 → decode r = .ok (.cmdLoad r.a r.b)) ∧
    (r.op = 0x03 → decode r = .ok (.cmdSetf r.a r.b)) ∧
    (r.op = 0x04 → decode r = .ok (.cmdGetf r.a)) ∧
    (r.op = 0x05 → decode r = .ok .cmdFin) ∧
    (r.op = 0x06 → decode r = .ok .cmdRd) ∧
    (r.op = 0x07 → decode r = .ok (.envBuild r.aux)) ∧
    (r.op = 0x08 → decode r = .ok (.envDec r.inp)) ∧
    (r.op = 0x09 → decode r = .ok (.frmEnc (BitVec.ofNat 4 (r.a.toNat % 16)) r.inp r.rand)) ∧
    (r.op = 0x0A → decode r = .ok (.frmDec r.inp)) ∧
    (r.op = 0x0B → decode r = .ok (.hsDerive r.inp r.aux)) ∧
    (r.op = 0x0C → decode r = .ok .sesDrop) ∧
    (r.op = 0x0D → decode r = .ok .statRd)

/-- R75: a request with a reserved code fails with `IllegalOperation` (0x01) and changes no state. -/
def Obligations.ReservedCodesAreIllegalOperations : Prop :=
  (∀ r : Request, r.wf = true → (r.op = 0x00 ∨ 0x0E ≤ r.op.toNat) →
    decode r = .ok (.illegal r.op)) ∧
  (∀ (op : Byte) (s : State), exec (.illegal op) s = .next { s with resp := some ⟨0x01, 0, 0, []⟩ })

/-- Words written out from the table decode to what the table names: every operation code, two
reserved codes, and one frame of each kind under test configuration T0 (R72, R75, R83 to R85). That a
table word stands for a record with zero and empty operands is the model's choice
(notes/assumptions/9.md), and so are the two frame rows as instructions (notes/assumptions/7.md). -/
def Obligations.WordsDecodeAsTheTableSays : Prop :=
  decodeTableWord 8 0x01 = some (.crc8 []) ∧ decodeTableWord 8 0x02 = some (.cmdLoad 0 0) ∧
  decodeTableWord 8 0x03 = some (.cmdSetf 0 0) ∧ decodeTableWord 8 0x04 = some (.cmdGetf 0) ∧
  decodeTableWord 8 0x05 = some .cmdFin ∧ decodeTableWord 8 0x06 = some .cmdRd ∧
  decodeTableWord 8 0x07 = some (.envBuild []) ∧ decodeTableWord 8 0x08 = some (.envDec []) ∧
  decodeTableWord 8 0x09 = some (.frmEnc 0 [] []) ∧ decodeTableWord 8 0x0A = some (.frmDec []) ∧
  decodeTableWord 8 0x0B = some (.hsDerive [] []) ∧ decodeTableWord 8 0x0C = some .sesDrop ∧
  decodeTableWord 8 0x0D = some .statRd ∧ decodeTableWord 8 0x00 = some (.illegal 0x00) ∧
  decodeTableWord 8 0x0E = some (.illegal 0x0E) ∧
  decodeFrame t0 [0x83, 0x70, 0x00, 0x01, 0x20, 0x20, 0x12, 0x34, 0xFF] =
    .ok (.framePlain 0x2 0x0 [0x12, 0x34, 0xFF]) ∧
  decodeFrame t0 ([0x83, 0x70, 0x00, 0x2E, 0x20, 0x73] ++ List.replicate 16 0xA1 ++
      List.replicate 32 0x5B) =
    .ok (.frameEncrypted 0x7 0x3 (List.replicate 16 0xA1) (List.replicate 32 0x5B))

/-- R75, R77: decoding is total. A record whose three strings are each at most 65535 bytes decodes to an
operation with the record's own code, never to a frame row, and to `ILLEGAL` exactly when the code
is 0x00 or 0x0E .. 0xFF; a record with a longer string is refused by name. -/
def Obligations.EveryRecordDecodesToItsCode : Prop :=
  ∀ r : Request,
    (r.inp.length ≤ 65535 ∧ r.aux.length ≤ 65535 ∧ r.rand.length ≤ 65535 →
      ∃ i, decode r = .ok i ∧ opcodeOf i = r.op ∧ i.isRequest = true ∧
        ((∃ op, i = .illegal op) ↔ r.op = 0x00 ∨ 0x0E ≤ r.op.toNat)) ∧
    (65535 < r.inp.length ∨ 65535 < r.aux.length ∨ 65535 < r.rand.length →
      decode r = .error .operandTooLong)

/-- Decoding an encoded well-formed instruction gives it back: the request rows through `decode`, the
frame rows through the frame parser's decoder. -/
def Obligations.DecodeInvertsEncode : Prop :=
  ∀ (cfg : Cfg) (i : Instr), i.wf cfg = true →
    (i.isRequest = true → decode (encode i) = .ok i) ∧
    (i.isRequest = false → decodeFrame cfg (encode i).inp = .ok i)

/-- The frame parser drops no bit: a byte string it accepts is exactly the layout of what it read,
and the type nibble of what it read is of its class. -/
def Obligations.ParserKeepsEveryByte : Prop :=
  ∀ (cfg : Cfg) (b : Bytes) (f : Frame), parseFrame cfg b = .ok f →
    f.bytes = b ∧
    (∀ pad mt ct sig, f = .encrypted pad mt ct sig →
      (mt = cfg.mtEncryptedRequest ∨ mt = cfg.mtEncryptedOther) ∧
      sig.length = 32 ∧ 16 ≤ ct.length ∧ ct.length % 16 = 0) ∧
    (∀ pad mt body, f = .plain pad mt body →
      mt ≠ cfg.mtEncryptedRequest ∧ mt ≠ cfg.mtEncryptedOther ∧ 2 ≤ body.length)

/-! ## Invariants and whole-machine rules -/

/-- Every step from a state that meets the invariant gives a state that meets it: a formed
configuration stays one, the buffer keeps its canonical form and its range, the key is zero while
invalid, and `CMD_FINAL` means a current trailer. -/
def Obligations.StepKeepsTheInvariant : Prop :=
  ∀ s t : State, s.Inv → step s = .next t → t.Inv

/-- The block cannot hang or stop: from a state that meets the invariant, with requests the port can
carry, a step answers a next state; the event is consumed, and a request has its response. That
events are read from `pending` is the model's choice (notes/assumptions/4.md). -/
def Obligations.StepAlwaysAnswers : Prop :=
  ∀ s : State, s.Inv → portOk s = true →
    ∃ t, step s = .next t ∧ portOk t = true ∧ t.pending = s.pending.tail ∧
      ∀ (r : Request) (rest : List PortEvent), s.pending = .request r :: rest → t.resp ≠ none

/-- R7, R252: no step changes the configuration. -/
def Obligations.ConfigurationNeverChanges : Prop :=
  ∀ s t : State, step s = .next t → t.cfg = s.cfg

/-- R222, R230: an operation that fails delivers its code, `V` = `W` = 0 and an empty `OUT`. A signature
error and the three handshake errors of `HS.DERIVE` clear `KEY_VALID` and `TCPKEY` and change nothing
else; every other failure changes no state. Only the parser raises the first and only with a valid
key. -/
def Obligations.FailedOperationsDeliverNothing : Prop :=
  ∀ (i : Instr) (s t : State), exec i s = .next t →
    ∃ r, t.resp = some r ∧ r.err.toNat ≤ 8 ∧
      (r.err ≠ 0x00 →
        r = ⟨r.err, 0, 0, []⟩ ∧
        (r.err = 0x05 → ((∃ b, i = .frmDec b) ∨ i.isRequest = false) ∧ s.keyValid = true) ∧
        (r.err = 0x05 ∨ (∃ y pk, i = .hsDerive y pk) ∧
            (r.err = 0x04 ∨ r.err = 0x06 ∨ r.err = 0x07) →
          t = { s with
            keyValid := false, tcpKey := Vector.replicate 32 0x00, resp := some r }) ∧
        (¬ (r.err = 0x05 ∨ (∃ y pk, i = .hsDerive y pk) ∧
            (r.err = 0x04 ∨ r.err = 0x06 ∨ r.err = 0x07)) →
          t = { s with resp := some r }))

/-- R221: the list of (operation, error) pairs is complete; a frame row is handed in by `FRM.DEC`. -/
def Obligations.ErrorCausesAreComplete : Prop :=
  ∀ (i : Instr) (s t : State) (r : Response), exec i s = .next t → t.resp = some r →
    match i with
    | .crc8 _ => r.err = 0x00
    | .cmdLoad _ _ => r.err = 0x00 ∨ r.err = 0x02 ∨ r.err = 0x03
    | .cmdSetf _ _ => r.err = 0x00 ∨ r.err = 0x02
    | .cmdGetf _ => r.err = 0x00 ∨ r.err = 0x02
    | .cmdFin => r.err = 0x00 ∨ r.err = 0x02
    | .cmdRd => r.err = 0x00 ∨ r.err = 0x02
    | .envBuild _ => r.err = 0x00 ∨ r.err = 0x02
    | .envDec _ => r.err = 0x00 ∨ r.err = 0x02
    | .frmEnc _ _ _ => r.err = 0x00 ∨ r.err = 0x08 ∨ r.err = 0x02
    | .frmDec _ => r.err = 0x00 ∨ r.err = 0x04 ∨ r.err = 0x08 ∨ r.err = 0x05
    | .hsDerive _ _ => r.err = 0x00 ∨ r.err = 0x02 ∨ r.err = 0x06 ∨ r.err = 0x04 ∨ r.err = 0x07
    | .sesDrop => r.err = 0x00
    | .statRd => r.err = 0x00
    | .illegal _ => r.err = 0x01
    | .frameEncrypted _ _ _ _ => r.err = 0x00 ∨ r.err = 0x04 ∨ r.err = 0x08 ∨ r.err = 0x05
    | .framePlain _ _ _ => r.err = 0x00 ∨ r.err = 0x04 ∨ r.err = 0x08 ∨ r.err = 0x05

/-- R55: `CMD.GETF`, `CMD.RD`, `STAT.RD`, `CRC8` and `ENV.DEC` change no state and, repeated with the
same operands, return the same result. -/
def Obligations.ReadsHaveNoSideEffect : Prop :=
  ∀ (i : Instr) (s t : State),
    ((∃ a, i = .cmdGetf a) ∨ i = .cmdRd ∨ i = .statRd ∨ (∃ x, i = .crc8 x) ∨
      (∃ x, i = .envDec x)) →
    exec i s = .next t → t = { s with resp := t.resp } ∧ exec i t = .next t

/-- R23, R30: the "written by", "set to 1 by" and "cleared to 0 by" columns of the register and flag
tables, over every operation; a frame row is handed in by `FRM.DEC`. -/
def Obligations.RegistersChangeOnlyByTheirWriters : Prop :=
  ∀ (i : Instr) (s t : State), exec i s = .next t →
    (t.seq ≠ s.seq → i = .cmdFin) ∧
    (t.reqCnt ≠ s.reqCnt → (∃ mt p r, i = .frmEnc mt p r) ∨ i = .sesDrop) ∧
    (t.rspCnt ≠ s.rspCnt → (∃ b, i = .frmDec b) ∨ i.isRequest = false ∨ i = .sesDrop) ∧
    (t.rxCtr ≠ s.rxCtr → (∃ b, i = .frmDec b) ∨ i.isRequest = false ∨ i = .sesDrop) ∧
    (t.ctrMismatch ≠ s.ctrMismatch → (∃ b, i = .frmDec b) ∨ i.isRequest = false ∨ i = .sesDrop) ∧
    (s.keyValid = false → t.keyValid = true → ∃ y pk, i = .hsDerive y pk) ∧
    (s.keyValid = true → t.keyValid = false →
      (∃ y pk, i = .hsDerive y pk) ∨ (∃ b, i = .frmDec b) ∨ i.isRequest = false ∨ i = .sesDrop) ∧
    (t.tcpKey ≠ s.tcpKey →
      (∃ y pk, i = .hsDerive y pk) ∨ (∃ b, i = .frmDec b) ∨ i.isRequest = false ∨ i = .sesDrop) ∧
    (t.cmdLen ≠ s.cmdLen → ∃ a b, i = .cmdLoad a b) ∧
    (t.cmdKind ≠ s.cmdKind → ∃ a b, i = .cmdLoad a b) ∧
    (s.cmdLoaded = false → t.cmdLoaded = true → ∃ a b, i = .cmdLoad a b) ∧
    (s.cmdLoaded = true → t.cmdLoaded = true) ∧
    (s.cmdFinal = false → t.cmdFinal = true → i = .cmdFin) ∧
    (s.cmdFinal = true → t.cmdFinal = false →
      (∃ a b, i = .cmdLoad a b) ∨ ∃ a b, i = .cmdSetf a b) ∧
    (t.cmd ≠ s.cmd → (∃ a b, i = .cmdLoad a b) ∨ (∃ a b, i = .cmdSetf a b) ∨ i = .cmdFin)

/-- R26: no operation but the frame operations returns `TCPKEY` or any function of it. Two runs that
differ only in the key give the same response and differ afterwards in nothing but the key; the
frame operations join them on plain kinds and while `KEY_VALID` = 0. -/
def Obligations.SessionKeyIsNotDisclosed : Prop :=
  ∀ (i : Instr) (s t : State) (k : Vector Byte 32),
    ((∀ mt p r, i = .frmEnc mt p r → s.keyValid = true → encKind s.cfg mt = false) ∧
      (∀ b, i = .frmDec b → s.keyValid = true →
        ∀ pad mt ct sig, parseFrame s.cfg b ≠ .ok (.encrypted pad mt ct sig)) ∧
      (i.isRequest = false → s.keyValid = true →
        ∀ pad mt ct sig, parseFrame s.cfg (encode i).inp ≠ .ok (.encrypted pad mt ct sig))) →
    exec i s = .next t →
      exec i { s with tcpKey := k } = .next t ∨
      exec i { s with tcpKey := k } = .next { t with tcpKey := k }

/-- No operation's outcome depends on the last response or on what the environment will present later:
the two sides of the port are the model's own fields (notes/assumptions/4.md), and nothing in them
decides a register, a flag, a buffer byte or a response. -/
def Obligations.PortFieldsDecideNothing : Prop :=
  ∀ (i : Instr) (s : State) (q : Option Response) (p : List PortEvent),
    (∀ t, exec i s = .next t →
      exec i { s with resp := q, pending := p } = .next { t with pending := p }) ∧
    (∀ f, exec i s = .fault f → exec i { s with resp := q, pending := p } = .fault f) ∧
    (∀ f, exec i s ≠ .refused f)

/-! ## U1: CRC8 -/

/-- R101, R102: `CRC8` returns the fold of the configured table over the data, from 0x00, lowest index
first, zero-extended; it reads and writes no other state and cannot fail. -/
def Obligations.Crc8ReturnsTheTableFold : Prop :=
  ∀ (x : Bytes) (s : State),
    exec (.crc8 x) s = .next { s with
      resp := some ⟨0x00, BitVec.zeroExtend 16
        (x.foldl (fun c b => s.cfg.crcTable[(c ^^^ b).toNat]'(BitVec.isLt _)) 0x00), 0, []⟩ }

/-- R104 (a), (c): the CRC of a concatenation is the loop run on the second part from the CRC of the
first; with the identity table it is the XOR of the bytes. -/
def Obligations.Crc8IsALeftFoldOverAnyTable : Prop :=
  (∀ (cfg : Cfg) (x y : Bytes), crc8F cfg (x ++ y) = crcFrom cfg (crc8F cfg x) y) ∧
  (∀ (cfg : Cfg) (x : Bytes), (∀ k : Byte, crcEntry cfg k = k) →
    crc8F cfg x = x.foldr (· ^^^ ·) 0x00)

/-! ## U2: the command codec -/

/-- R112: `CMD.LOAD` of an unknown kind id fails with `ContractViolation`, of a known kind with an
unsupported device type with `UnsupportedDevice`, and changes no state; otherwise it copies the
template to the start of the buffer, sets the length, kind and flags, and leaves every later byte
and `SEQ`. -/
def Obligations.LoadBuildsTheCommand : Prop :=
  ∀ (s : State) (a b : Half), Memory.wf s.cmd = true → s.cfg.formed = true →
    (s.cfg.kinds.lookup a = none →
      exec (.cmdLoad a b) s = .next { s with resp := some ⟨0x02, 0, 0, []⟩ }) ∧
    (∀ k, s.cfg.kinds.lookup a = some k → k.templates.lookup b = none →
      exec (.cmdLoad a b) s = .next { s with resp := some ⟨0x03, 0, 0, []⟩ }) ∧
    (∀ k t, s.cfg.kinds.lookup a = some k → k.templates.lookup b = some t →
      ∃ (m : Memory) (len : Fin (cmdMax + 1)), len.val = t.length ∧
        exec (.cmdLoad a b) s = .next { s with
          cmd := m, cmdLen := len, cmdKind := a, cmdLoaded := true, cmdFinal := false,
          resp := some ⟨0x00, 0, 0, []⟩ } ∧
        (∀ i, i < t.length → memRead m i = t.getD i 0) ∧
        (∀ i, t.length ≤ i → memRead m i = memRead s.cmd i))

/-- R114, R115: `CMD.SETF` writes the clamped value into exactly the field's bits of its byte, keeps
every other bit and byte, and clears `CMD_FINAL`. -/
def Obligations.SetfWritesOnlyItsField : Prop :=
  ∀ (s : State) (a b : Half) (f : Field),
    Memory.wf s.cmd = true → s.cfg.formed = true →
    s.cmdLoaded = true → s.cfg.fields.lookup a = some f → f.o < s.cmdLen.val - 2 →
    ∃ m : Memory,
      exec (.cmdSetf a b) s = .next { s with
        cmd := m, cmdFinal := false, resp := some ⟨0x00, 0, 0, []⟩ } ∧
      (∀ j, j < 8 → (memRead m f.o).getLsbD j =
        if f.s ≤ j ∧ j < f.s + f.w then (min b.toNat (2 ^ f.w - 1)).testBit (j - f.s)
        else (memRead s.cmd f.o).getLsbD j) ∧
      (∀ i, i ≠ f.o → memRead m i = memRead s.cmd i)

/-- R116: `CMD.GETF` returns the raw field, zero-extended, and writes no state. -/
def Obligations.GetfReadsItsField : Prop :=
  ∀ (s : State) (a : Half) (f : Field),
    s.cmdLoaded = true → s.cfg.fields.lookup a = some f → f.o < s.cmdLen.val - 2 →
    exec (.cmdGetf a) s = .next { s with
      resp := some ⟨0x00, BitVec.ofNat 16 ((memRead s.cmd f.o).toNat / 2 ^ f.s % 2 ^ f.w), 0, []⟩ }

/-- `CMD.GETF` after `CMD.SETF` on the same field returns the clamped value (from R114 to R116). -/
def Obligations.GetfAfterSetfReturnsTheClampedValue : Prop :=
  ∀ (s t : State) (a b : Half) (f : Field),
    Memory.wf s.cmd = true → s.cfg.formed = true →
    s.cmdLoaded = true → s.cfg.fields.lookup a = some f → f.o < s.cmdLen.val - 2 →
    exec (.cmdSetf a b) s = .next t →
    exec (.cmdGetf a) t = .next { t with
      resp := some ⟨0x00, BitVec.ofNat 16 (min b.toNat (2 ^ f.w - 1)), 0, []⟩ }

/-- R113: with nothing loaded, an unknown field id, or a field in the trailer or beyond, `CMD.SETF` and
`CMD.GETF` fail with `ContractViolation` and change no state. -/
def Obligations.FieldLookupFailures : Prop :=
  ∀ (s : State) (a b : Half),
    (s.cmdLoaded = false ∨ s.cfg.fields.lookup a = none ∨
      (∃ f, s.cfg.fields.lookup a = some f ∧ s.cmdLen.val ≤ f.o + 2)) →
    exec (.cmdSetf a b) s = .next { s with resp := some ⟨0x02, 0, 0, []⟩ } ∧
    exec (.cmdGetf a) s = .next { s with resp := some ⟨0x02, 0, 0, []⟩ }

/-- R117, R118: `CMD.FIN` on a non-sequenced kind writes the CRC of bytes 10 .. L-3 to byte L-2, then
minus the sum of bytes 1 .. L-2 to byte L-1, sets `CMD_FINAL`, returns the command, and touches
nothing else. -/
def Obligations.FinComputesTheTrailer : Prop :=
  ∀ (s : State) (k : Kind),
    Memory.wf s.cmd = true → s.cmdLoaded = true → s.cfg.kinds.lookup s.cmdKind = some k →
    k.seqOff = none → 12 ≤ s.cmdLen.val →
    ∃ m : Memory,
      exec .cmdFin s = .next { s with
        cmd := m, cmdFinal := true,
        resp := some ⟨0x00, 0, 0, (List.range s.cmdLen.val).map (memRead m)⟩ } ∧
      memRead m (s.cmdLen.val - 2) = ((List.range' 10 (s.cmdLen.val - 12)).map (memRead s.cmd)).foldl
        (fun c b => s.cfg.crcTable[(c ^^^ b).toNat]'(BitVec.isLt _)) 0x00 ∧
      (memRead m (s.cmdLen.val - 1)).toNat = (256 -
        ((List.range' 1 (s.cmdLen.val - 2)).map fun i => (memRead m i).toNat).sum % 256) % 256 ∧
      (∀ i, i ≠ s.cmdLen.val - 2 → i ≠ s.cmdLen.val - 1 → memRead m i = memRead s.cmd i)

/-- R119: `CMD.FIN` on a sequenced kind first writes the current `SEQ` to its offset and increments it
modulo 256; the trailer then covers the injected byte. -/
def Obligations.FinInjectsTheSequenceNumber : Prop :=
  ∀ (s : State) (k : Kind) (off : Nat),
    Memory.wf s.cmd = true → s.cmdLoaded = true → s.cfg.kinds.lookup s.cmdKind = some k →
    k.seqOff = some off → 12 ≤ s.cmdLen.val → off < s.cmdLen.val - 2 →
    ∃ m : Memory,
      exec .cmdFin s = .next { s with
        cmd := m, seq := BitVec.ofNat 8 ((s.seq.toNat + 1) % 256), cmdFinal := true,
        resp := some ⟨0x00, 0, 0, (List.range s.cmdLen.val).map (memRead m)⟩ } ∧
      memRead m off = s.seq ∧
      memRead m (s.cmdLen.val - 2) = ((List.range' 10 (s.cmdLen.val - 12)).map (memRead m)).foldl
        (fun c b => s.cfg.crcTable[(c ^^^ b).toNat]'(BitVec.isLt _)) 0x00 ∧
      (memRead m (s.cmdLen.val - 1)).toNat = (256 -
        ((List.range' 1 (s.cmdLen.val - 2)).map fun i => (memRead m i).toNat).sum % 256) % 256 ∧
      (∀ i, i ≠ off → i ≠ s.cmdLen.val - 2 → i ≠ s.cmdLen.val - 1 →
        memRead m i = memRead s.cmd i)

/-- R117, R123: with nothing loaded, `CMD.FIN` and `CMD.RD` fail with `ContractViolation` and change no
state; otherwise `CMD.RD` returns the whole command, final or not, and writes no state. -/
def Obligations.RdReturnsTheLoadedCommand : Prop :=
  ∀ s : State,
    (s.cmdLoaded = true → exec .cmdRd s = .next { s with
      resp := some ⟨0x00, 0, 0, (List.range s.cmdLen.val).map (memRead s.cmd)⟩ }) ∧
    (s.cmdLoaded = false →
      exec .cmdRd s = .next { s with resp := some ⟨0x02, 0, 0, []⟩ } ∧
      exec .cmdFin s = .next { s with resp := some ⟨0x02, 0, 0, []⟩ })

/-- For any finalized command the sum of bytes 1 .. L-1 is 0 modulo 256 and byte L-2 is the CRC of
bytes 10 .. L-3, whatever the table and the content (from R118; spec's property R120 (a), (b)). -/
def Obligations.FinalizedCommandSumsToZero : Prop :=
  ∀ s t : State, s.Inv → s.cmdLoaded = true → exec .cmdFin s = .next t →
    ((List.range' 1 (s.cmdLen.val - 1)).map fun i => (memRead t.cmd i).toNat).sum % 256 = 0 ∧
    memRead t.cmd (s.cmdLen.val - 2) =
      crc8F s.cfg ((List.range' 10 (s.cmdLen.val - 12)).map (memRead t.cmd))

/-- R121: `CMD.FIN` again on a final command of a non-sequenced kind recomputes the same bytes and
changes nothing. -/
def Obligations.RefinalizingANonSequencedCommandChangesNothing : Prop :=
  ∀ (s t : State) (k : Kind),
    s.Inv → s.cmdLoaded = true → s.cfg.kinds.lookup s.cmdKind = some k → k.seqOff = none →
    exec .cmdFin s = .next t → exec .cmdFin t = .next t

/-- `n` consecutive `CMD.FIN` on a sequenced kind run, inject the `n` next values of `SEQ` in order,
and 256 of them bring `SEQ` back to where it started (from R119; spec's property R120 (d)). -/
def Obligations.ConsecutiveFinalizationsCountModulo256 : Prop :=
  ∀ (s : State) (k : Kind) (off : Nat),
    s.Inv → s.cmdLoaded = true → s.cfg.kinds.lookup s.cmdKind = some k → k.seqOff = some off →
    (∀ n, ∃ t, execTimes .cmdFin (n + 1) s = .next t ∧
      (memRead t.cmd off).toNat = (s.seq.toNat + n) % 256 ∧
      t.seq.toNat = (s.seq.toNat + n + 1) % 256) ∧
    (∀ t, execTimes .cmdFin 256 s = .next t → t.seq = s.seq)

/-! ## U3: the inner envelope -/

/-- R130, R82: `ENV.BUILD` on a final command of whole blocks returns the 40-byte header with the total
length in little-endian order, the ECB ciphertext under MD5 of the signing key, and the MD5
fingerprint over both and the signing key; it writes no state. -/
def Obligations.EnvBuildLaysOutTheEnvelope : Prop :=
  ∀ (s : State) (d : Bytes),
    d.length = 6 → s.cmdLoaded = true → s.cmdFinal = true → s.cmdLen.val % 16 = 0 →
    ∃ hdr : Bytes,
      hdr = [0x5A, 0x5A, 0x01, 0x11, BitVec.ofNat 8 ((56 + s.cmdLen.val) % 256),
          BitVec.ofNat 8 ((56 + s.cmdLen.val) / 256), 0x20, 0x00] ++ List.replicate 4 0x00
        ++ List.replicate 8 0x00 ++ d ++ List.replicate 2 0x00 ++ List.replicate 12 0x00 ∧
      hdr.length = 40 ∧
      (ecbEnc (md5 s.cfg.signKey) ((List.range s.cmdLen.val).map (memRead s.cmd))).length
        = s.cmdLen.val ∧
      exec (.envBuild d) s = .next { s with resp := some ⟨0x00, 0, 0,
        hdr ++ ecbEnc (md5 s.cfg.signKey) ((List.range s.cmdLen.val).map (memRead s.cmd)) ++
        md5 (hdr ++ ecbEnc (md5 s.cfg.signKey) ((List.range s.cmdLen.val).map (memRead s.cmd))
          ++ s.cfg.signKey)⟩ }

/-- R131: a wrong device-id length, nothing loaded, a command that is not final, or a length that is
not a multiple of 16 fails with `ContractViolation` and changes no state. -/
def Obligations.EnvBuildChecksItsContract : Prop :=
  ∀ (s : State) (d : Bytes),
    (d.length ≠ 6 ∨ s.cmdLoaded = false ∨ s.cmdFinal = false ∨ s.cmdLen.val % 16 ≠ 0) →
    exec (.envBuild d) s = .next { s with resp := some ⟨0x02, 0, 0, []⟩ }

/-- R140: `ENV.DEC` returns the ECB decryption under MD5 of the signing key, of the same length, and
refuses a length that is not a multiple of 16; it writes no state. -/
def Obligations.EnvDecDecryptsWholeBlocks : Prop :=
  ∀ (s : State) (x : Bytes),
    (x.length % 16 = 0 →
      (ecbDec (md5 s.cfg.signKey) x).length = x.length ∧
      exec (.envDec x) s = .next { s with
        resp := some ⟨0x00, 0, 0, ecbDec (md5 s.cfg.signKey) x⟩ }) ∧
    (x.length % 16 ≠ 0 →
      exec (.envDec x) s = .next { s with resp := some ⟨0x02, 0, 0, []⟩ })

/-- `ENV.DEC` of bytes 40 .. 39+L of what `ENV.BUILD` returned is the finalized command, in any state of
an instance with the same configuration (from R130, R140 and property P1 of R14, which the model
takes from FIPS 197: notes/assumptions/2.md). -/
def Obligations.EnvDecInvertsEnvBuild : Prop :=
  ∀ (s t u : State) (d : Bytes) (r : Response),
    exec (.envBuild d) s = .next t → t.resp = some r → r.err = 0x00 → u.cfg = s.cfg →
    exec (.envDec ((r.out.drop 40).take (r.out.length - 56))) u = .next { u with
      resp := some ⟨0x00, 0, 0, (List.range s.cmdLen.val).map (memRead s.cmd)⟩ }

/-! ## U4: transport framing -/

/-- R150, R158: `FRM.ENC` of a plain kind returns header, counter and payload in clear, with `size` =
len + 2 and a zero pad nibble, and increments `REQ_CNT` modulo 65536; it needs no key. -/
def Obligations.FrmEncPlainFrame : Prop :=
  ∀ (s : State) (mt : Nibble) (p r : Bytes),
    mt ≠ s.cfg.mtEncryptedRequest → mt ≠ s.cfg.mtEncryptedOther → p.length ≤ 65533 →
    exec (.frmEnc mt p r) s = .next { s with
      reqCnt := BitVec.ofNat 16 ((s.reqCnt.toNat + 1) % 65536),
      resp := some ⟨0x00, 0, 0,
        [0x83, 0x70, BitVec.ofNat 8 ((p.length + 2) / 256), BitVec.ofNat 8 ((p.length + 2) % 256),
          0x20, BitVec.ofNat 8 mt.toNat, BitVec.ofNat 8 (s.reqCnt.toNat / 256),
          BitVec.ofNat 8 (s.reqCnt.toNat % 256)] ++ p⟩ }

/-- R182: the handshake request of a 16-byte token is the 24-byte frame
`83 70 00 12 20 0t c1 c0 token`, and it advances `REQ_CNT`. -/
def Obligations.HandshakeRequestIsA24ByteClearFrame : Prop :=
  ∀ (s : State) (token r : Bytes), s.cfg.formed = true → token.length = 16 →
    exec (.frmEnc s.cfg.mtHandshakeRequest token r) s = .next { s with
      reqCnt := s.reqCnt + 1,
      resp := some ⟨0x00, 0, 0,
        [0x83, 0x70, 0x00, 0x12, 0x20, BitVec.zeroExtend 8 s.cfg.mtHandshakeRequest,
          BitVec.ofNat 8 (s.reqCnt.toNat / 256), BitVec.ofNat 8 (s.reqCnt.toNat % 256)] ++ token⟩ }

/-- R150, R153, R154, R156, R157: `FRM.ENC` of an encrypted kind with a valid key pads counter and
payload to whole blocks with the first `pad` bytes of the draw, signs the header and the plaintext,
and returns header, ciphertext and signature; only `REQ_CNT` is written. -/
def Obligations.FrmEncEncryptedFrame : Prop :=
  ∀ (s : State) (mt : Nibble) (p r : Bytes) (pad : Nat),
    (mt = s.cfg.mtEncryptedRequest ∨ mt = s.cfg.mtEncryptedOther) → s.keyValid = true →
    pad < 16 → (2 + p.length + pad) % 16 = 0 → p.length + pad ≤ 65503 → pad ≤ r.length →
    ∃ hdr data : Bytes,
      hdr = [0x83, 0x70, BitVec.ofNat 8 ((p.length + pad + 32) / 256),
        BitVec.ofNat 8 ((p.length + pad + 32) % 256), 0x20, BitVec.ofNat 8 (pad * 16 + mt.toNat)] ∧
      data = [BitVec.ofNat 8 (s.reqCnt.toNat / 256), BitVec.ofNat 8 (s.reqCnt.toNat % 256)] ++ p
        ++ r.take pad ∧
      exec (.frmEnc mt p r) s = .next { s with
        reqCnt := BitVec.ofNat 16 ((s.reqCnt.toNat + 1) % 65536),
        resp := some ⟨0x00, 0, 0,
          hdr ++ cbcEnc s.tcpKey.toList data ++ sha256 (hdr ++ data)⟩ }

/-- R152, R154, R155: an encrypted kind without a valid key fails with `NotAuthenticated` before
anything else; a `size` above 65535 or too few drawn bytes fail with `ContractViolation`; the
counter and all other state stay. -/
def Obligations.FrmEncRefusals : Prop :=
  ∀ (s : State) (mt : Nibble) (p r : Bytes),
    ((mt = s.cfg.mtEncryptedRequest ∨ mt = s.cfg.mtEncryptedOther) →
      (s.keyValid = false →
        exec (.frmEnc mt p r) s = .next { s with resp := some ⟨0x08, 0, 0, []⟩ }) ∧
      (∀ pad, s.keyValid = true → pad < 16 → (2 + p.length + pad) % 16 = 0 →
        (65503 < p.length + pad ∨ r.length < pad) →
        exec (.frmEnc mt p r) s = .next { s with resp := some ⟨0x02, 0, 0, []⟩ })) ∧
    (mt ≠ s.cfg.mtEncryptedRequest → mt ≠ s.cfg.mtEncryptedOther → 65533 < p.length →
      exec (.frmEnc mt p r) s = .next { s with resp := some ⟨0x02, 0, 0, []⟩ })

/-- R161 to R165: fewer than 6 bytes, a bad magic, a length other than `size` + 8, a byte 4 other than
0x20, or an encrypted kind whose ciphertext is not a positive number of whole blocks: `FramingError`
whatever the key, and no state changes. -/
def Obligations.MalformedFramesAreFramingErrors : Prop :=
  ∀ (s : State) (b : Bytes),
    (b.length < 6 ∨ b.getD 0 0 ≠ 0x83 ∨ b.getD 1 0 ≠ 0x70 ∨
      b.length ≠ (b.getD 2 0).toNat * 256 + (b.getD 3 0).toNat + 8 ∨ b.getD 4 0 ≠ 0x20 ∨
      ((BitVec.ofNat 4 ((b.getD 5 0).toNat % 16) = s.cfg.mtEncryptedRequest ∨
          BitVec.ofNat 4 ((b.getD 5 0).toNat % 16) = s.cfg.mtEncryptedOther) ∧
        (b.length < 54 ∨ (b.length - 38) % 16 ≠ 0))) →
    exec (.frmDec b) s = .next { s with resp := some ⟨0x04, 0, 0, []⟩ }

/-- R160, R166 to R168, R170, R171, R226: what becomes of a well-formed frame of an encrypted kind, in
the parser's order: no key, bad signature, impossible pad, or accepted with type, counter and body.
Stated for `FRM.DEC` of the frame's bytes and for the frame row, which the model runs as that
`FRM.DEC`: its choice, notes/assumptions/7.md. -/
def Obligations.EncryptedFrameOutcomes : Prop :=
  ∀ (s : State) (pad mt : Nibble) (ct sig hdr pt : Bytes) (i : Instr),
    Frame.wf s.cfg (.encrypted pad mt ct sig) = true →
    hdr = [0x83, 0x70, BitVec.ofNat 8 ((ct.length + 30) / 256),
      BitVec.ofNat 8 ((ct.length + 30) % 256), 0x20, BitVec.ofNat 8 (pad.toNat * 16 + mt.toNat)] →
    pt = cbcDec s.tcpKey.toList ct →
    (i = .frameEncrypted pad mt ct sig ∨ i = .frmDec (hdr ++ ct ++ sig)) →
    (s.keyValid = false → exec i s = .next { s with resp := some ⟨0x08, 0, 0, []⟩ }) ∧
    (s.keyValid = true → sha256 (hdr ++ pt) ≠ sig →
      exec i s = .next { s with
        keyValid := false, tcpKey := Vector.replicate 32 0x00,
        resp := some ⟨0x05, 0, 0, []⟩ }) ∧
    (s.keyValid = true → sha256 (hdr ++ pt) = sig → pt.length < pad.toNat + 2 →
      exec i s = .next { s with resp := some ⟨0x04, 0, 0, []⟩ }) ∧
    (s.keyValid = true → sha256 (hdr ++ pt) = sig → pad.toNat + 2 ≤ pt.length →
      ∃ ctr : Half, ctr.toNat = (pt.getD 0 0).toNat * 256 + (pt.getD 1 0).toNat ∧
        exec i s = .next { s with
          ctrMismatch := decide (ctr ≠ s.rspCnt), rxCtr := ctr,
          rspCnt := BitVec.ofNat 16 ((s.rspCnt.toNat + 1) % 65536),
          resp := some ⟨0x00, BitVec.zeroExtend 16 mt, ctr,
            (pt.take (pt.length - pad.toNat)).drop 2⟩ })

/-- R169, R170, R171: a well-formed frame of a plain kind is accepted without verification, whatever
the key and the pad nibble; the counter is recorded and the whole rest is the body. Stated for
`FRM.DEC` of the frame's bytes and for the frame row, which the model runs as that `FRM.DEC`: its
choice, notes/assumptions/7.md. Bodies above 65527 bytes make a frame that the port cannot carry but
`exec` takes (notes/assumptions/14.md). -/
def Obligations.PlainFramesAreAcceptedUnverified : Prop :=
  ∀ (s : State) (pad mt : Nibble) (c1 c0 : Byte) (body : Bytes) (i : Instr),
    mt ≠ s.cfg.mtEncryptedRequest → mt ≠ s.cfg.mtEncryptedOther → body.length ≤ 65535 →
    (i = .framePlain pad mt (c1 :: c0 :: body) ∨
      i = .frmDec ([0x83, 0x70, BitVec.ofNat 8 (body.length / 256),
        BitVec.ofNat 8 (body.length % 256), 0x20, BitVec.ofNat 8 (pad.toNat * 16 + mt.toNat),
        c1, c0] ++ body)) →
    ∃ ctr : Half, ctr.toNat = c1.toNat * 256 + c0.toNat ∧
      exec i s = .next { s with
        ctrMismatch := decide (ctr ≠ s.rspCnt), rxCtr := ctr,
        rspCnt := BitVec.ofNat 16 ((s.rspCnt.toNat + 1) % 65536),
        resp := some ⟨0x00, BitVec.zeroExtend 16 mt, ctr, body⟩ }

/-- Decoding under the same key what `FRM.ENC` of an encrypted kind produced gives back the type, the
counter and the payload, for every payload and every draw (from R150, R160 and property P1 of R14;
spec's property R172). -/
def Obligations.EncryptedFramesRoundTrip : Prop :=
  ∀ (s t u : State) (mt : Nibble) (p r : Bytes) (q : Response),
    (mt = s.cfg.mtEncryptedRequest ∨ mt = s.cfg.mtEncryptedOther) →
    exec (.frmEnc mt p r) s = .next t → t.resp = some q → q.err = 0x00 →
    u.cfg = s.cfg → u.tcpKey = s.tcpKey → u.keyValid = true →
    exec (.frmDec q.out) u = .next { u with
      ctrMismatch := decide (s.reqCnt ≠ u.rspCnt), rxCtr := s.reqCnt, rspCnt := u.rspCnt + 1,
      resp := some ⟨0x00, BitVec.zeroExtend 16 mt, s.reqCnt, p⟩ }

/-- A plain-kind frame that `FRM.ENC` produced is refused by `FRM.DEC` with `FramingError`, in every
state of every instance, because its stated `size` is 2 short of what the parser demands (from R154
and R163; 90_conflicts.md C1). -/
def Obligations.EncodedPlainFramesAreRefused : Prop :=
  ∀ (s t u : State) (mt : Nibble) (p r : Bytes) (q : Response),
    mt ≠ s.cfg.mtEncryptedRequest → mt ≠ s.cfg.mtEncryptedOther →
    exec (.frmEnc mt p r) s = .next t → t.resp = some q → q.err = 0x00 →
    exec (.frmDec q.out) u = .next { u with resp := some ⟨0x04, 0, 0, []⟩ }

/-- What tampering with an encrypted frame of `FRM.ENC` does at a receiver with the same key (from R161
to R169; spec's property R174, 90_conflicts.md C2). A change in header bytes 0 to 4 is a
`FramingError`. A change in the signature alone is always a `SignatureError` and clears the key. A
change in byte 5 or the ciphertext, under the old signature and with an encrypted type, changes the
string that is hashed, and is a `SignatureError` unless that other string has the same SHA-256 digest:
the model's reading of R174's "always" (notes/assumptions/15.md). A type nibble changed to a plain
code is not detected: the frame is accepted unverified. Byte 5 or the ciphertext changed together
with the signature is no case of this statement. -/
def Obligations.TamperedFrameOutcomes : Prop :=
  ∀ (s t u : State) (mt : Nibble) (p r f' : Bytes) (q : Response),
    (mt = s.cfg.mtEncryptedRequest ∨ mt = s.cfg.mtEncryptedOther) →
    exec (.frmEnc mt p r) s = .next t → t.resp = some q → q.err = 0x00 →
    u.cfg = s.cfg → u.tcpKey = s.tcpKey → u.keyValid = true →
    f'.length = q.out.length → f' ≠ q.out →
    (f'.take 5 ≠ q.out.take 5 →
      exec (.frmDec f') u = .next { u with resp := some ⟨0x04, 0, 0, []⟩ }) ∧
    (f'.take (f'.length - 32) = q.out.take (f'.length - 32) →
      exec (.frmDec f') u = .next { u with
        keyValid := false, tcpKey := Vector.replicate 32 0x00,
        resp := some ⟨0x05, 0, 0, []⟩ }) ∧
    (f'.take 5 = q.out.take 5 →
      encKind u.cfg (BitVec.ofNat 4 ((f'.getD 5 0).toNat % 16)) = true →
      f'.drop (f'.length - 32) = q.out.drop (f'.length - 32) →
      ∀ x y : Bytes,
        x = f'.take 6 ++ cbcDec u.tcpKey.toList ((f'.take (f'.length - 32)).drop 6) →
        y = q.out.take 6 ++ cbcDec u.tcpKey.toList ((q.out.take (q.out.length - 32)).drop 6) →
        x ≠ y ∧
        (sha256 x ≠ sha256 y →
          exec (.frmDec f') u = .next { u with
            keyValid := false, tcpKey := Vector.replicate 32 0x00,
            resp := some ⟨0x05, 0, 0, []⟩ })) ∧
    (f'.take 5 = q.out.take 5 →
      encKind u.cfg (BitVec.ofNat 4 ((f'.getD 5 0).toNat % 16)) = false →
      ∃ v, exec (.frmDec f') u = .next v ∧ v.keyValid = true ∧
        v.resp = some ⟨0x00, BitVec.ofNat 16 ((f'.getD 5 0).toNat % 16),
          BitVec.ofNat 16 ((f'.getD 6 0).toNat * 256 + (f'.getD 7 0).toNat), f'.drop 8⟩)

/-- R231: while `KEY_VALID` = 0 every encrypted-kind `FRM.ENC`, and every frame of an encrypted kind
that passes the structural checks of `FRM.DEC`, fails with `NotAuthenticated` and changes nothing;
plain kinds still work in both directions. -/
def Obligations.NoEncryptedServiceWithoutAKey : Prop :=
  ∀ (s : State), s.keyValid = false →
    (∀ mt p r, encKind s.cfg mt = true →
      exec (.frmEnc mt p r) s = .next { s with resp := some ⟨0x08, 0, 0, []⟩ }) ∧
    (∀ b pad mt ct sig, parseFrame s.cfg b = .ok (.encrypted pad mt ct sig) →
      exec (.frmDec b) s = .next { s with resp := some ⟨0x08, 0, 0, []⟩ }) ∧
    (∀ mt p r, encKind s.cfg mt = false → p.length ≤ 65533 →
      ∃ t out, exec (.frmEnc mt p r) s = .next t ∧ t.resp = some ⟨0x00, 0, 0, out⟩) ∧
    (∀ b pad mt body, parseFrame s.cfg b = .ok (.plain pad mt body) →
      ∃ t v w out, exec (.frmDec b) s = .next t ∧ t.resp = some ⟨0x00, v, w, out⟩)

/-! ## U5: the handshake -/

/-- For any 32-byte pairing key and challenge plaintext, the reply made of 8 bytes, the challenge
encrypted under the pairing key, its digest, and anything after it makes `HS.DERIVE` install the XOR
of plaintext and pairing key, unless the ciphertext begins with "ERROR" (from R181, R186 and
property P1 of R14; spec's property R190). -/
def Obligations.HandshakeInstallsTheXorKey : Prop :=
  ∀ (s : State) (z pk pt rest : Bytes),
    z.length = 8 → pk.length = 32 → pt.length = 32 →
    (cbcEnc pk pt).take 5 ≠ [0x45, 0x52, 0x52, 0x4F, 0x52] →
    ∃ key : Vector Byte 32,
      (∀ (n : Nat) (h : n < 32), key[n] = pt.getD n 0 ^^^ pk.getD n 0) ∧
      exec (.hsDerive (z ++ cbcEnc pk pt ++ sha256 pt ++ rest) pk) s = .next { s with
        keyValid := true, tcpKey := key, resp := some ⟨0x00, 0, 0, []⟩ }

/-- R181, R183, R184, R187: the failures of `HS.DERIVE` in checking order. A pairing key that is not 32
bytes is a `ContractViolation` and changes nothing; a window that begins with "ERROR", a short
window, and a digest mismatch each clear the key and change nothing else. -/
def Obligations.HandshakeFailures : Prop :=
  ∀ (s : State) (y pk w : Bytes), w = (y.drop 8).take 64 →
    (pk.length ≠ 32 →
      exec (.hsDerive y pk) s = .next { s with resp := some ⟨0x02, 0, 0, []⟩ }) ∧
    (pk.length = 32 → w.take 5 = [0x45, 0x52, 0x52, 0x4F, 0x52] →
      exec (.hsDerive y pk) s = .next { s with
        keyValid := false, tcpKey := Vector.replicate 32 0x00,
        resp := some ⟨0x06, 0, 0, []⟩ }) ∧
    (pk.length = 32 → w.take 5 ≠ [0x45, 0x52, 0x52, 0x4F, 0x52] → w.length < 64 →
      exec (.hsDerive y pk) s = .next { s with
        keyValid := false, tcpKey := Vector.replicate 32 0x00,
        resp := some ⟨0x04, 0, 0, []⟩ }) ∧
    (pk.length = 32 → w.take 5 ≠ [0x45, 0x52, 0x52, 0x4F, 0x52] → w.length = 64 →
      sha256 (cbcDec pk (w.take 32)) ≠ w.drop 32 →
      exec (.hsDerive y pk) s = .next { s with
        keyValid := false, tcpKey := Vector.replicate 32 0x00,
        resp := some ⟨0x07, 0, 0, []⟩ })

/-! ## Session control and observers -/

/-- R195: `SES.DROP` clears the key and the connection's counters and flag, keeps `SEQ` and the
command, cannot fail, and is idempotent. -/
def Obligations.SesDropClearsTheSession : Prop :=
  ∀ s : State,
    exec .sesDrop s = .next { s with
      keyValid := false, tcpKey := Vector.replicate 32 0x00, reqCnt := 0x0000, rspCnt := 0x0000,
      rxCtr := 0x0000, ctrMismatch := false, resp := some ⟨0x00, 0, 0, []⟩ } ∧
    ∀ t, exec .sesDrop s = .next t → exec .sesDrop t = .next t

/-- R197: `STAT.RD` returns the 12-byte record of flags and registers and changes nothing. -/
def Obligations.StatRdReturnsTheRegisters : Prop :=
  ∀ s : State, ∃ fl : Byte,
    fl.getLsbD 0 = s.keyValid ∧ fl.getLsbD 1 = s.cmdLoaded ∧ fl.getLsbD 2 = s.cmdFinal ∧
    fl.getLsbD 3 = s.ctrMismatch ∧ fl.toNat < 16 ∧
    exec .statRd s = .next { s with resp := some ⟨0x00, 0, 0,
      [fl, s.seq, BitVec.ofNat 8 (s.reqCnt.toNat / 256), BitVec.ofNat 8 (s.reqCnt.toNat % 256),
        BitVec.ofNat 8 (s.rspCnt.toNat / 256), BitVec.ofNat 8 (s.rspCnt.toNat % 256),
        BitVec.ofNat 8 (s.rxCtr.toNat / 256), BitVec.ofNat 8 (s.rxCtr.toNat % 256),
        BitVec.ofNat 8 (s.cmdLen.val / 256), BitVec.ofNat 8 (s.cmdLen.val % 256),
        BitVec.ofNat 8 (s.cmdKind.toNat / 256), BitVec.ofNat 8 (s.cmdKind.toNat % 256)]⟩ }

/-! ## The primitives and their modes -/

/-- The AES functions the model uses are inverse to each other in both directions, for 128-bit and
256-bit keys and every block (property P1 of R14; that the functions are those of FIPS 197 is
general knowledge, notes/assumptions/2.md). -/
def Obligations.AesDecryptionInvertsEncryption : Prop :=
  ∀ (k : Bytes) (x : AesBlock),
    aes128Dec k (aes128Enc k x) = x ∧ aes128Enc k (aes128Dec k x) = x ∧
    aes256Dec k (aes256Enc k x) = x ∧ aes256Enc k (aes256Dec k x) = x

/-- CBC with a zero vector and ECB keep the length of a string of whole blocks, and their inverses
give it back (from the compositions of R15 and R16, which the spec marks as general knowledge:
notes/assumptions/2.md). -/
def Obligations.ModesInvertOnWholeBlocks : Prop :=
  ∀ (k x : Bytes), x.length % 16 = 0 →
    (cbcEnc k x).length = x.length ∧ cbcDec k (cbcEnc k x) = x ∧ cbcEnc k (cbcDec k x) = x ∧
    (ecbEnc k x).length = x.length ∧ ecbDec k (ecbEnc k x) = x ∧ ecbEnc k (ecbDec k x) = x

/-! ## What a well-formed configuration rules out -/

/-- R57, R113, R254: in a formed instance `SEQ_OFF` of the loaded kind lies below the trailer, and so
does a field that fits the loaded kind; `CMD.SETF` and `CMD.GETF` of it succeed. In a well-formed
instance that is every configured field, so rule R113's last check is never met; that a field applies
to every kind is the model's reading (notes/assumptions/13.md). -/
def Obligations.WellFormedFieldsAreNeverOutOfRange : Prop :=
  ∀ (s : State) (a b : Half) (f : Field) (k : Kind),
    s.Inv → s.cmdLoaded = true → s.cfg.fields.lookup a = some f →
    s.cfg.kinds.lookup s.cmdKind = some k →
    (∀ off, k.seqOff = some off → off < s.cmdLen.val - 2) ∧
    (s.cfg.wf = true ∨ fieldFits f k = true →
      f.o < s.cmdLen.val - 2 ∧
      (∃ t, exec (.cmdSetf a b) s = .next t ∧ t.resp = some ⟨0x00, 0, 0, []⟩) ∧
      ∃ t v, exec (.cmdGetf a) s = .next t ∧ t.resp = some ⟨0x00, v, 0, []⟩ ∧ v.toNat < 2 ^ f.w)

/-- R131, R254, R271: a final command of a kind whose templates are whole blocks, which is every kind
the instance is well-formed for enveloping, is enveloped for every 6-byte device id. -/
def Obligations.EnvelopableKindsAreEnveloped : Prop :=
  ∀ (s : State) (k : Kind) (ks : List Half) (d : Bytes),
    s.Inv → s.cmdLoaded = true → s.cmdFinal = true → d.length = 6 →
    s.cfg.kinds.lookup s.cmdKind = some k →
    (s.cfg.wfFor ks = true ∧ s.cmdKind ∈ ks ∨ k.envelopable = true) →
    ∃ t out, exec (.envBuild d) s = .next t ∧ t.resp = some ⟨0x00, 0, 0, out⟩ ∧
      out.length = s.cmdLen.val + 56
end

