-- ==== Sys2Proof/Laws/Aes.lean ====
section
/-! SUPPORT. The layers of the AES cipher (R14) and what undoes each of them. -/

namespace Sys2Proof.Machine

theorem aesInvSub_aesSub : ∀ b : Byte, aesInvSub (aesSub b) = b := by decide +kernel

theorem aesSub_aesInvSub : ∀ b : Byte, aesSub (aesInvSub b) = b := by decide +kernel

theorem aesXor_left_comm (a b c : Byte) : a ^^^ (b ^^^ c) = b ^^^ (a ^^^ c) := by
  rw [← BitVec.xor_assoc, BitVec.xor_comm a, BitVec.xor_assoc]

/-- Multiplication by x is linear over XOR. -/
theorem aesXtime_xor (a b : Byte) : aesXtime (a ^^^ b) = aesXtime a ^^^ aesXtime b := by
  unfold aesXtime
  rw [BitVec.shiftLeft_xor_distrib, BitVec.msb_xor]
  generalize a <<< 1 = a', b <<< 1 = b'
  cases a.msb <;> cases b.msb <;>
    simp [BitVec.xor_assoc, BitVec.xor_comm, aesXor_left_comm]

theorem aesColXor_cancel (a k : AesCol) : aesColXor (aesColXor a k) k = a := by
  simp [aesColXor]

/-- AddRoundKey undoes itself. -/
@[simp] theorem aesBlockXor_cancel (x k : AesBlock) : aesBlockXor (aesBlockXor x k) k = x := by
  simp [aesBlockXor, aesColXor_cancel]

@[simp] theorem aesBlockMap_invSub_sub (x : AesBlock) :
    aesBlockMap (aesColMap aesInvSub) (aesBlockMap (aesColMap aesSub) x) = x := by
  simp [aesBlockMap, aesColMap, aesInvSub_aesSub]

@[simp] theorem aesBlockMap_sub_invSub (x : AesBlock) :
    aesBlockMap (aesColMap aesSub) (aesBlockMap (aesColMap aesInvSub) x) = x := by
  simp [aesBlockMap, aesColMap, aesSub_aesInvSub]

@[simp] theorem aesInvShiftRows_aesShiftRows (x : AesBlock) :
    aesInvShiftRows (aesShiftRows x) = x := rfl

@[simp] theorem aesShiftRows_aesInvShiftRows (x : AesBlock) :
    aesShiftRows (aesInvShiftRows x) = x := rfl

theorem aesMul3_xor (a b : Byte) : aesMul3 (a ^^^ b) = aesMul3 a ^^^ aesMul3 b := by
  simp [aesMul3, aesXtime_xor, BitVec.xor_assoc, BitVec.xor_comm, aesXor_left_comm]

theorem aesMul9_xor (a b : Byte) : aesMul9 (a ^^^ b) = aesMul9 a ^^^ aesMul9 b := by
  simp [aesMul9, aesXtime_xor, BitVec.xor_assoc, BitVec.xor_comm, aesXor_left_comm]

theorem aesMulB_xor (a b : Byte) : aesMulB (a ^^^ b) = aesMulB a ^^^ aesMulB b := by
  simp [aesMulB, aesXtime_xor, BitVec.xor_assoc, BitVec.xor_comm, aesXor_left_comm]

theorem aesMulD_xor (a b : Byte) : aesMulD (a ^^^ b) = aesMulD a ^^^ aesMulD b := by
  simp [aesMulD, aesXtime_xor, BitVec.xor_assoc, BitVec.xor_comm, aesXor_left_comm]

theorem aesMulE_xor (a b : Byte) : aesMulE (a ^^^ b) = aesMulE a ^^^ aesMulE b := by
  simp [aesMulE, aesXtime_xor, BitVec.xor_assoc, BitVec.xor_comm, aesXor_left_comm]

/-- MixColumns is linear over XOR. -/
theorem aesMixCol_xor (a b : AesCol) :
    aesMixCol (aesColXor a b) = aesColXor (aesMixCol a) (aesMixCol b) := by
  simp [aesMixCol, aesColXor, aesXtime_xor, aesMul3_xor, BitVec.xor_assoc, BitVec.xor_comm,
    aesXor_left_comm]

theorem aesInvMixCol_xor (a b : AesCol) :
    aesInvMixCol (aesColXor a b) = aesColXor (aesInvMixCol a) (aesInvMixCol b) := by
  simp [aesInvMixCol, aesColXor, aesMul9_xor, aesMulB_xor, aesMulD_xor, aesMulE_xor,
    BitVec.xor_assoc, BitVec.xor_comm, aesXor_left_comm]

/-- A column as the sum of its four rows. -/
theorem aesCol_split (c : AesCol) :
    c = aesColXor (aesColXor ⟨c.b0, 0, 0, 0⟩ ⟨0, c.b1, 0, 0⟩)
      (aesColXor ⟨0, 0, c.b2, 0⟩ ⟨0, 0, 0, c.b3⟩) := by
  simp [aesColXor]

/-- A linear map of columns that fixes every one-row column fixes every column. -/
theorem aesCol_fixed {f : AesCol → AesCol} (hf : ∀ a b, f (aesColXor a b) = aesColXor (f a) (f b))
    (h0 : ∀ b, f ⟨b, 0, 0, 0⟩ = ⟨b, 0, 0, 0⟩) (h1 : ∀ b, f ⟨0, b, 0, 0⟩ = ⟨0, b, 0, 0⟩)
    (h2 : ∀ b, f ⟨0, 0, b, 0⟩ = ⟨0, 0, b, 0⟩) (h3 : ∀ b, f ⟨0, 0, 0, b⟩ = ⟨0, 0, 0, b⟩)
    (c : AesCol) : f c = c := by
  conv_lhs => rw [aesCol_split c]
  rw [hf, hf, hf, h0, h1, h2, h3, ← aesCol_split]

@[simp] theorem aesXtime_zero : aesXtime 0#8 = 0#8 := rfl

/-- On a one-row column the two mixing matrices undo each other: multiplied out, every power of x but
one cancels. -/
theorem aesInvMixCol_aesMixCol_row (b : Byte) :
    aesInvMixCol (aesMixCol ⟨b, 0, 0, 0⟩) = ⟨b, 0, 0, 0⟩ ∧
    aesInvMixCol (aesMixCol ⟨0, b, 0, 0⟩) = ⟨0, b, 0, 0⟩ ∧
    aesInvMixCol (aesMixCol ⟨0, 0, b, 0⟩) = ⟨0, 0, b, 0⟩ ∧
    aesInvMixCol (aesMixCol ⟨0, 0, 0, b⟩) = ⟨0, 0, 0, b⟩ := by
  refine ⟨?_, ?_, ?_, ?_⟩ <;>
    simp [aesInvMixCol, aesMixCol, aesMulE, aesMulB, aesMulD, aesMul9, aesMul3, aesXtime_xor,
      BitVec.xor_assoc, BitVec.xor_comm, aesXor_left_comm]

theorem aesMixCol_aesInvMixCol_row (b : Byte) :
    aesMixCol (aesInvMixCol ⟨b, 0, 0, 0⟩) = ⟨b, 0, 0, 0⟩ ∧
    aesMixCol (aesInvMixCol ⟨0, b, 0, 0⟩) = ⟨0, b, 0, 0⟩ ∧
    aesMixCol (aesInvMixCol ⟨0, 0, b, 0⟩) = ⟨0, 0, b, 0⟩ ∧
    aesMixCol (aesInvMixCol ⟨0, 0, 0, b⟩) = ⟨0, 0, 0, b⟩ := by
  refine ⟨?_, ?_, ?_, ?_⟩ <;>
    simp [aesInvMixCol, aesMixCol, aesMulE, aesMulB, aesMulD, aesMul9, aesMul3, aesXtime_xor,
      BitVec.xor_assoc, BitVec.xor_comm, aesXor_left_comm]

/-- InvMixColumns undoes MixColumns: by linearity, one row at a time. -/
theorem aesInvMixCol_aesMixCol (c : AesCol) : aesInvMixCol (aesMixCol c) = c :=
  aesCol_fixed (f := fun c => aesInvMixCol (aesMixCol c))
    (fun a b => by simp only [aesMixCol_xor, aesInvMixCol_xor])
    (fun b => (aesInvMixCol_aesMixCol_row b).1) (fun b => (aesInvMixCol_aesMixCol_row b).2.1)
    (fun b => (aesInvMixCol_aesMixCol_row b).2.2.1) (fun b => (aesInvMixCol_aesMixCol_row b).2.2.2) c

theorem aesMixCol_aesInvMixCol (c : AesCol) : aesMixCol (aesInvMixCol c) = c :=
  aesCol_fixed (f := fun c => aesMixCol (aesInvMixCol c))
    (fun a b => by simp only [aesMixCol_xor, aesInvMixCol_xor])
    (fun b => (aesMixCol_aesInvMixCol_row b).1) (fun b => (aesMixCol_aesInvMixCol_row b).2.1)
    (fun b => (aesMixCol_aesInvMixCol_row b).2.2.1) (fun b => (aesMixCol_aesInvMixCol_row b).2.2.2) c

@[simp] theorem aesBlockMap_invMix_mix (x : AesBlock) :
    aesBlockMap aesInvMixCol (aesBlockMap aesMixCol x) = x := by
  simp [aesBlockMap, aesInvMixCol_aesMixCol]

@[simp] theorem aesBlockMap_mix_invMix (x : AesBlock) :
    aesBlockMap aesMixCol (aesBlockMap aesInvMixCol x) = x := by
  simp [aesBlockMap, aesMixCol_aesInvMixCol]

end Sys2Proof.Machine
end

