-- ==== Sys2Proof/Laws/State.lean ====
section
/-! SUPPORT. One lemma per field per update of State: what each named update leaves in each field. -/

namespace Sys2Proof.Machine

@[simp] theorem succeed_cfg (s : State) (v w : Half) (out : Bytes) :
    (succeed s v w out).cfg = s.cfg := rfl
@[simp] theorem succeed_seq (s : State) (v w : Half) (out : Bytes) :
    (succeed s v w out).seq = s.seq := rfl
@[simp] theorem succeed_reqCnt (s : State) (v w : Half) (out : Bytes) :
    (succeed s v w out).reqCnt = s.reqCnt := rfl
@[simp] theorem succeed_rspCnt (s : State) (v w : Half) (out : Bytes) :
    (succeed s v w out).rspCnt = s.rspCnt := rfl
@[simp] theorem succeed_rxCtr (s : State) (v w : Half) (out : Bytes) :
    (succeed s v w out).rxCtr = s.rxCtr := rfl
@[simp] theorem succeed_tcpKey (s : State) (v w : Half) (out : Bytes) :
    (succeed s v w out).tcpKey = s.tcpKey := rfl
@[simp] theorem succeed_cmdLen (s : State) (v w : Half) (out : Bytes) :
    (succeed s v w out).cmdLen = s.cmdLen := rfl
@[simp] theorem succeed_cmdKind (s : State) (v w : Half) (out : Bytes) :
    (succeed s v w out).cmdKind = s.cmdKind := rfl
@[simp] theorem succeed_keyValid (s : State) (v w : Half) (out : Bytes) :
    (succeed s v w out).keyValid = s.keyValid := rfl
@[simp] theorem succeed_cmdLoaded (s : State) (v w : Half) (out : Bytes) :
    (succeed s v w out).cmdLoaded = s.cmdLoaded := rfl
@[simp] theorem succeed_cmdFinal (s : State) (v w : Half) (out : Bytes) :
    (succeed s v w out).cmdFinal = s.cmdFinal := rfl
@[simp] theorem succeed_ctrMismatch (s : State) (v w : Half) (out : Bytes) :
    (succeed s v w out).ctrMismatch = s.ctrMismatch := rfl
@[simp] theorem succeed_cmd (s : State) (v w : Half) (out : Bytes) :
    (succeed s v w out).cmd = s.cmd := rfl
@[simp] theorem succeed_pending (s : State) (v w : Half) (out : Bytes) :
    (succeed s v w out).pending = s.pending := rfl
@[simp] theorem succeed_resp (s : State) (v w : Half) (out : Bytes) :
    (succeed s v w out).resp = some ⟨0x00, v, w, out⟩ := rfl

@[simp] theorem failWith_cfg (e : Err) (s : State) : (failWith e s).cfg = s.cfg := rfl
@[simp] theorem failWith_seq (e : Err) (s : State) : (failWith e s).seq = s.seq := rfl
@[simp] theorem failWith_reqCnt (e : Err) (s : State) : (failWith e s).reqCnt = s.reqCnt := rfl
@[simp] theorem failWith_rspCnt (e : Err) (s : State) : (failWith e s).rspCnt = s.rspCnt := rfl
@[simp] theorem failWith_rxCtr (e : Err) (s : State) : (failWith e s).rxCtr = s.rxCtr := rfl
@[simp] theorem failWith_tcpKey (e : Err) (s : State) : (failWith e s).tcpKey = s.tcpKey := rfl
@[simp] theorem failWith_cmdLen (e : Err) (s : State) : (failWith e s).cmdLen = s.cmdLen := rfl
@[simp] theorem failWith_cmdKind (e : Err) (s : State) : (failWith e s).cmdKind = s.cmdKind := rfl
@[simp] theorem failWith_keyValid (e : Err) (s : State) :
    (failWith e s).keyValid = s.keyValid := rfl
@[simp] theorem failWith_cmdLoaded (e : Err) (s : State) :
    (failWith e s).cmdLoaded = s.cmdLoaded := rfl
@[simp] theorem failWith_cmdFinal (e : Err) (s : State) :
    (failWith e s).cmdFinal = s.cmdFinal := rfl
@[simp] theorem failWith_ctrMismatch (e : Err) (s : State) :
    (failWith e s).ctrMismatch = s.ctrMismatch := rfl
@[simp] theorem failWith_cmd (e : Err) (s : State) : (failWith e s).cmd = s.cmd := rfl
@[simp] theorem failWith_pending (e : Err) (s : State) : (failWith e s).pending = s.pending := rfl
@[simp] theorem failWith_resp (e : Err) (s : State) :
    (failWith e s).resp = some (errResponse e) := rfl

@[simp] theorem clearKey_cfg (s : State) : (clearKey s).cfg = s.cfg := rfl
@[simp] theorem clearKey_seq (s : State) : (clearKey s).seq = s.seq := rfl
@[simp] theorem clearKey_reqCnt (s : State) : (clearKey s).reqCnt = s.reqCnt := rfl
@[simp] theorem clearKey_rspCnt (s : State) : (clearKey s).rspCnt = s.rspCnt := rfl
@[simp] theorem clearKey_rxCtr (s : State) : (clearKey s).rxCtr = s.rxCtr := rfl
@[simp] theorem clearKey_tcpKey (s : State) : (clearKey s).tcpKey = zeroKey := rfl
@[simp] theorem clearKey_cmdLen (s : State) : (clearKey s).cmdLen = s.cmdLen := rfl
@[simp] theorem clearKey_cmdKind (s : State) : (clearKey s).cmdKind = s.cmdKind := rfl
@[simp] theorem clearKey_keyValid (s : State) : (clearKey s).keyValid = false := rfl
@[simp] theorem clearKey_cmdLoaded (s : State) : (clearKey s).cmdLoaded = s.cmdLoaded := rfl
@[simp] theorem clearKey_cmdFinal (s : State) : (clearKey s).cmdFinal = s.cmdFinal := rfl
@[simp] theorem clearKey_ctrMismatch (s : State) : (clearKey s).ctrMismatch = s.ctrMismatch := rfl
@[simp] theorem clearKey_cmd (s : State) : (clearKey s).cmd = s.cmd := rfl
@[simp] theorem clearKey_pending (s : State) : (clearKey s).pending = s.pending := rfl
@[simp] theorem clearKey_resp (s : State) : (clearKey s).resp = s.resp := rfl

@[simp] theorem installKey_cfg (k : Vector Byte 32) (s : State) :
    (installKey k s).cfg = s.cfg := rfl
@[simp] theorem installKey_seq (k : Vector Byte 32) (s : State) :
    (installKey k s).seq = s.seq := rfl
@[simp] theorem installKey_reqCnt (k : Vector Byte 32) (s : State) :
    (installKey k s).reqCnt = s.reqCnt := rfl
@[simp] theorem installKey_rspCnt (k : Vector Byte 32) (s : State) :
    (installKey k s).rspCnt = s.rspCnt := rfl
@[simp] theorem installKey_rxCtr (k : Vector Byte 32) (s : State) :
    (installKey k s).rxCtr = s.rxCtr := rfl
@[simp] theorem installKey_tcpKey (k : Vector Byte 32) (s : State) :
    (installKey k s).tcpKey = k := rfl
@[simp] theorem installKey_cmdLen (k : Vector Byte 32) (s : State) :
    (installKey k s).cmdLen = s.cmdLen := rfl
@[simp] theorem installKey_cmdKind (k : Vector Byte 32) (s : State) :
    (installKey k s).cmdKind = s.cmdKind := rfl
@[simp] theorem installKey_keyValid (k : Vector Byte 32) (s : State) :
    (installKey k s).keyValid = true := rfl
@[simp] theorem installKey_cmdLoaded (k : Vector Byte 32) (s : State) :
    (installKey k s).cmdLoaded = s.cmdLoaded := rfl
@[simp] theorem installKey_cmdFinal (k : Vector Byte 32) (s : State) :
    (installKey k s).cmdFinal = s.cmdFinal := rfl
@[simp] theorem installKey_ctrMismatch (k : Vector Byte 32) (s : State) :
    (installKey k s).ctrMismatch = s.ctrMismatch := rfl
@[simp] theorem installKey_cmd (k : Vector Byte 32) (s : State) :
    (installKey k s).cmd = s.cmd := rfl
@[simp] theorem installKey_pending (k : Vector Byte 32) (s : State) :
    (installKey k s).pending = s.pending := rfl
@[simp] theorem installKey_resp (k : Vector Byte 32) (s : State) :
    (installKey k s).resp = s.resp := rfl

@[simp] theorem cmdStore_cfg (i : Nat) (v : Byte) (s : State) : (cmdStore i v s).cfg = s.cfg := rfl
@[simp] theorem cmdStore_seq (i : Nat) (v : Byte) (s : State) : (cmdStore i v s).seq = s.seq := rfl
@[simp] theorem cmdStore_reqCnt (i : Nat) (v : Byte) (s : State) :
    (cmdStore i v s).reqCnt = s.reqCnt := rfl
@[simp] theorem cmdStore_rspCnt (i : Nat) (v : Byte) (s : State) :
    (cmdStore i v s).rspCnt = s.rspCnt := rfl
@[simp] theorem cmdStore_rxCtr (i : Nat) (v : Byte) (s : State) :
    (cmdStore i v s).rxCtr = s.rxCtr := rfl
@[simp] theorem cmdStore_tcpKey (i : Nat) (v : Byte) (s : State) :
    (cmdStore i v s).tcpKey = s.tcpKey := rfl
@[simp] theorem cmdStore_cmdLen (i : Nat) (v : Byte) (s : State) :
    (cmdStore i v s).cmdLen = s.cmdLen := rfl
@[simp] theorem cmdStore_cmdKind (i : Nat) (v : Byte) (s : State) :
    (cmdStore i v s).cmdKind = s.cmdKind := rfl
@[simp] theorem cmdStore_keyValid (i : Nat) (v : Byte) (s : State) :
    (cmdStore i v s).keyValid = s.keyValid := rfl
@[simp] theorem cmdStore_cmdLoaded (i : Nat) (v : Byte) (s : State) :
    (cmdStore i v s).cmdLoaded = s.cmdLoaded := rfl
@[simp] theorem cmdStore_cmdFinal (i : Nat) (v : Byte) (s : State) :
    (cmdStore i v s).cmdFinal = s.cmdFinal := rfl
@[simp] theorem cmdStore_ctrMismatch (i : Nat) (v : Byte) (s : State) :
    (cmdStore i v s).ctrMismatch = s.ctrMismatch := rfl
@[simp] theorem cmdStore_cmd (i : Nat) (v : Byte) (s : State) :
    (cmdStore i v s).cmd = memWrite s.cmd i v := rfl
@[simp] theorem cmdStore_pending (i : Nat) (v : Byte) (s : State) :
    (cmdStore i v s).pending = s.pending := rfl
@[simp] theorem cmdStore_resp (i : Nat) (v : Byte) (s : State) :
    (cmdStore i v s).resp = s.resp := rfl

@[simp] theorem loadTemplate_cfg (a : Half) (t : Bytes) (s : State) :
    (loadTemplate a t s).cfg = s.cfg := rfl
@[simp] theorem loadTemplate_seq (a : Half) (t : Bytes) (s : State) :
    (loadTemplate a t s).seq = s.seq := rfl
@[simp] theorem loadTemplate_reqCnt (a : Half) (t : Bytes) (s : State) :
    (loadTemplate a t s).reqCnt = s.reqCnt := rfl
@[simp] theorem loadTemplate_rspCnt (a : Half) (t : Bytes) (s : State) :
    (loadTemplate a t s).rspCnt = s.rspCnt := rfl
@[simp] theorem loadTemplate_rxCtr (a : Half) (t : Bytes) (s : State) :
    (loadTemplate a t s).rxCtr = s.rxCtr := rfl
@[simp] theorem loadTemplate_tcpKey (a : Half) (t : Bytes) (s : State) :
    (loadTemplate a t s).tcpKey = s.tcpKey := rfl
@[simp] theorem loadTemplate_cmdLen (a : Half) (t : Bytes) (s : State) :
    (loadTemplate a t s).cmdLen = Fin.ofNat (cmdMax + 1) t.length := rfl
@[simp] theorem loadTemplate_cmdKind (a : Half) (t : Bytes) (s : State) :
    (loadTemplate a t s).cmdKind = a := rfl
@[simp] theorem loadTemplate_keyValid (a : Half) (t : Bytes) (s : State) :
    (loadTemplate a t s).keyValid = s.keyValid := rfl
@[simp] theorem loadTemplate_cmdLoaded (a : Half) (t : Bytes) (s : State) :
    (loadTemplate a t s).cmdLoaded = true := rfl
@[simp] theorem loadTemplate_cmdFinal (a : Half) (t : Bytes) (s : State) :
    (loadTemplate a t s).cmdFinal = false := rfl
@[simp] theorem loadTemplate_ctrMismatch (a : Half) (t : Bytes) (s : State) :
    (loadTemplate a t s).ctrMismatch = s.ctrMismatch := rfl
@[simp] theorem loadTemplate_cmd (a : Half) (t : Bytes) (s : State) :
    (loadTemplate a t s).cmd = memWriteBytes s.cmd 0 t := rfl
@[simp] theorem loadTemplate_pending (a : Half) (t : Bytes) (s : State) :
    (loadTemplate a t s).pending = s.pending := rfl
@[simp] theorem loadTemplate_resp (a : Half) (t : Bytes) (s : State) :
    (loadTemplate a t s).resp = s.resp := rfl

@[simp] theorem setField_cfg (f : Field) (b : Half) (s : State) :
    (setField f b s).cfg = s.cfg := rfl
@[simp] theorem setField_seq (f : Field) (b : Half) (s : State) :
    (setField f b s).seq = s.seq := rfl
@[simp] theorem setField_reqCnt (f : Field) (b : Half) (s : State) :
    (setField f b s).reqCnt = s.reqCnt := rfl
@[simp] theorem setField_rspCnt (f : Field) (b : Half) (s : State) :
    (setField f b s).rspCnt = s.rspCnt := rfl
@[simp] theorem setField_rxCtr (f : Field) (b : Half) (s : State) :
    (setField f b s).rxCtr = s.rxCtr := rfl
@[simp] theorem setField_tcpKey (f : Field) (b : Half) (s : State) :
    (setField f b s).tcpKey = s.tcpKey := rfl
@[simp] theorem setField_cmdLen (f : Field) (b : Half) (s : State) :
    (setField f b s).cmdLen = s.cmdLen := rfl
@[simp] theorem setField_cmdKind (f : Field) (b : Half) (s : State) :
    (setField f b s).cmdKind = s.cmdKind := rfl
@[simp] theorem setField_keyValid (f : Field) (b : Half) (s : State) :
    (setField f b s).keyValid = s.keyValid := rfl
@[simp] theorem setField_cmdLoaded (f : Field) (b : Half) (s : State) :
    (setField f b s).cmdLoaded = s.cmdLoaded := rfl
@[simp] theorem setField_cmdFinal (f : Field) (b : Half) (s : State) :
    (setField f b s).cmdFinal = false := rfl
@[simp] theorem setField_ctrMismatch (f : Field) (b : Half) (s : State) :
    (setField f b s).ctrMismatch = s.ctrMismatch := rfl
@[simp] theorem setField_cmd (f : Field) (b : Half) (s : State) :
    (setField f b s).cmd = memWrite s.cmd f.o (setFieldBits (cmdByte s f.o) f.s f.w (clampField f.w b)) := rfl
@[simp] theorem setField_pending (f : Field) (b : Half) (s : State) :
    (setField f b s).pending = s.pending := rfl
@[simp] theorem setField_resp (f : Field) (b : Half) (s : State) :
    (setField f b s).resp = s.resp := rfl

@[simp] theorem injectSeq_cfg (off : Nat) (s : State) : (injectSeq off s).cfg = s.cfg := rfl
@[simp] theorem injectSeq_seq (off : Nat) (s : State) : (injectSeq off s).seq = s.seq + 1 := rfl
@[simp] theorem injectSeq_reqCnt (off : Nat) (s : State) :
    (injectSeq off s).reqCnt = s.reqCnt := rfl
@[simp] theorem injectSeq_rspCnt (off : Nat) (s : State) :
    (injectSeq off s).rspCnt = s.rspCnt := rfl
@[simp] theorem injectSeq_rxCtr (off : Nat) (s : State) : (injectSeq off s).rxCtr = s.rxCtr := rfl
@[simp] theorem injectSeq_tcpKey (off : Nat) (s : State) :
    (injectSeq off s).tcpKey = s.tcpKey := rfl
@[simp] theorem injectSeq_cmdLen (off : Nat) (s : State) :
    (injectSeq off s).cmdLen = s.cmdLen := rfl
@[simp] theorem injectSeq_cmdKind (off : Nat) (s : State) :
    (injectSeq off s).cmdKind = s.cmdKind := rfl
@[simp] theorem injectSeq_keyValid (off : Nat) (s : State) :
    (injectSeq off s).keyValid = s.keyValid := rfl
@[simp] theorem injectSeq_cmdLoaded (off : Nat) (s : State) :
    (injectSeq off s).cmdLoaded = s.cmdLoaded := rfl
@[simp] theorem injectSeq_cmdFinal (off : Nat) (s : State) :
    (injectSeq off s).cmdFinal = s.cmdFinal := rfl
@[simp] theorem injectSeq_ctrMismatch (off : Nat) (s : State) :
    (injectSeq off s).ctrMismatch = s.ctrMismatch := rfl
@[simp] theorem injectSeq_cmd (off : Nat) (s : State) :
    (injectSeq off s).cmd = memWrite s.cmd off s.seq := rfl
@[simp] theorem injectSeq_pending (off : Nat) (s : State) :
    (injectSeq off s).pending = s.pending := rfl
@[simp] theorem injectSeq_resp (off : Nat) (s : State) : (injectSeq off s).resp = s.resp := rfl

@[simp] theorem writeCrc_cfg (s : State) : (writeCrc s).cfg = s.cfg := rfl
@[simp] theorem writeCrc_seq (s : State) : (writeCrc s).seq = s.seq := rfl
@[simp] theorem writeCrc_reqCnt (s : State) : (writeCrc s).reqCnt = s.reqCnt := rfl
@[simp] theorem writeCrc_rspCnt (s : State) : (writeCrc s).rspCnt = s.rspCnt := rfl
@[simp] theorem writeCrc_rxCtr (s : State) : (writeCrc s).rxCtr = s.rxCtr := rfl
@[simp] theorem writeCrc_tcpKey (s : State) : (writeCrc s).tcpKey = s.tcpKey := rfl
@[simp] theorem writeCrc_cmdLen (s : State) : (writeCrc s).cmdLen = s.cmdLen := rfl
@[simp] theorem writeCrc_cmdKind (s : State) : (writeCrc s).cmdKind = s.cmdKind := rfl
@[simp] theorem writeCrc_keyValid (s : State) : (writeCrc s).keyValid = s.keyValid := rfl
@[simp] theorem writeCrc_cmdLoaded (s : State) : (writeCrc s).cmdLoaded = s.cmdLoaded := rfl
@[simp] theorem writeCrc_cmdFinal (s : State) : (writeCrc s).cmdFinal = s.cmdFinal := rfl
@[simp] theorem writeCrc_ctrMismatch (s : State) : (writeCrc s).ctrMismatch = s.ctrMismatch := rfl
@[simp] theorem writeCrc_pending (s : State) : (writeCrc s).pending = s.pending := rfl
@[simp] theorem writeCrc_resp (s : State) : (writeCrc s).resp = s.resp := rfl

@[simp] theorem writeTrailer_cfg (s : State) : (writeTrailer s).cfg = s.cfg := rfl
@[simp] theorem writeTrailer_seq (s : State) : (writeTrailer s).seq = s.seq := rfl
@[simp] theorem writeTrailer_reqCnt (s : State) : (writeTrailer s).reqCnt = s.reqCnt := rfl
@[simp] theorem writeTrailer_rspCnt (s : State) : (writeTrailer s).rspCnt = s.rspCnt := rfl
@[simp] theorem writeTrailer_rxCtr (s : State) : (writeTrailer s).rxCtr = s.rxCtr := rfl
@[simp] theorem writeTrailer_tcpKey (s : State) : (writeTrailer s).tcpKey = s.tcpKey := rfl
@[simp] theorem writeTrailer_cmdLen (s : State) : (writeTrailer s).cmdLen = s.cmdLen := rfl
@[simp] theorem writeTrailer_cmdKind (s : State) : (writeTrailer s).cmdKind = s.cmdKind := rfl
@[simp] theorem writeTrailer_keyValid (s : State) : (writeTrailer s).keyValid = s.keyValid := rfl
@[simp] theorem writeTrailer_cmdLoaded (s : State) : (writeTrailer s).cmdLoaded = s.cmdLoaded := rfl
@[simp] theorem writeTrailer_cmdFinal (s : State) : (writeTrailer s).cmdFinal = true := rfl
@[simp] theorem writeTrailer_ctrMismatch (s : State) :
    (writeTrailer s).ctrMismatch = s.ctrMismatch := rfl
@[simp] theorem writeTrailer_pending (s : State) : (writeTrailer s).pending = s.pending := rfl
@[simp] theorem writeTrailer_resp (s : State) : (writeTrailer s).resp = s.resp := rfl

@[simp] theorem dropSession_cfg (s : State) : (dropSession s).cfg = s.cfg := rfl
@[simp] theorem dropSession_seq (s : State) : (dropSession s).seq = s.seq := rfl
@[simp] theorem dropSession_reqCnt (s : State) : (dropSession s).reqCnt = 0 := rfl
@[simp] theorem dropSession_rspCnt (s : State) : (dropSession s).rspCnt = 0 := rfl
@[simp] theorem dropSession_rxCtr (s : State) : (dropSession s).rxCtr = 0 := rfl
@[simp] theorem dropSession_tcpKey (s : State) : (dropSession s).tcpKey = zeroKey := rfl
@[simp] theorem dropSession_cmdLen (s : State) : (dropSession s).cmdLen = s.cmdLen := rfl
@[simp] theorem dropSession_cmdKind (s : State) : (dropSession s).cmdKind = s.cmdKind := rfl
@[simp] theorem dropSession_keyValid (s : State) : (dropSession s).keyValid = false := rfl
@[simp] theorem dropSession_cmdLoaded (s : State) : (dropSession s).cmdLoaded = s.cmdLoaded := rfl
@[simp] theorem dropSession_cmdFinal (s : State) : (dropSession s).cmdFinal = s.cmdFinal := rfl
@[simp] theorem dropSession_ctrMismatch (s : State) : (dropSession s).ctrMismatch = false := rfl
@[simp] theorem dropSession_cmd (s : State) : (dropSession s).cmd = s.cmd := rfl
@[simp] theorem dropSession_pending (s : State) : (dropSession s).pending = s.pending := rfl
@[simp] theorem dropSession_resp (s : State) : (dropSession s).resp = s.resp := rfl

@[simp] theorem acceptFrame_cfg (mt : Nibble) (pt : Bytes) (s : State) :
    (acceptFrame mt pt s).cfg = s.cfg := rfl
@[simp] theorem acceptFrame_seq (mt : Nibble) (pt : Bytes) (s : State) :
    (acceptFrame mt pt s).seq = s.seq := rfl
@[simp] theorem acceptFrame_reqCnt (mt : Nibble) (pt : Bytes) (s : State) :
    (acceptFrame mt pt s).reqCnt = s.reqCnt := rfl
@[simp] theorem acceptFrame_rspCnt (mt : Nibble) (pt : Bytes) (s : State) :
    (acceptFrame mt pt s).rspCnt = s.rspCnt + 1 := rfl
@[simp] theorem acceptFrame_rxCtr (mt : Nibble) (pt : Bytes) (s : State) :
    (acceptFrame mt pt s).rxCtr = be16 pt := rfl
@[simp] theorem acceptFrame_tcpKey (mt : Nibble) (pt : Bytes) (s : State) :
    (acceptFrame mt pt s).tcpKey = s.tcpKey := rfl
@[simp] theorem acceptFrame_cmdLen (mt : Nibble) (pt : Bytes) (s : State) :
    (acceptFrame mt pt s).cmdLen = s.cmdLen := rfl
@[simp] theorem acceptFrame_cmdKind (mt : Nibble) (pt : Bytes) (s : State) :
    (acceptFrame mt pt s).cmdKind = s.cmdKind := rfl
@[simp] theorem acceptFrame_keyValid (mt : Nibble) (pt : Bytes) (s : State) :
    (acceptFrame mt pt s).keyValid = s.keyValid := rfl
@[simp] theorem acceptFrame_cmdLoaded (mt : Nibble) (pt : Bytes) (s : State) :
    (acceptFrame mt pt s).cmdLoaded = s.cmdLoaded := rfl
@[simp] theorem acceptFrame_cmdFinal (mt : Nibble) (pt : Bytes) (s : State) :
    (acceptFrame mt pt s).cmdFinal = s.cmdFinal := rfl
@[simp] theorem acceptFrame_ctrMismatch (mt : Nibble) (pt : Bytes) (s : State) :
    (acceptFrame mt pt s).ctrMismatch = ctrMismatchOf s (be16 pt) := rfl
@[simp] theorem acceptFrame_cmd (mt : Nibble) (pt : Bytes) (s : State) :
    (acceptFrame mt pt s).cmd = s.cmd := rfl
@[simp] theorem acceptFrame_pending (mt : Nibble) (pt : Bytes) (s : State) :
    (acceptFrame mt pt s).pending = s.pending := rfl
@[simp] theorem acceptFrame_resp (mt : Nibble) (pt : Bytes) (s : State) :
    (acceptFrame mt pt s).resp = some ⟨0x00, mt.setWidth 16, be16 pt, pt.drop 2⟩ := rfl

end Sys2Proof.Machine
end

