-- ==== Sys2Proof/Laws/Bytes.lean ====
section
/-! SUPPORT. Lengths of every string the block builds, and the small inverse laws of its byte-order,
nibble and block helpers. -/

namespace Sys2Proof.Machine

@[simp] theorem length_u16be (v : Half) : (u16be v).length = 2 := rfl

@[simp] theorem length_u16le (v : Half) : (u16le v).length = 2 := rfl

@[simp] theorem length_zeroBytes (n : Nat) : (zeroBytes n).length = n := by simp [zeroBytes]

@[simp] theorem length_slice (b : Bytes) (i j : Nat) : (slice b i j).length = min j b.length - i := by
  simp [slice]

@[simp] theorem length_keyBytes (s : State) : (keyBytes s).length = 32 := by simp [keyBytes]

@[simp] theorem length_wordBytesBE (w : Word32) : (wordBytesBE w).length = 4 := rfl

@[simp] theorem length_wordBytesLE (w : Word32) : (wordBytesLE w).length = 4 := by simp [wordBytesLE]

/-- A SHA-256 digest is 32 bytes. -/
@[simp] theorem length_sha256 (x : Bytes) : (sha256 x).length = 32 := by simp [sha256]

/-- An MD5 digest is 16 bytes. -/
@[simp] theorem length_md5 (x : Bytes) : (md5 x).length = 16 := by simp [md5]

@[simp] theorem length_aesBlockBytes (b : AesBlock) : (aesBlockBytes b).length = 16 := rfl

/-- `be16` reads back what `u16be` wrote, whatever follows. -/
@[simp] theorem be16_u16be_append (v : Half) (x : Bytes) : be16 (u16be v ++ x) = v := by
  apply BitVec.eq_of_toNat_eq
  simp only [be16, u16be, List.cons_append, List.nil_append, List.getD_cons_zero,
    List.getD_cons_succ, BitVec.toNat_ofNat]
  have := v.isLt
  omega

/-- The value `be16` reads. -/
theorem toNat_be16 (b : Bytes) : (be16 b).toNat = (b.getD 0 0).toNat * 256 + (b.getD 1 0).toNat := by
  have h0 := (b.getD 0 0).isLt
  have h1 := (b.getD 1 0).isLt
  simp only [be16, BitVec.toNat_ofNat]
  omega

/-- Header byte 5 as a number: the pad nibble high, the type nibble low (R83). -/
theorem toNat_byte5 (pad mt : Nibble) : (byte5 pad mt).toNat = pad.toNat * 16 + mt.toNat := by
  revert pad mt; decide

@[simp] theorem padOf_byte5 (pad mt : Nibble) : padOf (byte5 pad mt) = pad := by
  revert pad mt; decide

@[simp] theorem mtypeOf_byte5 (pad mt : Nibble) : mtypeOf (byte5 pad mt) = mt := by
  revert pad mt; decide

@[simp] theorem byte5_padOf_mtypeOf (b : Byte) : byte5 (padOf b) (mtypeOf b) = b := by
  revert b; decide

/-- The type nibble as a remainder (R86). -/
theorem mtypeOf_eq (b : Byte) : mtypeOf b = BitVec.ofNat 4 (b.toNat % 16) := by
  revert b; decide

@[simp] theorem length_frameHeader (size : Nat) (pad mt : Nibble) :
    (frameHeader size pad mt).length = 6 := rfl

@[simp] theorem length_blocksOf (n : Nat) (x : Bytes) : (blocksOf n x).length = n := by
  induction n generalizing x with
  | zero => rfl
  | succ n ih => simp [blocksOf, ih]

@[simp] theorem length_toBlocks (x : Bytes) : (toBlocks x).length = x.length / 16 := by
  simp [toBlocks]

@[simp] theorem length_ofBlocks (bs : List AesBlock) : (ofBlocks bs).length = 16 * bs.length := by
  induction bs with
  | nil => rfl
  | cons b bs ih => simp only [ofBlocks, List.flatMap_cons, List.length_append] at ih ⊢; simp; omega

/-- A block is determined by its bytes. -/
@[simp] theorem aesBlockOf_aesBlockBytes_append (b : AesBlock) (x : Bytes) :
    aesBlockOf (aesBlockBytes b ++ x) = b := rfl

/-- Sixteen bytes are determined by their block. -/
theorem aesBlockBytes_aesBlockOf (x : Bytes) (h : 16 ≤ x.length) :
    aesBlockBytes (aesBlockOf x) = x.take 16 := by
  match x, h with
  | _ :: _ :: _ :: _ :: _ :: _ :: _ :: _ :: _ :: _ :: _ :: _ :: _ :: _ :: _ :: _ :: _, _ => rfl

@[simp] theorem blocksOf_ofBlocks (bs : List AesBlock) (n : Nat) (h : n = bs.length) :
    blocksOf n (ofBlocks bs) = bs := by
  subst h
  induction bs with
  | nil => rfl
  | cons b bs ih =>
    simp only [List.length_cons, blocksOf, ofBlocks, List.flatMap_cons,
      aesBlockOf_aesBlockBytes_append]
    rw [List.drop_left' (length_aesBlockBytes b)]
    exact congrArg _ ih

@[simp] theorem toBlocks_ofBlocks (bs : List AesBlock) : toBlocks (ofBlocks bs) = bs :=
  blocksOf_ofBlocks bs _ (by simp)

theorem ofBlocks_blocksOf (n : Nat) (x : Bytes) (h : x.length = 16 * n) :
    ofBlocks (blocksOf n x) = x := by
  induction n generalizing x with
  | zero => simp only [Nat.mul_zero, List.length_eq_zero_iff] at h; subst h; rfl
  | succ n ih =>
    have ih' := ih (x.drop 16) (by simp; omega)
    simp only [ofBlocks, blocksOf, List.flatMap_cons] at ih' ⊢
    rw [ih', aesBlockBytes_aesBlockOf x (by omega), List.take_append_drop]

/-- A string of whole blocks is its blocks. -/
theorem ofBlocks_toBlocks (x : Bytes) (h : x.length % 16 = 0) : ofBlocks (toBlocks x) = x :=
  ofBlocks_blocksOf _ x (by omega)

@[simp] theorem length_cbcEncChain (k : Bytes) (p : AesBlock) (xs : List AesBlock) :
    (cbcEncChain k p xs).length = xs.length := by
  induction xs generalizing p with
  | nil => rfl
  | cons x xs ih => simp [cbcEncChain, ih]

@[simp] theorem length_cbcDecChain (k : Bytes) (p : AesBlock) (xs : List AesBlock) :
    (cbcDecChain k p xs).length = xs.length := by
  induction xs generalizing p with
  | nil => rfl
  | cons x xs ih => simp [cbcDecChain, ih]

/-- The length of the CBC encryption: the whole blocks of the string. -/
theorem length_cbcEnc (k x : Bytes) : (cbcEnc k x).length = 16 * (x.length / 16) := by
  simp [cbcEnc]

theorem length_cbcDec (k x : Bytes) : (cbcDec k x).length = 16 * (x.length / 16) := by
  simp [cbcDec]

theorem length_ecbEnc (k x : Bytes) : (ecbEnc k x).length = 16 * (x.length / 16) := by
  simp [ecbEnc]

theorem length_ecbDec (k x : Bytes) : (ecbDec k x).length = 16 * (x.length / 16) := by
  simp [ecbDec]

/-- The cleared key as the spec writes it: 32 bytes of 0x00. -/
theorem zeroKey_eq : zeroKey = Vector.replicate 32 (0x00 : Byte) := by decide

/-- Byte `n` of the key made from a string. -/
theorem getElem_keyOf (x : Bytes) (n : Nat) (h : n < 32) : (keyOf x)[n] = x.getD n 0 := by
  simp [keyOf]

/-- The "ERROR" test on the first five bytes of the window (R184). -/
theorem windowRejects_iff (w : Bytes) :
    windowRejects w = true ↔ w.take 5 = [0x45, 0x52, 0x52, 0x4F, 0x52] := by
  rw [windowRejects, decide_eq_true_eq]
  rfl

/-- The pad count is the one below 16 that completes whole blocks (R153). -/
theorem padLen_eq (n pad : Nat) (hp : pad < 16) (h : (2 + n + pad) % 16 = 0) : padLen n = pad := by
  unfold padLen
  split <;> omega

theorem padLen_lt (n : Nat) : padLen n < 16 := by
  unfold padLen
  split <;> omega

theorem padLen_mod (n : Nat) : (2 + n + padLen n) % 16 = 0 := by
  unfold padLen
  split <;> omega

end Sys2Proof.Machine
end

