-- ==== Sys2Proof/Laws/Memory.lean ====
section
/-! SUPPORT. The laws of the command buffer's memory: read after write, the canonical form is kept,
equal reads mean equal memories, and what a slice holds. -/

namespace Sys2Proof.Machine

@[simp] theorem memRead_nil (a : Nat) : memRead [] a = memBlank := rfl

theorem memRead_cons (k : Nat) (v : Byte) (m : Memory) (a : Nat) :
    memRead ((k, v) :: m) a = if a = k then v else memRead m a := rfl

/-- Below every listed address a memory reads blank. -/
theorem memRead_of_lt_all (m : Memory) (a : Nat)
    (h : m.all (fun c => decide (a < c.1)) = true) : memRead m a = memBlank := by
  induction m with
  | nil => rfl
  | cons c m ih =>
    obtain ⟨k, v⟩ := c
    simp only [List.all_cons, Bool.and_eq_true, decide_eq_true_eq] at h
    rw [memRead_cons, if_neg (by omega), ih h.2]

theorem Memory.wf_cons (k : Nat) (v : Byte) (m : Memory) :
    Memory.wf ((k, v) :: m) = true ↔
      v ≠ memBlank ∧ m.all (fun c => decide (k < c.1)) = true ∧ Memory.wf m = true := by
  simp [Memory.wf, and_assoc]

/-- All entries of a memory lie above a bound: transitivity of the bound. -/
theorem all_lt_of_lt {m : Memory} {a b : Nat} (h : a ≤ b)
    (hm : m.all (fun c => decide (b < c.1)) = true) : m.all (fun c => decide (a < c.1)) = true := by
  rw [List.all_eq_true] at hm ⊢
  intro c hc
  have := hm c hc
  simp only [decide_eq_true_eq] at this ⊢
  omega

/-- Writing at an address above a bound keeps all entries above it. -/
theorem all_lt_memWrite {m : Memory} {a b : Nat} (v : Byte) (h : a < b)
    (hm : m.all (fun c => decide (a < c.1)) = true) :
    (memWrite m b v).all (fun c => decide (a < c.1)) = true := by
  induction m with
  | nil => by_cases hv : v = memBlank <;> simp [memWrite, hv, h]
  | cons c m ih =>
    obtain ⟨k, w⟩ := c
    simp only [List.all_cons, Bool.and_eq_true, decide_eq_true_eq] at hm
    unfold memWrite
    split
    · split <;> simp [hm.1, h, hm.2]
    · split
      · split
        · exact hm.2
        · simp [h, hm.2]
      · simp [hm.1, ih hm.2]

/-- Read after write: the byte written at its address, every other byte unchanged. -/
theorem memRead_memWrite {m : Memory} (hm : Memory.wf m = true) (a b : Nat) (v : Byte) :
    memRead (memWrite m a v) b = if b = a then v else memRead m b := by
  induction m with
  | nil => by_cases hv : v = memBlank <;> by_cases hb : b = a <;> simp [memWrite, hv, hb, memRead]
  | cons c m ih =>
    obtain ⟨k, w⟩ := c
    rw [Memory.wf_cons] at hm
    unfold memWrite
    split
    · next hlt =>
      have hblank : b = a → memRead ((k, w) :: m) b = memBlank := by
        rintro rfl
        exact memRead_of_lt_all _ _ (by simp [hlt, all_lt_of_lt (Nat.le_of_lt hlt) hm.2.1])
      split
      · next hv => by_cases hb : b = a <;> simp [hb, hv, ← hblank]
      · by_cases hb : b = a <;> simp [hb, memRead]
    · split
      · next hk =>
        subst hk
        split
        · next hv =>
          by_cases hb : b = a
          · subst hb; simp [hv, memRead_of_lt_all _ _ hm.2.1]
          · simp [hb, memRead_cons]
        · by_cases hb : b = a <;> simp [hb, memRead_cons]
      · next hk =>
        rw [memRead_cons, ih hm.2.2, memRead_cons]
        by_cases hb : b = a
        · subst hb; simp [hk]
        · simp [hb]

/-- A write keeps the canonical form. -/
theorem Memory.wf_memWrite {m : Memory} (hm : Memory.wf m = true) (a : Nat) (v : Byte) :
    Memory.wf (memWrite m a v) = true := by
  induction m with
  | nil => by_cases hv : v = memBlank <;> simp [memWrite, hv, Memory.wf]
  | cons c m ih =>
    obtain ⟨k, w⟩ := c
    have hm' := hm
    rw [Memory.wf_cons] at hm
    unfold memWrite
    split
    · next hlt =>
      split
      · exact hm'
      · next hv =>
        rw [Memory.wf_cons]
        exact ⟨hv, by simp [hlt, all_lt_of_lt (Nat.le_of_lt hlt) hm.2.1], hm'⟩
    · split
      · next hk =>
        subst hk
        split
        · exact hm.2.2
        · next hv => rw [Memory.wf_cons]; exact ⟨hv, hm.2.1, hm.2.2⟩
      · rw [Memory.wf_cons]
        exact ⟨hm.1, all_lt_memWrite v (by omega) hm.2.1, ih hm.2.2⟩

/-- A write below `n` keeps every entry below `n`. -/
theorem memBelow_memWrite {m : Memory} {n a : Nat} (ha : a < n) (v : Byte)
    (hm : memBelow n m = true) : memBelow n (memWrite m a v) = true := by
  induction m with
  | nil => by_cases hv : v = memBlank <;> simp [memWrite, hv, memBelow, ha]
  | cons c m ih =>
    obtain ⟨k, w⟩ := c
    simp only [memBelow, List.all_cons, Bool.and_eq_true, decide_eq_true_eq] at hm ih ⊢
    unfold memWrite
    split
    · split <;> simp only [List.all_cons, hm, ha, decide_true, Bool.and_self]
    · split
      · split <;> simp only [List.all_cons, hm, ha, decide_true, Bool.and_self]
      · simp only [List.all_cons, hm.1, ih hm.2, decide_true, Bool.and_self]

/-- Two canonical memories that read alike at every address are the same list. -/
theorem Memory.ext {m m' : Memory} (hm : Memory.wf m = true) (hm' : Memory.wf m' = true)
    (h : ∀ a, memRead m a = memRead m' a) : m = m' := by
  induction m generalizing m' with
  | nil =>
    cases m' with
    | nil => rfl
    | cons c m' =>
      obtain ⟨k, v⟩ := c
      rw [Memory.wf_cons] at hm'
      have := h k
      simp [memRead_cons] at this
      exact absurd this.symm hm'.1
  | cons c m ih =>
    obtain ⟨k, v⟩ := c
    have hm0 := hm
    rw [Memory.wf_cons] at hm
    cases m' with
    | nil =>
      have := h k
      simp [memRead_cons] at this
      exact absurd this hm.1
    | cons c' m' =>
      obtain ⟨k', v'⟩ := c'
      have hm0' := hm'
      rw [Memory.wf_cons] at hm'
      have hk : k = k' := by
        rcases Nat.lt_trichotomy k k' with hlt | heq | hlt
        · have h1 := h k
          rw [memRead_cons, if_pos rfl,
            memRead_of_lt_all _ _ (by simp [hlt, all_lt_of_lt (Nat.le_of_lt hlt) hm'.2.1])] at h1
          exact absurd h1 hm.1
        · exact heq
        · have h1 := h k'
          rw [memRead_cons k', if_pos rfl,
            memRead_of_lt_all _ _ (by simp [hlt, all_lt_of_lt (Nat.le_of_lt hlt) hm.2.1])] at h1
          exact absurd h1.symm hm'.1
      subst hk
      have hv : v = v' := by simpa [memRead_cons] using h k
      subst hv
      rw [ih hm.2.2 hm'.2.2]
      intro a
      by_cases ha : a = k
      · subst ha
        rw [memRead_of_lt_all _ _ hm.2.1, memRead_of_lt_all _ _ hm'.2.1]
      · simpa [memRead_cons, ha] using h a

/-- Writing a byte string keeps the canonical form. -/
theorem Memory.wf_memWriteBytes (t : Bytes) (m : Memory) (a : Nat) (hm : Memory.wf m = true) :
    Memory.wf (memWriteBytes m a t) = true := by
  induction t generalizing m a with
  | nil => exact hm
  | cons b t ih => exact ih _ _ (Memory.wf_memWrite hm a b)

/-- Writing a byte string that ends at or below `n` keeps every entry below `n`. -/
theorem memBelow_memWriteBytes (t : Bytes) (m : Memory) (a n : Nat) (h : a + t.length ≤ n)
    (hm : memBelow n m = true) : memBelow n (memWriteBytes m a t) = true := by
  induction t generalizing m a with
  | nil => exact hm
  | cons b t ih =>
    simp only [List.length_cons] at h
    exact ih _ _ (by omega) (memBelow_memWrite (by omega) b hm)

/-- Read after writing a byte string. -/
theorem memRead_memWriteBytes (t : Bytes) (m : Memory) (a b : Nat) (hm : Memory.wf m = true) :
    memRead (memWriteBytes m a t) b =
      if a ≤ b ∧ b < a + t.length then t.getD (b - a) 0 else memRead m b := by
  induction t generalizing m a with
  | nil => simp [memWriteBytes]
  | cons x t ih =>
    rw [memWriteBytes, ih _ _ (Memory.wf_memWrite hm a x), memRead_memWrite hm]
    simp only [List.length_cons]
    by_cases hb : b = a
    · subst hb; simp
    · by_cases h1 : a + 1 ≤ b ∧ b < a + 1 + t.length
      · rw [if_pos h1, if_pos (by omega)]
        obtain ⟨d, hd⟩ : ∃ d, b - a = d + 1 := ⟨b - a - 1, by omega⟩
        rw [hd, show b - (a + 1) = d by omega, List.getD_cons_succ]
      · rw [if_neg h1, if_neg hb, if_neg (by omega)]

@[simp] theorem length_memSlice (m : Memory) (i j : Nat) : (memSlice m i j).length = j - i := by
  simp [memSlice]

/-- Byte `n` of a slice. -/
theorem getElem_memSlice (m : Memory) (i j n : Nat) (h : n < (memSlice m i j).length) :
    (memSlice m i j)[n] = memRead m (i + n) := by
  simp [memSlice]

/-- Two slices are equal when the memories read alike in the range. -/
theorem memSlice_congr {m m' : Memory} {i j : Nat}
    (h : ∀ a, i ≤ a → a < j → memRead m a = memRead m' a) : memSlice m i j = memSlice m' i j := by
  unfold memSlice
  apply List.map_congr_left
  intro a ha
  rw [List.mem_range'_1] at ha
  exact h a ha.1 (by omega)

/-- A slice splits at any point inside it. -/
theorem memSlice_append (m : Memory) {i j k : Nat} (hij : i ≤ j) (hjk : j ≤ k) :
    memSlice m i k = memSlice m i j ++ memSlice m j k := by
  unfold memSlice
  rw [← List.map_append]
  congr 1
  rw [show k - i = (j - i) + (k - j) by omega, ← List.range'_append_1,
    show i + (j - i) = j by omega]

/-- The one-byte slice. -/
theorem memSlice_single (m : Memory) (i : Nat) : memSlice m i (i + 1) = [memRead m i] := by
  simp [memSlice]

end Sys2Proof.Machine
end

