-- ==== Sys2Proof/Laws/Codec.lean ====
section
/-! SUPPORT. The laws of the command codec's shared operations: field bits (R81, R114 to R116), the
trailer (R117, R118), and what they leave in the command buffer. -/

namespace Sys2Proof.Machine

/-- A set field holds the value in its own bits; every other bit of the byte is the old one. -/
theorem getLsbD_setFieldBits (old : Byte) {s w v j : Nat} (hv : v < 2 ^ w)
    (hj : j < 8) :
    (setFieldBits old s w v).getLsbD j =
      if s ≤ j ∧ j < s + w then v.testBit (j - s) else old.getLsbD j := by
  simp only [setFieldBits, fieldMask, BitVec.getLsbD_or, BitVec.getLsbD_and, BitVec.getLsbD_not,
    BitVec.getLsbD_ofNat, Nat.testBit_shiftLeft, Nat.testBit_two_pow_sub_one, hj, decide_true,
    Bool.true_and]
  by_cases h1 : s ≤ j
  · by_cases h2 : j < s + w
    · simp [h1, h2, show j - s < w by omega]
    · have : v.testBit (j - s) = false :=
        Nat.testBit_lt_two_pow (Nat.lt_of_lt_of_le hv (Nat.pow_le_pow_right (by omega) (by omega)))
      simp [h1, h2, this, show ¬ j - s < w by omega]
  · simp [h1]

/-- The clamped value fits the field (R115). -/
theorem clampField_lt (w : Nat) (v : Half) : clampField w v < 2 ^ w := by
  have := Nat.two_pow_pos w
  simp only [clampField, fieldMask]
  omega

/-- A raw field as a quotient and a remainder (R116). -/
theorem getFieldBits_eq (x : Byte) (s w : Nat) : getFieldBits x s w = x.toNat / 2 ^ s % 2 ^ w := by
  simp [getFieldBits, fieldMask, Nat.and_two_pow_sub_one_eq_mod, Nat.shiftRight_eq_div_pow]

/-- Reading a field that was just set gives the value set. -/
theorem getFieldBits_setFieldBits (old : Byte) {s w v : Nat} (hw : s + w ≤ 8) (hv : v < 2 ^ w) :
    getFieldBits (setFieldBits old s w v) s w = v := by
  apply Nat.eq_of_testBit_eq
  intro j
  simp only [getFieldBits, fieldMask, Nat.testBit_and, Nat.testBit_shiftRight,
    Nat.testBit_two_pow_sub_one]
  by_cases hj : j < w
  · have := getLsbD_setFieldBits old (s := s) hv (show s + j < 8 by omega)
    simp only [Nat.le_add_right, Nat.add_lt_add_iff_left, hj, and_self, if_true,
      Nat.add_sub_cancel_left] at this
    simp [hj, BitVec.testBit_toNat, this]
  · have : v.testBit j = false :=
      Nat.testBit_lt_two_pow
        (Nat.lt_of_lt_of_le hv (Nat.pow_le_pow_right (by omega) (show w ≤ j by omega)))
    simp [hj, this]

/-- The loaded command, byte by byte. -/
theorem command_eq (s : State) : command s = (List.range s.cmdLen.val).map (memRead s.cmd) := by
  simp [command, cmdSlice, memSlice, List.range_eq_range']

@[simp] theorem length_command (s : State) : (command s).length = s.cmdLen.val := by
  simp [command_eq]

@[simp] theorem writeTrailer_cmd (s : State) :
    (writeTrailer s).cmd = memWrite (memWrite s.cmd (s.cmdLen.val - 2) (trailerCrc s))
      (s.cmdLen.val - 1) (trailerChecksum (writeCrc s)) := rfl

/-- The buffer after the trailer is written. -/
theorem memRead_writeTrailer {s : State} (hm : Memory.wf s.cmd = true) (i : Nat) :
    memRead (writeTrailer s).cmd i =
      if i = s.cmdLen.val - 1 then trailerChecksum (writeCrc s)
      else if i = s.cmdLen.val - 2 then trailerCrc s
      else memRead s.cmd i := by
  rw [writeTrailer_cmd, memRead_memWrite (Memory.wf_memWrite hm _ _), memRead_memWrite hm]

theorem wf_writeTrailer {s : State} (hm : Memory.wf s.cmd = true) :
    Memory.wf (writeTrailer s).cmd = true :=
  Memory.wf_memWrite (Memory.wf_memWrite hm _ _) _ _

theorem memBelow_writeTrailer {s : State} (h2 : 2 ≤ s.cmdLen.val)
    (hm : memBelow cmdMax s.cmd = true) : memBelow cmdMax (writeTrailer s).cmd = true := by
  have := s.cmdLen.isLt
  exact memBelow_memWrite (by omega) _ (memBelow_memWrite (by omega) _ hm)

/-- A slice that ends at or below the trailer is as before. -/
theorem memSlice_writeTrailer {s : State} (hm : Memory.wf s.cmd = true) {i j : Nat}
    (hj : j ≤ s.cmdLen.val - 2) : memSlice (writeTrailer s).cmd i j = memSlice s.cmd i j :=
  memSlice_congr fun a _ h2 => by
    rw [memRead_writeTrailer hm, if_neg (by omega), if_neg (by omega)]

/-- The bytes the checksum covers, in the buffer that holds the CRC byte (R118 b). -/
theorem memSlice_writeTrailer_sum {s : State} (hm : Memory.wf s.cmd = true) (i : Nat) :
    memSlice (writeTrailer s).cmd i (s.cmdLen.val - 1) =
      cmdSlice (writeCrc s) i (s.cmdLen.val - 1) :=
  memSlice_congr fun a _ h => by
    rw [memRead_writeTrailer hm, if_neg (by omega)]
    exact (memRead_memWrite hm (s.cmdLen.val - 2) a (trailerCrc s)).symm

@[simp] theorem byteSum_append (x y : Bytes) : byteSum (x ++ y) = byteSum x + byteSum y := by
  simp [byteSum]

theorem toNat_trailerChecksum (s : State) : (trailerChecksum s).toNat =
    (256 - byteSum (cmdSlice s 1 (s.cmdLen.val - 1)) % 256) % 256 := by
  simp only [trailerChecksum, BitVec.toNat_ofNat]
  omega

/-- The trailer that `CMD.FIN` writes is current (R118, R120). -/
theorem trailerCurrent_writeTrailer {s : State} (hm : Memory.wf s.cmd = true)
    (h12 : 12 ≤ s.cmdLen.val) : trailerCurrent (writeTrailer s) = true := by
  simp only [trailerCurrent, Bool.and_eq_true, beq_iff_eq]
  constructor
  · rw [cmdByte, memRead_writeTrailer hm, writeTrailer_cmdLen, if_neg (by omega), if_pos rfl,
      cmdSlice, memSlice_writeTrailer hm (Nat.le_refl _)]
    rfl
  · rw [cmdSlice, writeTrailer_cmdLen,
      memSlice_append _ (show 1 ≤ s.cmdLen.val - 1 by omega) (Nat.sub_le _ _), byteSum_append,
      memSlice_writeTrailer_sum hm 1]
    have hs := memSlice_single (writeTrailer s).cmd (s.cmdLen.val - 1)
    rw [show s.cmdLen.val - 1 + 1 = s.cmdLen.val by omega, memRead_writeTrailer hm,
      if_pos rfl] at hs
    rw [hs]
    have ht := toNat_trailerChecksum (writeCrc s)
    rw [writeCrc_cmdLen] at ht
    simp only [byteSum, List.map_cons, List.map_nil, List.sum_cons, List.sum_nil] at ht ⊢
    rw [ht]
    omega

/-- With the trailer current, writing it again writes the bytes that are there. -/
theorem writeTrailer_of_current {s : State} (hm : Memory.wf s.cmd = true)
    (h12 : 12 ≤ s.cmdLen.val) (hc : trailerCurrent s = true) :
    (writeTrailer s).cmd = s.cmd := by
  simp only [trailerCurrent, Bool.and_eq_true, beq_iff_eq] at hc
  have hcrc : memRead s.cmd (s.cmdLen.val - 2) = trailerCrc s := hc.1
  have hwc : (writeCrc s).cmd = s.cmd :=
    Memory.ext (Memory.wf_memWrite hm _ _) hm fun a => by
      rw [writeCrc, cmdStore_cmd, memRead_memWrite hm]
      split
      · next h => rw [h, hcrc]
      · rfl
  refine Memory.ext (wf_writeTrailer hm) hm fun a => ?_
  rw [memRead_writeTrailer hm]
  split
  · next h =>
    have hsum := hc.2
    rw [cmdSlice, memSlice_append _ (show 1 ≤ s.cmdLen.val - 1 by omega) (Nat.sub_le _ _),
      byteSum_append] at hsum
    have hs := memSlice_single s.cmd (s.cmdLen.val - 1)
    rw [show s.cmdLen.val - 1 + 1 = s.cmdLen.val by omega] at hs
    rw [hs] at hsum
    apply BitVec.eq_of_toNat_eq
    rw [h, toNat_trailerChecksum, cmdSlice, hwc, writeCrc_cmdLen]
    have := (memRead s.cmd (s.cmdLen.val - 1)).isLt
    simp only [byteSum, List.map_cons, List.map_nil, List.sum_cons, List.sum_nil] at hsum ⊢
    omega
  · split
    · next h => rw [h, hcrc]
    · rfl

/-- What the trailer changes: the buffer and `CMD_FINAL`. -/
theorem writeTrailer_eq (s : State) :
    writeTrailer s = { s with cmd := (writeTrailer s).cmd, cmdFinal := true } := rfl

/-- A final command with a current trailer is a fixed point of the end of `CMD.FIN` (R121). -/
theorem finishCommand_of_current {s : State} (hm : Memory.wf s.cmd = true)
    (h12 : 12 ≤ s.cmdLen.val) (hc : trailerCurrent s = true) (hf : s.cmdFinal = true) :
    finishCommand s = succeed s 0 0 (command s) := by
  have h : writeTrailer s = s := by
    rw [writeTrailer_eq, writeTrailer_of_current hm h12 hc, ← hf]
  rw [finishCommand, h]

end Sys2Proof.Machine
end

