-- ==== Sys2Proof/Laws/Config.lean ====
section
/-! SUPPORT. What a formed or well-formed configuration gives about the rows its look-ups return. -/

namespace Sys2Proof.Machine

/-- A row found by key is a row of the list. -/
theorem mem_of_lookup {α : Type} {m : List (Half × α)} {k : Half} {v : α}
    (h : m.lookup k = some v) : (k, v) ∈ m := by
  induction m with
  | nil => simp at h
  | cons e m ih =>
    obtain ⟨k', v'⟩ := e
    rw [List.lookup_cons] at h
    by_cases hk : k = k'
    · subst hk; simp_all
    · have : (k == k') = false := by simpa using hk
      rw [this] at h
      exact List.mem_cons_of_mem _ (ih h)

theorem kind_wf {c : Cfg} (hc : c.formed = true) {a : Half} {k : Kind}
    (h : c.kinds.lookup a = some k) : k.wf = true := by
  simp only [Cfg.formed, Bool.and_eq_true, List.all_eq_true] at hc
  exact hc.1.1.1.1.2 _ (mem_of_lookup h)

theorem field_wf {c : Cfg} (hc : c.formed = true) {a : Half} {f : Field}
    (h : c.fields.lookup a = some f) : 1 ≤ f.w ∧ f.s + f.w ≤ 8 := by
  simp only [Cfg.formed, Bool.and_eq_true, List.all_eq_true] at hc
  have := hc.1.1.2 _ (mem_of_lookup h)
  simpa [Field.wf] using this

/-- Every template of a well-formed kind has 12 ≤ L ≤ `CMD_MAX` and its sequence byte below L-2. -/
theorem template_wf {k : Kind} (hk : k.wf = true) {e : Half × Bytes} (he : e ∈ k.templates) :
    12 ≤ e.2.length ∧ e.2.length ≤ cmdMax ∧ ∀ off, k.seqOff = some off → off < e.2.length - 2 := by
  simp only [Kind.wf, Bool.and_eq_true, List.all_eq_true] at hk
  have := hk.2 e he
  simp only [templateWf, Bool.and_eq_true, decide_eq_true_eq] at this
  refine ⟨this.1.1, this.1.2, fun off ho => ?_⟩
  have h2 := this.2
  rw [ho] at h2
  simpa using h2

/-- A well-formed configuration is formed. -/
theorem formed_of_wf {c : Cfg} (hc : c.wf = true) : c.formed = true := by
  simp only [Cfg.wf, Bool.and_eq_true] at hc
  exact hc.1

/-- In a well-formed configuration every field fits every kind (R57). -/
theorem fieldFits_of_wf {c : Cfg} (hc : c.wf = true) {a b : Half} {f : Field} {k : Kind}
    (hf : c.fields.lookup a = some f) (hk : c.kinds.lookup b = some k) : fieldFits f k = true := by
  simp only [Cfg.wf, Bool.and_eq_true, List.all_eq_true] at hc
  exact hc.2 _ (mem_of_lookup hf) _ (mem_of_lookup hk)

/-- A kind that an instance is to envelope has templates of whole blocks (R254, R271). -/
theorem envelopable_of_wfFor {c : Cfg} {ks : List Half} (hc : c.wfFor ks = true) {a : Half} {k : Kind}
    (ha : a ∈ ks) (hk : kindOf c a = some k) : k.envelopable = true := by
  simp only [Cfg.wfFor, Bool.and_eq_true, List.all_eq_true] at hc
  simpa [hk] using hc.2 a ha

theorem encKind_iff (c : Cfg) (mt : Nibble) :
    encKind c mt = true ↔ mt = c.mtEncryptedRequest ∨ mt = c.mtEncryptedOther := by
  simp [encKind]

theorem encKind_false_iff (c : Cfg) (mt : Nibble) :
    encKind c mt = false ↔ mt ≠ c.mtEncryptedRequest ∧ mt ≠ c.mtEncryptedOther := by
  simp [encKind]

/-- The handshake type of a formed configuration is a plain kind (R254). -/
theorem handshake_plain {c : Cfg} (hc : c.formed = true) : encKind c c.mtHandshakeRequest = false := by
  simp only [Cfg.formed, Bool.and_eq_true] at hc
  simpa using hc.2

end Sys2Proof.Machine
end

