-- ==== Sys2Proof/Laws/Exec.lean ====
section
/-! SUPPORT. One inversion lemma per meaning and shared operation: if it answers a next state, one of
these cases holds. Later proofs cite these instead of unfolding the meanings. -/

namespace Sys2Proof.Machine

theorem execCmdLoad_next {a b : Half} {s t : State} (h : execCmdLoad a b s = .next t) :
    (kindOf s.cfg a = none ∧ t = failWith .contractViolation s) ∨
    (∃ k, kindOf s.cfg a = some k ∧ templateOf k b = none ∧ t = failWith .unsupportedDevice s) ∨
    (∃ k x, kindOf s.cfg a = some k ∧ templateOf k b = some x ∧ x.length ≤ cmdMax ∧
      t = succeed (loadTemplate a x s) 0 0 []) := by
  unfold execCmdLoad at h
  split at h
  · next hk => exact .inl ⟨hk, by injection h with h; exact h.symm⟩
  · next k hk =>
    split at h
    · next ht => exact .inr (.inl ⟨k, hk, ht, by injection h with h; exact h.symm⟩)
    · next x hx =>
      split at h
      · next hl => exact .inr (.inr ⟨k, x, hk, hx, hl, by injection h with h; exact h.symm⟩)
      · cases h

/-- `LOOKUP` succeeds exactly under the three conditions of rule R113. -/
theorem fieldLookup_some {s : State} {a : Half} {f : Field} :
    fieldLookup s a = some f ↔
      s.cmdLoaded = true ∧ fieldOf s.cfg a = some f ∧ f.o < s.cmdLen.val - 2 := by
  unfold fieldLookup
  cases hl : s.cmdLoaded <;> simp
  cases hf : fieldOf s.cfg a with
  | none => simp
  | some g =>
    by_cases ho : g.o < s.cmdLen.val - 2
    · simp only [ho, if_true, Option.some.injEq]
      constructor
      · rintro rfl; exact ⟨rfl, ho⟩
      · exact fun h => h.1
    · simp only [ho, if_false, Option.some.injEq, reduceCtorEq, false_iff]
      rintro ⟨rfl, h2⟩; exact ho h2

theorem execCmdSetf_next {a b : Half} {s t : State} (h : execCmdSetf a b s = .next t) :
    (fieldLookup s a = none ∧ t = failWith .contractViolation s) ∨
    (∃ f, fieldLookup s a = some f ∧ f.s + f.w ≤ 8 ∧ t = succeed (setField f b s) 0 0 []) := by
  unfold execCmdSetf at h
  split at h
  · next hf => exact .inl ⟨hf, by injection h with h; exact h.symm⟩
  · next f hf =>
    split at h
    · next hw => exact .inr ⟨f, hf, hw, by injection h with h; exact h.symm⟩
    · cases h

theorem execCmdGetf_next {a : Half} {s t : State} (h : execCmdGetf a s = .next t) :
    (fieldLookup s a = none ∧ t = failWith .contractViolation s) ∨
    (∃ f, fieldLookup s a = some f ∧
      t = succeed s (BitVec.ofNat 16 (getFieldBits (cmdByte s f.o) f.s f.w)) 0 []) := by
  unfold execCmdGetf at h
  split at h
  · next hf => exact .inl ⟨hf, by injection h with h; exact h.symm⟩
  · next f hf => exact .inr ⟨f, hf, by injection h with h; exact h.symm⟩

theorem execCmdFin_next {s t : State} (h : execCmdFin s = .next t) :
    (s.cmdLoaded = false ∧ t = failWith .contractViolation s) ∨
    (∃ k, s.cmdLoaded = true ∧ kindOf s.cfg s.cmdKind = some k ∧ 2 ≤ s.cmdLen.val ∧
      ((k.seqOff = none ∧ t = finishCommand s) ∨
       (∃ off, k.seqOff = some off ∧ off < cmdMax ∧ t = finishCommand (injectSeq off s)))) := by
  unfold execCmdFin at h
  split at h
  · next hl =>
    split at h
    · cases h
    · next k hk =>
      split at h
      · cases h
      · next h2 =>
        refine .inr ⟨k, hl, hk, by omega, ?_⟩
        split at h
        · next hs => exact .inl ⟨hs, by injection h with h; exact h.symm⟩
        · next off hs =>
          split at h
          · next ho => exact .inr ⟨off, hs, ho, by injection h with h; exact h.symm⟩
          · cases h
  · next hl =>
    exact .inl ⟨by simpa using hl, by injection h with h; exact h.symm⟩

/-- `CMD.FIN` on a loaded non-sequenced command. -/
theorem execCmdFin_plain {s : State} {k : Kind} (hl : s.cmdLoaded = true)
    (hk : kindOf s.cfg s.cmdKind = some k) (h2 : 2 ≤ s.cmdLen.val) (hs : k.seqOff = none) :
    execCmdFin s = .next (finishCommand s) := by
  simp [execCmdFin, hl, hk, hs, show ¬ s.cmdLen.val < 2 by omega]

/-- `CMD.FIN` on a loaded sequenced command. -/
theorem execCmdFin_sequenced {s : State} {k : Kind} {off : Nat} (hl : s.cmdLoaded = true)
    (hk : kindOf s.cfg s.cmdKind = some k) (h2 : 2 ≤ s.cmdLen.val) (hs : k.seqOff = some off)
    (ho : off < cmdMax) : execCmdFin s = .next (finishCommand (injectSeq off s)) := by
  simp [execCmdFin, hl, hk, hs, ho, show ¬ s.cmdLen.val < 2 by omega]

theorem execCmdRd_next {s t : State} (h : execCmdRd s = .next t) :
    (s.cmdLoaded = false ∧ t = failWith .contractViolation s) ∨
    (s.cmdLoaded = true ∧ t = succeed s 0 0 (command s)) := by
  unfold execCmdRd at h
  split at h
  · next hl => exact .inr ⟨hl, by injection h with h; exact h.symm⟩
  · next hl => exact .inl ⟨by simpa using hl, by injection h with h; exact h.symm⟩

theorem execEnvBuild_next {d : Bytes} {s t : State} (h : execEnvBuild d s = .next t) :
    (envelopeReady d s = false ∧ t = failWith .contractViolation s) ∨
    (envelopeReady d s = true ∧ t = succeed s 0 0 (envelope s.cfg d (command s))) := by
  unfold execEnvBuild at h
  injection h with h
  split at h
  · next hr => exact .inr ⟨hr, h.symm⟩
  · next hr => exact .inl ⟨by simpa using hr, h.symm⟩

theorem execEnvDec_next {x : Bytes} {s t : State} (h : execEnvDec x s = .next t) :
    (x.length % 16 ≠ 0 ∧ t = failWith .contractViolation s) ∨
    (x.length % 16 = 0 ∧ t = succeed s 0 0 (ecbDec (envelopeKey s.cfg) x)) := by
  unfold execEnvDec at h
  injection h with h
  split at h
  · next hr => exact .inr ⟨hr, h.symm⟩
  · next hr => exact .inl ⟨hr, h.symm⟩

/-- Everything `FRM.ENC` can do. -/
theorem encodeFrame_cases (mt : Nibble) (p r : Bytes) (s : State) :
    (encKind s.cfg mt = true ∧ s.keyValid = false ∧
      encodeFrame mt p r s = failWith .notAuthenticated s) ∨
    ((encKind s.cfg mt = true → s.keyValid = true) ∧
      (65535 < frameSize s.cfg mt p ∨ r.length < framePad s.cfg mt p) ∧
      encodeFrame mt p r s = failWith .contractViolation s) ∨
    ((encKind s.cfg mt = true → s.keyValid = true) ∧
      frameSize s.cfg mt p ≤ 65535 ∧ framePad s.cfg mt p ≤ r.length ∧
      encodeFrame mt p r s =
        succeed { s with reqCnt := s.reqCnt + 1 } 0 0 (encodedFrame s mt p r)) := by
  unfold encodeFrame
  split
  · next h =>
    simp only [Bool.and_eq_true, Bool.not_eq_true'] at h
    exact .inl ⟨h.1, h.2, rfl⟩
  · next h =>
    simp only [Bool.and_eq_true, Bool.not_eq_true', not_and, Bool.not_eq_false] at h
    split
    · next hs => exact .inr (.inl ⟨h, .inl hs, rfl⟩)
    · next hs =>
      split
      · next hr => exact .inr (.inl ⟨h, .inr hr, rfl⟩)
      · next hr => exact .inr (.inr ⟨h, by omega, by omega, rfl⟩)

/-- Everything the parser can do with an encrypted kind. -/
theorem receiveEncrypted_cases (hdr : Bytes) (pad mt : Nibble) (ct sig : Bytes) (s : State) :
    (s.keyValid = false ∧ receiveEncrypted hdr pad mt ct sig s = failWith .notAuthenticated s) ∨
    (s.keyValid = true ∧ sha256 (hdr ++ cbcDec (keyBytes s) ct) ≠ sig ∧
      receiveEncrypted hdr pad mt ct sig s = failWith .signatureError (clearKey s)) ∨
    (s.keyValid = true ∧ sha256 (hdr ++ cbcDec (keyBytes s) ct) = sig ∧
      (cbcDec (keyBytes s) ct).length < pad.toNat + 2 ∧
      receiveEncrypted hdr pad mt ct sig s = failWith .framingError s) ∨
    (s.keyValid = true ∧ sha256 (hdr ++ cbcDec (keyBytes s) ct) = sig ∧
      pad.toNat + 2 ≤ (cbcDec (keyBytes s) ct).length ∧
      receiveEncrypted hdr pad mt ct sig s =
        acceptFrame mt
          ((cbcDec (keyBytes s) ct).take ((cbcDec (keyBytes s) ct).length - pad.toNat)) s) := by
  unfold receiveEncrypted
  split
  · next hk =>
    split
    · next hs =>
      split
      · next hp => exact .inr (.inr (.inl ⟨hk, hs, hp, rfl⟩))
      · next hp => exact .inr (.inr (.inr ⟨hk, hs, by omega, rfl⟩))
    · next hs => exact .inr (.inl ⟨hk, hs, rfl⟩)
  · next hk => exact .inl ⟨by simpa using hk, rfl⟩

/-- Everything `FRM.DEC` can do. -/
theorem receiveFrame_cases (b : Bytes) (s : State) :
    (∃ e, parseFrame s.cfg b = .error e ∧ receiveFrame b s = failWith .framingError s) ∨
    (∃ pad mt ct sig, parseFrame s.cfg b = .ok (.encrypted pad mt ct sig) ∧
      receiveFrame b s = receiveEncrypted (b.take 6) pad mt ct sig s) ∨
    (∃ pad mt body, parseFrame s.cfg b = .ok (.plain pad mt body) ∧
      receiveFrame b s = acceptFrame mt body s) := by
  unfold receiveFrame
  split
  · next e h => exact .inl ⟨e, h, rfl⟩
  · next pad mt ct sig h => exact .inr (.inl ⟨pad, mt, ct, sig, h, rfl⟩)
  · next pad mt body h => exact .inr (.inr ⟨pad, mt, body, h, rfl⟩)

/-- The shapes of a state after the frame parser. -/
theorem receiveFrame_shape (b : Bytes) (s : State) :
    receiveFrame b s = failWith .framingError s ∨
    (s.keyValid = false ∧ receiveFrame b s = failWith .notAuthenticated s) ∨
    (s.keyValid = true ∧ receiveFrame b s = failWith .signatureError (clearKey s)) ∨
    (∃ mt pt, receiveFrame b s = acceptFrame mt pt s) := by
  rcases receiveFrame_cases b s with ⟨_, _, h⟩ | ⟨pad, mt, ct, sig, _, h⟩ | ⟨_, mt, body, _, h⟩
  · exact .inl h
  · rw [h]
    rcases receiveEncrypted_cases (b.take 6) pad mt ct sig s with
      ⟨hk, h⟩ | ⟨hk, _, h⟩ | ⟨_, _, _, h⟩ | ⟨_, _, _, h⟩
    · exact .inr (.inl ⟨hk, h⟩)
    · exact .inr (.inr (.inl ⟨hk, h⟩))
    · exact .inl h
    · exact .inr (.inr (.inr ⟨_, _, h⟩))
  · exact .inr (.inr (.inr ⟨_, _, h⟩))

/-- Everything `HS.DERIVE` can do with a 32-byte pairing key. -/
theorem deriveFromWindow_cases (w pk : Bytes) (s : State) :
    (windowRejects w = true ∧
      deriveFromWindow w pk s = failWith .handshakeRejected (clearKey s)) ∨
    (windowRejects w = false ∧ w.length < 64 ∧
      deriveFromWindow w pk s = failWith .framingError (clearKey s)) ∨
    (windowRejects w = false ∧ 64 ≤ w.length ∧ sha256 (hsPlain pk w) ≠ slice w 32 64 ∧
      deriveFromWindow w pk s = failWith .handshakeSignatureError (clearKey s)) ∨
    (windowRejects w = false ∧ 64 ≤ w.length ∧ sha256 (hsPlain pk w) = slice w 32 64 ∧
      deriveFromWindow w pk s =
        succeed (installKey (keyOf (xorBytes (hsPlain pk w) pk)) s) 0 0 []) := by
  unfold deriveFromWindow
  split
  · next h => exact .inl ⟨h, rfl⟩
  · next h =>
    have h' : windowRejects w = false := by simpa using h
    split
    · next hl => exact .inr (.inl ⟨h', hl, rfl⟩)
    · next hl =>
      split
      · next hs => exact .inr (.inr (.inr ⟨h', by omega, hs, rfl⟩))
      · next hs => exact .inr (.inr (.inl ⟨h', by omega, hs, rfl⟩))

theorem execHsDerive_next {y pk : Bytes} {s t : State} (h : execHsDerive y pk s = .next t) :
    (pk.length ≠ 32 ∧ t = failWith .contractViolation s) ∨
    (pk.length = 32 ∧ t = deriveFromWindow (hsWindow y) pk s) := by
  unfold execHsDerive at h
  injection h with h
  split at h
  · next hl => exact .inr ⟨hl, h.symm⟩
  · next hl => exact .inl ⟨hl, h.symm⟩

/-- The instruction hands a frame to the parser: `FRM.DEC` or a frame row. -/
def handsFrame (i : Instr) : Prop := (∃ b, i = .frmDec b) ∨ i.isRequest = false

/-- The shapes of the state after an instruction: every next state is one of these. -/
inductive ExecShape (i : Instr) (s : State) : State → Prop where
  /-- A success that writes no state. -/
  | read (v w : Half) (out : Bytes)
      (hi : (∃ x, i = .crc8 x) ∨ (∃ a, i = .cmdGetf a) ∨ i = .cmdRd ∨ (∃ d, i = .envBuild d) ∨
        (∃ x, i = .envDec x) ∨ i = .statRd) : ExecShape i s (succeed s v w out)
  /-- A failure that changes no state. -/
  | fail (e : Err) : ExecShape i s (failWith e s)
  /-- `CMD.LOAD`. -/
  | load (a b : Half) (k : Kind) (x : Bytes) (hi : i = .cmdLoad a b)
      (hk : kindOf s.cfg a = some k) (hx : templateOf k b = some x) (hl : x.length ≤ cmdMax) :
      ExecShape i s (succeed (loadTemplate a x s) 0 0 [])
  /-- `CMD.SETF`. -/
  | setf (a b : Half) (f : Field) (hi : i = .cmdSetf a b) (hf : fieldLookup s a = some f)
      (hw : f.s + f.w ≤ 8) : ExecShape i s (succeed (setField f b s) 0 0 [])
  /-- `CMD.FIN` of a non-sequenced kind. -/
  | finPlain (k : Kind) (hi : i = .cmdFin) (hl : s.cmdLoaded = true)
      (hk : kindOf s.cfg s.cmdKind = some k) (h2 : 2 ≤ s.cmdLen.val) (hs : k.seqOff = none) :
      ExecShape i s (finishCommand s)
  /-- `CMD.FIN` of a sequenced kind. -/
  | finSequenced (k : Kind) (off : Nat) (hi : i = .cmdFin) (hl : s.cmdLoaded = true)
      (hk : kindOf s.cfg s.cmdKind = some k) (h2 : 2 ≤ s.cmdLen.val) (hs : k.seqOff = some off)
      (ho : off < cmdMax) : ExecShape i s (finishCommand (injectSeq off s))
  /-- `FRM.ENC`. -/
  | encode (mt : Nibble) (p r : Bytes) (hi : i = .frmEnc mt p r) :
      ExecShape i s (succeed { s with reqCnt := s.reqCnt + 1 } 0 0 (encodedFrame s mt p r))
  /-- A frame accepted. -/
  | accept (mt : Nibble) (pt : Bytes) (hi : handsFrame i) : ExecShape i s (acceptFrame mt pt s)
  /-- A frame with a bad signature. -/
  | badSignature (hi : handsFrame i) (hk : s.keyValid = true) :
      ExecShape i s (failWith .signatureError (clearKey s))
  /-- A handshake that failed. -/
  | noHandshake (y pk : Bytes) (e : Err) (hi : i = .hsDerive y pk)
      (he : e = .handshakeRejected ∨ e = .framingError ∨ e = .handshakeSignatureError) :
      ExecShape i s (failWith e (clearKey s))
  /-- A handshake that installed a key. -/
  | handshake (y pk : Bytes) (k : Vector Byte 32) (hi : i = .hsDerive y pk) :
      ExecShape i s (succeed (installKey k s) 0 0 [])
  /-- `SES.DROP`. -/
  | drop (hi : i = .sesDrop) : ExecShape i s (succeed (dropSession s) 0 0 [])

theorem receiveFrame_execShape (b : Bytes) {i : Instr} {s t : State} (hi : handsFrame i)
    (h : receiveFrame b s = t) : ExecShape i s t := by
  subst h
  rcases receiveFrame_shape b s with h | ⟨_, h⟩ | ⟨hk, h⟩ | ⟨mt, pt, h⟩ <;> rw [h]
  · exact .fail _
  · exact .fail _
  · exact .badSignature hi hk
  · exact .accept mt pt hi

/-- Everything one instruction can do. -/
theorem exec_shape {i : Instr} {s t : State} (h : exec i s = .next t) : ExecShape i s t := by
  cases i with
  | crc8 x => injection h with h; subst h; exact .read _ _ _ (.inl ⟨x, rfl⟩)
  | cmdLoad a b =>
    rcases execCmdLoad_next h with ⟨_, rfl⟩ | ⟨_, _, _, rfl⟩ | ⟨k, x, hk, hx, hl, rfl⟩
    · exact .fail _
    · exact .fail _
    · exact .load a b k x rfl hk hx hl
  | cmdSetf a b =>
    rcases execCmdSetf_next h with ⟨_, rfl⟩ | ⟨f, hf, hw, rfl⟩
    · exact .fail _
    · exact .setf a b f rfl hf hw
  | cmdGetf a =>
    rcases execCmdGetf_next h with ⟨_, rfl⟩ | ⟨f, hf, rfl⟩
    · exact .fail _
    · exact .read _ _ _ (.inr (.inl ⟨a, rfl⟩))
  | cmdFin =>
    rcases execCmdFin_next h with ⟨_, rfl⟩ | ⟨k, hl, hk, h2, ⟨hs, rfl⟩ | ⟨off, hs, ho, rfl⟩⟩
    · exact .fail _
    · exact .finPlain k rfl hl hk h2 hs
    · exact .finSequenced k off rfl hl hk h2 hs ho
  | cmdRd =>
    rcases execCmdRd_next h with ⟨_, rfl⟩ | ⟨_, rfl⟩
    · exact .fail _
    · exact .read _ _ _ (.inr (.inr (.inl rfl)))
  | envBuild d =>
    rcases execEnvBuild_next h with ⟨_, rfl⟩ | ⟨_, rfl⟩
    · exact .fail _
    · exact .read _ _ _ (.inr (.inr (.inr (.inl ⟨d, rfl⟩))))
  | envDec x =>
    rcases execEnvDec_next h with ⟨_, rfl⟩ | ⟨_, rfl⟩
    · exact .fail _
    · exact .read _ _ _ (.inr (.inr (.inr (.inr (.inl ⟨x, rfl⟩)))))
  | frmEnc mt p r =>
    injection h with h
    rcases encodeFrame_cases mt p r s with ⟨_, _, h'⟩ | ⟨_, _, h'⟩ | ⟨_, _, _, h'⟩ <;>
      rw [h'] at h <;> subst h
    · exact .fail _
    · exact .fail _
    · exact .encode mt p r rfl
  | frmDec b => injection h with h; exact receiveFrame_execShape b (.inl ⟨b, rfl⟩) h
  | hsDerive y pk =>
    rcases execHsDerive_next h with ⟨_, rfl⟩ | ⟨_, rfl⟩
    · exact .fail _
    · rcases deriveFromWindow_cases (hsWindow y) pk s with
        ⟨_, h'⟩ | ⟨_, _, h'⟩ | ⟨_, _, _, h'⟩ | ⟨_, _, _, h'⟩ <;> rw [h']
      · exact .noHandshake y pk _ rfl (.inl rfl)
      · exact .noHandshake y pk _ rfl (.inr (.inl rfl))
      · exact .noHandshake y pk _ rfl (.inr (.inr rfl))
      · exact .handshake y pk _ rfl
  | sesDrop => injection h with h; subst h; exact .drop rfl
  | statRd => injection h with h; subst h; exact .read _ _ _ (.inr (.inr (.inr (.inr (.inr rfl)))))
  | illegal op => injection h with h; subst h; exact .fail _
  | frameEncrypted pad mt ct sig =>
    injection h with h; exact receiveFrame_execShape _ (.inr rfl) h
  | framePlain pad mt body => injection h with h; exact receiveFrame_execShape _ (.inr rfl) h

/-- Everything one step can do. -/
theorem step_cases (s : State) :
    (s.pending = [] ∧ step s = .next s) ∨
    (∃ rest, s.pending = .reset :: rest ∧
      step s = .next { State.resetWith s.cfg with pending := rest }) ∨
    (∃ r rest, s.pending = .request r :: rest ∧ r.wf = false ∧
      step s = .refused .operandTooLong) ∨
    (∃ r rest, s.pending = .request r :: rest ∧ r.wf = true ∧
      step s = exec (decodeOp r) { s with pending := rest }) := by
  unfold step takeEvent
  cases hp : s.pending with
  | nil => exact .inl ⟨rfl, rfl⟩
  | cons e rest =>
    cases e with
    | reset => exact .inr (.inl ⟨rest, rfl, rfl⟩)
    | request r =>
      cases hw : r.wf with
      | false => exact .inr (.inr (.inl ⟨r, rest, rfl, hw, by simp [decode, hw]⟩))
      | true => exact .inr (.inr (.inr ⟨r, rest, rfl, hw, by simp [decode, hw]⟩))

end Sys2Proof.Machine
end

