-- ==== Sys2Proof/Laws/Frame.lean ====
section
/-! SUPPORT. The frame parser on a frame that is written as a header and what follows it (R83 to R90). -/

namespace Sys2Proof.Machine

/-- The `size` field read back from a header. -/
theorem be16_header_size (size : Nat) (pad mt : Nibble) (rest : Bytes) :
    (be16 (slice (frameHeader size pad mt ++ rest) 2 4)).toNat = size % 65536 := by
  have h : slice (frameHeader size pad mt ++ rest) 2 4 = u16be (BitVec.ofNat 16 size) := by
    simp [slice, frameHeader, u16be]
  rw [h, ← List.append_nil (u16be _), be16_u16be_append, BitVec.toNat_ofNat]

/-- What the parser answers on a header followed by `rest`: with a good magic and byte 4, only the
length and the class of the type decide. -/
theorem parseFrame_header (cfg : Cfg) (size : Nat) (pad mt : Nibble) (rest : Bytes) :
    parseFrame cfg (frameHeader size pad mt ++ rest) =
      if rest.length ≠ size % 65536 + 2 then .error .lengthMismatch
      else if encKind cfg mt then
        if rest.length < 48 ∨ (rest.length - 32) % 16 ≠ 0 then .error .badCiphertextLength
        else .ok (.encrypted pad mt (rest.take (rest.length - 32)) (rest.drop (rest.length - 32)))
      else .ok (.plain pad mt rest) := by
  have hlen : (frameHeader size pad mt ++ rest).length = rest.length + 6 := by simp; omega
  have h0 : (frameHeader size pad mt ++ rest).getD 0 0 = 0x83 := rfl
  have h1 : (frameHeader size pad mt ++ rest).getD 1 0 = 0x70 := rfl
  have h4 : (frameHeader size pad mt ++ rest).getD 4 0 = 0x20 := rfl
  have h5 : (frameHeader size pad mt ++ rest).getD 5 0 = byte5 pad mt := rfl
  have hd : (frameHeader size pad mt ++ rest).drop 6 = rest := rfl
  unfold parseFrame
  rw [if_neg (by omega), if_neg (by rw [h0, h1]; simp), be16_header_size, hlen, h4, h5, hd]
  by_cases hl : rest.length = size % 65536 + 2
  · rw [if_neg (show ¬ rest.length + 6 ≠ size % 65536 + 8 by omega),
      if_neg (show ¬ (0x20 : Byte) ≠ 0x20 by simp),
      if_neg (show ¬ rest.length ≠ size % 65536 + 2 by omega), mtypeOf_byte5, padOf_byte5]
    by_cases he : encKind cfg mt = true
    · rw [if_pos he, if_pos he]
      by_cases hc : rest.length < 48 ∨ (rest.length - 32) % 16 ≠ 0
      · rw [if_pos (by omega), if_pos hc]
      · rw [if_neg (by omega), if_neg hc]
        have e1 : slice (frameHeader size pad mt ++ rest) 6 (rest.length + 6 - 32) =
            rest.take (rest.length - 32) := by
          have : (frameHeader size pad mt ++ rest).take (rest.length + 6 - 32) =
              frameHeader size pad mt ++ rest.take (rest.length - 32) := by
            rw [show rest.length + 6 - 32 = (frameHeader size pad mt).length + (rest.length - 32) by
              rw [length_frameHeader]; omega, List.take_length_add_append]
          rw [slice, this]
          rfl
        have e2 : (frameHeader size pad mt ++ rest).drop (rest.length + 6 - 32) =
            rest.drop (rest.length - 32) := by
          rw [show rest.length + 6 - 32 = (frameHeader size pad mt).length + (rest.length - 32) by
            rw [length_frameHeader]; omega, List.drop_length_add_append]
        rw [e1, e2]
    · rw [if_neg he, if_neg he]
  · rw [if_pos (by omega), if_pos hl]

/-- Every byte string of six bytes or more that passes the first four checks is a header, rebuilt from
its own fields, and the rest. -/
theorem eq_header_of_parse {cfg : Cfg} {b : Bytes} {f : Frame} (h : parseFrame cfg b = .ok f) :
    b = frameHeader (b.length - 8) (padOf (b.getD 5 0)) (mtypeOf (b.getD 5 0)) ++ b.drop 6 ∧
      8 ≤ b.length ∧ b.length - 8 < 65536 := by
  unfold parseFrame at h
  split at h
  · cases h
  · next h6 =>
    split at h
    · cases h
    · next hm =>
      split at h
      · cases h
      · next hl =>
        split at h
        · cases h
        · next h4 =>
          clear h
          obtain ⟨b0, b1, b2, b3, b4, b5, rest, rfl⟩ :
              ∃ b0 b1 b2 b3 b4 b5 rest, b = b0 :: b1 :: b2 :: b3 :: b4 :: b5 :: rest := by
            match b, h6 with
            | b0 :: b1 :: b2 :: b3 :: b4 :: b5 :: rest, _ => exact ⟨_, _, _, _, _, _, _, rfl⟩
            | [], h => exact absurd (by simp) h
            | [_], h => exact absurd (by simp) h
            | [_, _], h => exact absurd (by simp) h
            | [_, _, _], h => exact absurd (by simp) h
            | [_, _, _, _], h => exact absurd (by simp) h
            | [_, _, _, _, _], h => exact absurd (by simp) h
          simp only [not_or, Decidable.not_not, List.getD_cons_zero, List.getD_cons_succ] at hm hl h4
          obtain ⟨rfl, rfl⟩ := hm
          subst h4
          have hs : slice (0x83 :: 0x70 :: b2 :: b3 :: 0x20 :: b5 :: rest) 2 4 = [b2, b3] := rfl
          rw [hs, toNat_be16] at hl
          simp only [List.getD_cons_zero, List.getD_cons_succ] at hl
          have := b2.isLt
          have := b3.isLt
          refine ⟨?_, by omega, by omega⟩
          rw [hl, Nat.add_sub_cancel]
          have e2 : BitVec.ofNat 8 ((BitVec.ofNat 16 (b2.toNat * 256 + b3.toNat)).toNat / 256) = b2 := by
            apply BitVec.eq_of_toNat_eq; simp only [BitVec.toNat_ofNat]; omega
          have e3 : BitVec.ofNat 8 ((BitVec.ofNat 16 (b2.toNat * 256 + b3.toNat)).toNat) = b3 := by
            apply BitVec.eq_of_toNat_eq; simp only [BitVec.toNat_ofNat]; omega
          simp only [frameHeader, u16be, e2, e3, List.getD_cons_succ, List.getD_cons_zero,
            byte5_padOf_mtypeOf]
          rfl

/-- What the parser answers on the bytes of a frame whose stated size fits. -/
theorem parseFrame_encrypted {cfg : Cfg} {pad mt : Nibble} {ct sig : Bytes}
    (hm : encKind cfg mt = true) (hs : sig.length = 32) (h16 : 16 ≤ ct.length)
    (hmod : ct.length % 16 = 0) (hsize : ct.length + 30 < 65536) :
    parseFrame cfg (frameHeader (ct.length + 30) pad mt ++ ct ++ sig) =
      .ok (.encrypted pad mt ct sig) := by
  rw [List.append_assoc, parseFrame_header, List.length_append, hs, Nat.add_sub_cancel,
    if_neg (by omega), if_pos hm, if_neg (by omega), List.take_left, List.drop_left]

theorem parseFrame_plain {cfg : Cfg} {pad mt : Nibble} {body : Bytes} (hm : encKind cfg mt = false)
    (h2 : 2 ≤ body.length) (hsize : body.length - 2 < 65536) :
    parseFrame cfg (frameHeader (body.length - 2) pad mt ++ body) = .ok (.plain pad mt body) := by
  rw [parseFrame_header, if_neg (by omega), hm]
  rfl

/-- A header as six bytes. -/
theorem frameHeader_eq {size : Nat} (pad mt : Nibble) (h : size < 65536) :
    frameHeader size pad mt = [0x83, 0x70, BitVec.ofNat 8 (size / 256), BitVec.ofNat 8 (size % 256),
      0x20, BitVec.ofNat 8 (pad.toNat * 16 + mt.toNat)] := by
  have h2 : BitVec.ofNat 8 ((BitVec.ofNat 16 size).toNat / 256) = BitVec.ofNat 8 (size / 256) := by
    rw [BitVec.toNat_ofNat, Nat.mod_eq_of_lt h]
  have h3 : BitVec.ofNat 8 ((BitVec.ofNat 16 size).toNat) = BitVec.ofNat 8 (size % 256) := by
    apply BitVec.eq_of_toNat_eq
    simp only [BitVec.toNat_ofNat]
    omega
  have h5 : byte5 pad mt = BitVec.ofNat 8 (pad.toNat * 16 + mt.toNat) := by
    apply BitVec.eq_of_toNat_eq
    have := pad.isLt
    have := mt.isLt
    rw [toNat_byte5, BitVec.toNat_ofNat]
    omega
  simp only [frameHeader, u16be, h2, h3, h5]
  rfl

end Sys2Proof.Machine
end

