-- ==== Sys2Proof/Laws/Inv.lean ====
section
/-! SUPPORT. What the invariant gives about the loaded command. -/

namespace Sys2Proof.Machine

/-- A loaded command's kind is configured. -/
theorem State.Inv.kind_configured {s : State} (hi : s.Inv) (hl : s.cmdLoaded = true) :
    ∃ k, kindOf s.cfg s.cmdKind = some k := by
  have h := hi.loaded hl
  unfold lengthFromTemplate at h
  split at h
  · cases h
  · next k hk => exact ⟨k, hk⟩

/-- A loaded command has the length of a template of its kind (R112). -/
theorem State.Inv.length_of_template {s : State} (hi : s.Inv) (hl : s.cmdLoaded = true) {k : Kind}
    (hk : kindOf s.cfg s.cmdKind = some k) : ∃ e ∈ k.templates, e.2.length = s.cmdLen.val := by
  simpa [lengthFromTemplate, hk] using hi.loaded hl

/-- A field that fits the loaded kind lies below the trailer of the loaded command (R57, R113). -/
theorem State.Inv.field_in_range {s : State} (hi : s.Inv) (hl : s.cmdLoaded = true) {k : Kind}
    (hk : kindOf s.cfg s.cmdKind = some k) {f : Field} (hf : fieldFits f k = true) :
    f.o < s.cmdLen.val - 2 := by
  obtain ⟨e, he, hlen⟩ := hi.length_of_template hl hk
  simp only [fieldFits, List.all_eq_true, decide_eq_true_eq] at hf
  exact hlen ▸ hf e he

/-- A loaded command of an envelopable kind is a whole number of blocks (R254, R271). -/
theorem State.Inv.whole_blocks {s : State} (hi : s.Inv) (hl : s.cmdLoaded = true) {k : Kind}
    (hk : kindOf s.cfg s.cmdKind = some k) (he : k.envelopable = true) : s.cmdLen.val % 16 = 0 := by
  obtain ⟨e, hm, hlen⟩ := hi.length_of_template hl hk
  simp only [Kind.envelopable, List.all_eq_true, decide_eq_true_eq] at he
  exact hlen ▸ he e hm

/-- A loaded command is at least 12 bytes and its sequence byte lies below the trailer (R7, R80). -/
theorem State.Inv.length_bounds {s : State} (hi : s.Inv) (hl : s.cmdLoaded = true) {k : Kind}
    (hk : kindOf s.cfg s.cmdKind = some k) :
    12 ≤ s.cmdLen.val ∧ ∀ off, k.seqOff = some off → off < s.cmdLen.val - 2 := by
  obtain ⟨e, he, hlen⟩ := hi.length_of_template hl hk
  have := template_wf (kind_wf hi.cfgWf hk) he
  rw [hlen] at this
  exact ⟨this.1, this.2.2⟩

end Sys2Proof.Machine
end

