-- ==== Sys2Proof/Laws/PerInstr.lean ====
section
/-! SUPPORT. Statements made of every instruction, one lemma per constructor. `EncodeBounded`: a
well-formed instruction encodes to a record the port can carry (R70, R77), under its own code (R72). -/

namespace Sys2Proof.Laws

/-- The record of a well-formed instruction is a request, and carries the instruction's code. -/
def EncodeBounded.Statement (i : Instr) : Prop :=
  ∀ cfg : Cfg, i.wf cfg = true → (encode i).wf = true ∧ (encode i).op = opcodeOf i

theorem EncodeBounded.crc8 (x : Bytes) : EncodeBounded.Statement (.crc8 x) := fun _ h =>
  ⟨by simp only [Instr.wf, decide_eq_true_eq] at h; simp [encode, requestOf, Request.wf, h], rfl⟩

theorem EncodeBounded.cmdLoad (k d : Half) : EncodeBounded.Statement (.cmdLoad k d) :=
  fun _ _ => ⟨rfl, rfl⟩

theorem EncodeBounded.cmdSetf (f v : Half) : EncodeBounded.Statement (.cmdSetf f v) :=
  fun _ _ => ⟨rfl, rfl⟩

theorem EncodeBounded.cmdGetf (f : Half) : EncodeBounded.Statement (.cmdGetf f) :=
  fun _ _ => ⟨rfl, rfl⟩

theorem EncodeBounded.cmdFin : EncodeBounded.Statement .cmdFin := fun _ _ => ⟨rfl, rfl⟩

theorem EncodeBounded.cmdRd : EncodeBounded.Statement .cmdRd := fun _ _ => ⟨rfl, rfl⟩

theorem EncodeBounded.envBuild (d : Bytes) : EncodeBounded.Statement (.envBuild d) := fun _ h =>
  ⟨by simp only [Instr.wf, decide_eq_true_eq] at h; simp [encode, requestOf, Request.wf, h], rfl⟩

theorem EncodeBounded.envDec (x : Bytes) : EncodeBounded.Statement (.envDec x) := fun _ h =>
  ⟨by simp only [Instr.wf, decide_eq_true_eq] at h; simp [encode, requestOf, Request.wf, h], rfl⟩

theorem EncodeBounded.frmEnc (mt : Nibble) (p r : Bytes) :
    EncodeBounded.Statement (.frmEnc mt p r) := fun _ h =>
  ⟨by
    simp only [Instr.wf, Bool.and_eq_true, decide_eq_true_eq] at h
    simp [encode, requestOf, Request.wf, h.1, h.2], rfl⟩

theorem EncodeBounded.frmDec (b : Bytes) : EncodeBounded.Statement (.frmDec b) := fun _ h =>
  ⟨by simp only [Instr.wf, decide_eq_true_eq] at h; simp [encode, requestOf, Request.wf, h], rfl⟩

theorem EncodeBounded.hsDerive (y pk : Bytes) : EncodeBounded.Statement (.hsDerive y pk) :=
  fun _ h =>
  ⟨by
    simp only [Instr.wf, Bool.and_eq_true, decide_eq_true_eq] at h
    simp [encode, requestOf, Request.wf, h.1, h.2], rfl⟩

theorem EncodeBounded.sesDrop : EncodeBounded.Statement .sesDrop := fun _ _ => ⟨rfl, rfl⟩

theorem EncodeBounded.statRd : EncodeBounded.Statement .statRd := fun _ _ => ⟨rfl, rfl⟩

theorem EncodeBounded.illegal (op : Byte) : EncodeBounded.Statement (.illegal op) :=
  fun _ _ => ⟨rfl, rfl⟩

theorem EncodeBounded.frameEncrypted (pad mt : Nibble) (ct sig : Bytes) :
    EncodeBounded.Statement (.frameEncrypted pad mt ct sig) := fun _ h =>
  ⟨by
    simp only [Instr.wf, Frame.wf, Bool.and_eq_true, decide_eq_true_eq] at h
    obtain ⟨⟨⟨⟨_, _⟩, _⟩, hs⟩, hl⟩ := h
    simp [encode, requestOf, Request.wf, Frame.bytes, hs]
    omega, rfl⟩

theorem EncodeBounded.framePlain (pad mt : Nibble) (body : Bytes) :
    EncodeBounded.Statement (.framePlain pad mt body) := fun _ h =>
  ⟨by
    simp only [Instr.wf, Frame.wf, Bool.and_eq_true, decide_eq_true_eq] at h
    simp [encode, requestOf, Request.wf, Frame.bytes]
    omega, rfl⟩

end Sys2Proof.Laws
end

