-- ==== Sys2Proof/Tests/Slice0.lean ====
section
/-! SUPPORT. Tests: smoke tests of WellFormed, decodings written out from the tables of
spec/30_encoding.md, the known answers KA-1 to KA-7 and single-step vectors of
spec/95_test_vectors.md (each test names its vector), and, for each statement of Obligations.lean that
has hypotheses, a theorem `witness_<statement>` that meets them. -/

namespace Sys2Proof.Tests

open Sys2Proof.Machine

/-! ## States of the tests -/

/-- Right after reset of test configuration T0. -/
def s0 : State := State.resetWith t0

/-- The response an outcome carries. -/
def respOf : Host.Outcome State Fault Refusal → Option Response
  | .next t => t.resp
  | _ => none

/-- The fault of an outcome. -/
def faultOf : Host.Outcome State Fault Refusal → Option Fault
  | .fault f => some f
  | _ => none

/-- The next state of an outcome. -/
def nextOf : Host.Outcome State Fault Refusal → Option State
  | .next t => some t
  | _ => none

/-- The state an outcome carries, the given one where it carries none. -/
def stateOf (s : State) : Host.Outcome State Fault Refusal → State
  | .next t => t
  | _ => s

/-- The state after a step from `s` with the request `r` presented. -/
def after (r : Request) (s : State) : Host.Outcome State Fault Refusal :=
  step { s with pending := [.request r] }

/-- A request with no `AUX` and no `RAND`. -/
def req (op : Byte) (a b : Half) (inp : Bytes) : Request := ⟨op, a, b, inp, [], []⟩

/-- Key 20..3F valid, counters given (section 1 of 95_test_vectors.md). -/
def keyed (c r : Half) : State :=
  { s0 with tcpKey := keyOf (bytesFrom 0x20 32), keyValid := true, reqCnt := c, rspCnt := r }

/-- The T0 template loaded as kind `k` (0 is not sequenced, 1 is). -/
def loaded (k : Half) : State := loadTemplate k t0Template s0

/-- The loaded template of kind 0 with its trailer (V-CMD-2). -/
def final0 : State := stateOf s0 (execCmdFin (loaded 0))

/-- The frame of V-FRM-2. -/
def frame2 : Bytes :=
  [0x83, 0x70, 0x00, 0x2E, 0x20, 0x96,
   0x5C, 0x9C, 0x50, 0x46, 0x99, 0xF2, 0xBF, 0x83, 0x96, 0x2E, 0x1C, 0xAB, 0x97, 0x99, 0x0F, 0xCA,
   0x17, 0x86, 0x1F, 0xF9, 0x89, 0x52, 0x8B, 0xAD, 0xD1, 0x88, 0x1F, 0x16, 0xE2, 0xB6, 0xFF, 0x70,
   0x24, 0x4B, 0x20, 0x11, 0x74, 0x7D, 0xE7, 0x80, 0xDC, 0x95, 0xB9, 0xAD, 0x3D, 0x26, 0xB2, 0x56]

/-- The frame of V-FRM-21: correct signature, pad nibble 15, type 6. -/
def frame21 : Bytes :=
  [0x83, 0x70, 0x00, 0x2E, 0x20, 0xF6,
   0x5F, 0x1E, 0xDA, 0xF4, 0x43, 0x11, 0x7B, 0xCF, 0x54, 0x35, 0xD4, 0x7C, 0xDB, 0x68, 0x53, 0xA6,
   0x99, 0x1F, 0x62, 0x39, 0x4E, 0x58, 0x9F, 0xCC, 0x9B, 0x7A, 0x49, 0x2C, 0x1E, 0x43, 0xF6, 0x73,
   0x8E, 0x95, 0x08, 0x49, 0x05, 0xF4, 0xC9, 0x03, 0x33, 0xAB, 0xD5, 0xFA, 0x5A, 0x10, 0x9E, 0xC7]

/-- The frame of V-FRM-22: the same plaintext, pad nibble 14, type 3. -/
def frame22 : Bytes :=
  [0x83, 0x70, 0x00, 0x2E, 0x20, 0xE3,
   0x5F, 0x1E, 0xDA, 0xF4, 0x43, 0x11, 0x7B, 0xCF, 0x54, 0x35, 0xD4, 0x7C, 0xDB, 0x68, 0x53, 0xA6,
   0x24, 0x94, 0xBD, 0x00, 0xE1, 0xF4, 0x77, 0xF1, 0x60, 0x6B, 0x3D, 0xDE, 0x29, 0x27, 0x37, 0x44,
   0x9F, 0x1A, 0x53, 0x17, 0xC0, 0x5A, 0x8C, 0x58, 0x06, 0xB0, 0x25, 0xA8, 0x91, 0x16, 0xE7, 0x84]

/-- The pairing key of T0. -/
def pairKey : Bytes := bytesFrom 0x40 32

/-- The reply of V-HS-2. -/
def reply2 : Bytes :=
  [0x83, 0x70, 0x00, 0x40, 0x20, 0x01, 0x00, 0x00,
   0xAD, 0x91, 0xFD, 0xE3, 0x9D, 0x30, 0xA0, 0x5A, 0xC4, 0x3E, 0xDE, 0x24, 0x8B, 0x08, 0x97, 0xB7,
   0x57, 0x84, 0xC4, 0xA5, 0xBF, 0xC4, 0x74, 0xAF, 0xB0, 0xB0, 0x10, 0xE0, 0x11, 0xB8, 0xFB, 0x54,
   0xAA, 0x7B, 0xC0, 0x47, 0xC2, 0xA8, 0xA5, 0x9D, 0xE4, 0x42, 0x39, 0x60, 0x1F, 0x76, 0x5A, 0xB9,
   0x57, 0x53, 0x56, 0xB7, 0x8B, 0xAE, 0x0C, 0xED, 0x39, 0x99, 0x3E, 0x29, 0xDE, 0xE2, 0x96, 0x3B]

/-- The device id of T0. -/
def devId : Bytes := [0x11, 0x22, 0x33, 0x44, 0x55, 0x66]

/-! ## WellFormed refuses an ill-formed term, one for each check -/

theorem test_request_in_too_long : (req 1 0 0 (List.replicate 65536 0)).wf = false := by
  simp only [req, Request.wf, List.length_replicate]; decide

theorem test_request_aux_too_long : (⟨7, 0, 0, [], List.replicate 65536 0, []⟩ : Request).wf = false := by
  simp only [Request.wf, List.length_replicate]; decide

theorem test_request_rand_too_long :
    (⟨9, 0, 0, [], [], List.replicate 65536 0⟩ : Request).wf = false := by
  simp only [Request.wf, List.length_replicate]; decide

theorem test_illegal_needs_reserved_code :
    (Instr.illegal 0x01).wf t0 = false ∧ (Instr.illegal 0x0D).wf t0 = false ∧
      (Instr.illegal 0x00).wf t0 = true ∧ (Instr.illegal 0x0E).wf t0 = true := by decide

theorem test_instr_operand_too_long :
    (Instr.crc8 (List.replicate 65536 0)).wf t0 = false ∧
    (Instr.envBuild (List.replicate 65536 0)).wf t0 = false ∧
    (Instr.envDec (List.replicate 65536 0)).wf t0 = false ∧
    (Instr.frmEnc 0 (List.replicate 65536 0) []).wf t0 = false ∧
    (Instr.frmEnc 0 [] (List.replicate 65536 0)).wf t0 = false ∧
    (Instr.frmDec (List.replicate 65536 0)).wf t0 = false ∧
    (Instr.hsDerive (List.replicate 65536 0) []).wf t0 = false ∧
    (Instr.hsDerive [] (List.replicate 65536 0)).wf t0 = false := by
  simp only [Instr.wf, List.length_replicate]; decide

/-- Plain type, short ciphertext, part of a block, short signature, oversize. -/
theorem test_frame_encrypted_checks :
    Frame.wf t0 (.encrypted 0 0x1 (zeroBytes 16) (zeroBytes 32)) = false ∧
    Frame.wf t0 (.encrypted 0 0x6 [] (zeroBytes 32)) = false ∧
    Frame.wf t0 (.encrypted 0 0x6 (zeroBytes 17) (zeroBytes 32)) = false ∧
    Frame.wf t0 (.encrypted 0 0x6 (zeroBytes 16) (zeroBytes 31)) = false ∧
    Frame.wf t0 (.encrypted 0 0x6 (zeroBytes 16) (zeroBytes 32)) = true := by decide

theorem test_frame_encrypted_oversize :
    Frame.wf t0 (.encrypted 0 0x6 (List.replicate 65504 0) (zeroBytes 32)) = false := by
  simp only [Frame.wf, List.length_replicate]; decide

/-- Encrypted type, body without a counter. -/
theorem test_frame_plain_checks :
    Frame.wf t0 (.plain 0 0x3 [0, 0]) = false ∧ Frame.wf t0 (.plain 0 0x1 [0]) = false ∧
      Frame.wf t0 (.plain 0 0x1 [0, 0]) = true := by decide

theorem test_frame_plain_oversize :
    Frame.wf t0 (.plain 0 0x1 (List.replicate 65530 0)) = false := by
  simp only [Frame.wf, List.length_replicate]; decide

/-- Width 0, a field past bit 7; the first trailer byte of the 32-byte T0 template and the byte below. -/
theorem test_field_checks : (⟨0, 0, 0⟩ : Field).wf = false ∧ (⟨0, 6, 3⟩ : Field).wf = false ∧
    (⟨0, 7, 1⟩ : Field).wf = true ∧ fieldFits ⟨30, 0, 8⟩ ⟨none, [(0xAC, t0Template)]⟩ = false ∧
    fieldFits ⟨29, 0, 8⟩ ⟨none, [(0xAC, t0Template)]⟩ = true := by decide

/-- A template of 11 bytes, one of 257, a sequence byte in the trailer, a device type twice. -/
theorem test_kind_checks :
    (⟨none, [(0xAC, zeroBytes 11)]⟩ : Kind).wf = false ∧
    (⟨none, [(0xAC, zeroBytes 257)]⟩ : Kind).wf = false ∧
    (⟨some 10, [(0xAC, zeroBytes 12)]⟩ : Kind).wf = false ∧
    (⟨none, [(0xAC, zeroBytes 12), (0xAC, zeroBytes 12)]⟩ : Kind).wf = false ∧
    (⟨some 9, [(0xAC, zeroBytes 12)]⟩ : Kind).wf = true := by decide +kernel

/-- A kind id twice, an ill-formed kind, a field id twice, an ill-formed field, one code for both
encrypted kinds, an encrypted handshake code. -/
theorem test_cfg_checks :
    ({ t0 with kinds := [(0, ⟨none, []⟩), (0, ⟨none, []⟩)] } : Cfg).formed = false ∧
    ({ t0 with kinds := [(0, ⟨none, [(0xAC, [])]⟩)] } : Cfg).formed = false ∧
    ({ t0 with fields := [(0, ⟨0, 0, 1⟩), (0, ⟨0, 0, 1⟩)] } : Cfg).formed = false ∧
    ({ t0 with fields := [(0, ⟨0, 0, 9⟩)] } : Cfg).formed = false ∧
    ({ t0 with mtEncryptedOther := 0x6 } : Cfg).formed = false ∧
    ({ t0 with mtHandshakeRequest := 0x3 } : Cfg).formed = false := by decide

theorem test_t0_formed : t0.formed = true := by decide

/-- T0 without `TF3`, the field it makes ill-formed on purpose. -/
def t0Fit : Cfg := { t0 with fields := t0.fields.take 3 }

/-- `TF3` makes T0 ill-formed (section 1 of 95_test_vectors.md); without it T0 is well-formed, and for
enveloping its 32-byte kinds, not its 20-byte kind. -/
theorem test_t0_fields_and_lengths : t0.wf = false ∧ t0Fit.wf = true ∧
    t0Fit.wfFor [0, 1] = true ∧ t0Fit.wfFor [2] = false := by decide

/-! ## Decoding: records and frames written out from spec/30_encoding.md -/

theorem test_decode_crc8 : decode ⟨0x01, 7, 9, [0x31], [0x32], [0x33]⟩ = .ok (.crc8 [0x31]) := by
  decide

theorem test_decode_cmdLoad : decode ⟨0x02, 0x0001, 0x00AC, [1], [], []⟩ = .ok (.cmdLoad 1 0xAC) := by
  decide

theorem test_decode_cmdSetf : decode ⟨0x03, 2, 0x1F, [], [], []⟩ = .ok (.cmdSetf 2 0x1F) := by decide

theorem test_decode_cmdGetf : decode ⟨0x04, 2, 0x1F, [], [], []⟩ = .ok (.cmdGetf 2) := by decide

theorem test_decode_cmdFin : decode ⟨0x05, 1, 1, [1], [1], [1]⟩ = .ok .cmdFin := by decide

theorem test_decode_cmdRd : decode ⟨0x06, 1, 1, [1], [1], [1]⟩ = .ok .cmdRd := by decide

theorem test_decode_envBuild : decode ⟨0x07, 0, 0, [1], [2], [3]⟩ = .ok (.envBuild [2]) := by decide

theorem test_decode_envDec : decode ⟨0x08, 0, 0, [1], [2], [3]⟩ = .ok (.envDec [1]) := by decide

/-- V-FRM-26: bits 15:4 of `A` are ignored. -/
theorem test_decode_frmEnc :
    decode ⟨0x09, 0xFF16, 0, [1], [2], [3]⟩ = .ok (.frmEnc 0x6 [1] [3]) := by decide

theorem test_decode_frmDec : decode ⟨0x0A, 0, 0, [1], [2], [3]⟩ = .ok (.frmDec [1]) := by decide

theorem test_decode_hsDerive :
    decode ⟨0x0B, 0, 0, [1], [2], [3]⟩ = .ok (.hsDerive [1] [2]) := by decide

theorem test_decode_sesDrop : decode ⟨0x0C, 1, 1, [1], [1], [1]⟩ = .ok .sesDrop := by decide

theorem test_decode_statRd : decode ⟨0x0D, 1, 1, [1], [1], [1]⟩ = .ok .statRd := by decide

/-- V-OP-1. -/
theorem test_decode_illegal :
    decode ⟨0x00, 1, 1, [1], [1], [1]⟩ = .ok (.illegal 0x00) ∧
    decode ⟨0x0E, 1, 1, [1], [1], [1]⟩ = .ok (.illegal 0x0E) ∧
    decode ⟨0xFF, 1, 1, [1], [1], [1]⟩ = .ok (.illegal 0xFF) := by decide

/-- V-FRM-2's frame: byte 5 = 0x96 is pad 9, type 6. -/
theorem test_decode_frameEncrypted : decodeFrame t0 frame2 =
    .ok (.frameEncrypted 9 6 ((frame2.drop 6).take 16) (frame2.drop 22)) := by decide

/-- V-FRM-10's frame: `83 70 00 03 20 01 00 07 AA BB CC`. -/
theorem test_decode_framePlain :
    decodeFrame t0 [0x83, 0x70, 0x00, 0x03, 0x20, 0x01, 0x00, 0x07, 0xAA, 0xBB, 0xCC] =
      .ok (.framePlain 0 1 [0x00, 0x07, 0xAA, 0xBB, 0xCC]) := by decide

/-- The parser's rejections in checking order (V-FRM-20, V-FRM-27). -/
theorem test_parse_rejects :
    parseFrame t0 [0x83, 0x70, 0x00, 0x00, 0x20] = .error .tooShort ∧
    parseFrame t0 [0x83, 0x71, 0x00, 0x00, 0x21, 0x01, 0x00] = .error .badMagic ∧
    parseFrame t0 [0x83, 0x70, 0x00, 0x00, 0x21, 0x01] = .error .lengthMismatch ∧
    parseFrame t0 [0x83, 0x70, 0x00, 0x00, 0x21, 0x01, 0x00, 0x00] = .error .badFixedByte ∧
    parseFrame t0 [0x83, 0x70, 0x00, 0x00, 0x20, 0x06, 0x00, 0x00] = .error .badCiphertextLength := by
  decide

/-- The operand bits of a table word: `OP` in 7:0, `A` in 23:8, `B` in 39:24. -/
theorem test_decodeTableWord_operands :
    decodeTableWord 40 0x1234ABCD03 = some (.cmdSetf 0xABCD 0x1234) := by decide

/-! ## The primitives: their constants, and the known answers KA-1 to KA-7 -/

/-- The largest `r` below `2 ^ bits + acc` with `r ^ n ≤ x`, found from its highest bit down. -/
def rootFloor (n x : Nat) : Nat → Nat → Nat
  | 0, acc => acc
  | bits + 1, acc =>
    rootFloor n x bits (if Nat.ble ((acc + 2 ^ bits) ^ n) x then acc + 2 ^ bits else acc)

/-- The first 64 primes, those up to 311. -/
def primes64 : List Nat := (List.range' 2 310).filter fun n =>
  [2, 3, 5, 7, 11, 13, 17].all fun d => Nat.beq n d || Nat.blt 0 (n % d)

/-- The first 32 bits of the fractional part of the `n`-th root of `p`. -/
def rootWord (n p : Nat) : Word32 := BitVec.ofNat 32 (rootFloor n (p * 2 ^ (32 * n)) 37 0)

/-- The constants of SHA-256 as FIPS 180-4 defines them: cube roots of the first 64 primes, square
roots of the first 8. -/
theorem test_sha256_constants : sha256K = primes64.map (rootWord 3) ∧
    sha256Init = ⟨rootWord 2 2, rootWord 2 3, rootWord 2 5, rootWord 2 7, rootWord 2 11, rootWord 2 13,
      rootWord 2 17, rootWord 2 19⟩ := by decide +kernel

/-- The block `00 11 22 .. FF` of KA-1 and KA-2. -/
def kaBlock : AesBlock := aesBlockOf ((List.range 16).map fun i => BitVec.ofNat 8 (0x11 * i))

theorem test_ka1_aes128 : aesBlockBytes (aes128Enc (bytesFrom 0 16) kaBlock) =
    [0x69, 0xC4, 0xE0, 0xD8, 0x6A, 0x7B, 0x04, 0x30, 0xD8, 0xCD, 0xB7, 0x80, 0x70, 0xB4, 0xC5,
     0x5A] := by decide +kernel

theorem test_ka2_aes256 : aesBlockBytes (aes256Enc (bytesFrom 0 32) kaBlock) =
    [0x8E, 0xA2, 0xB7, 0xCA, 0x51, 0x67, 0x45, 0xBF, 0xEA, 0xFC, 0x49, 0x90, 0x4B, 0x49, 0x60,
     0x89] := by decide +kernel

theorem test_ka3_sha256_abc : sha256 [0x61, 0x62, 0x63] =
    [0xBA, 0x78, 0x16, 0xBF, 0x8F, 0x01, 0xCF, 0xEA, 0x41, 0x41, 0x40, 0xDE, 0x5D, 0xAE, 0x22, 0x23,
     0xB0, 0x03, 0x61, 0xA3, 0x96, 0x17, 0x7A, 0x9C, 0xB4, 0x10, 0xFF, 0x61, 0xF2, 0x00, 0x15,
     0xAD] := by decide +kernel

theorem test_ka4_sha256_empty : sha256 [] =
    [0xE3, 0xB0, 0xC4, 0x42, 0x98, 0xFC, 0x1C, 0x14, 0x9A, 0xFB, 0xF4, 0xC8, 0x99, 0x6F, 0xB9, 0x24,
     0x27, 0xAE, 0x41, 0xE4, 0x64, 0x9B, 0x93, 0x4C, 0xA4, 0x95, 0x99, 0x1B, 0x78, 0x52, 0xB8,
     0x55] := by decide +kernel

theorem test_ka5_md5_empty : md5 [] =
    [0xD4, 0x1D, 0x8C, 0xD9, 0x8F, 0x00, 0xB2, 0x04, 0xE9, 0x80, 0x09, 0x98, 0xEC, 0xF8, 0x42,
     0x7E] := by decide +kernel

theorem test_ka6_md5_abc : md5 [0x61, 0x62, 0x63] =
    [0x90, 0x01, 0x50, 0x98, 0x3C, 0xD2, 0x4F, 0xB0, 0xD6, 0x96, 0x3F, 0x7D, 0x28, 0xE1, 0x7F,
     0x72] := by decide +kernel

theorem test_ka7_cbc : cbcEnc (bytesFrom 0 32) (zeroBytes 32) =
    [0xF2, 0x90, 0x00, 0xB6, 0x2A, 0x49, 0x9F, 0xD0, 0xA9, 0xF3, 0x9A, 0x6A, 0xDD, 0x2E, 0x77, 0x80,
     0xD4, 0xE9, 0x69, 0x25, 0xC0, 0xBF, 0xCF, 0xFB, 0x52, 0xF8, 0xA1, 0x87, 0xEE, 0x77, 0x4A,
     0xAB] := by decide +kernel

/-- Property P1 on KA-1 and KA-2. -/
theorem test_ka_decrypt : aes128Dec (bytesFrom 0 16) (aes128Enc (bytesFrom 0 16) kaBlock) = kaBlock ∧
    aes256Dec (bytesFrom 0 32) (aes256Enc (bytesFrom 0 32) kaBlock) = kaBlock := by decide +kernel

/-! ## Single steps -/

/-- V-CRC-6. -/
theorem test_crc8 : respOf (after (req 1 0 0 (bytesFrom 0x31 9)) s0) = some ⟨0, 0x00A1, 0, []⟩ := by
  decide +kernel

/-- V-CRC-10: the table `k + 1`. -/
theorem test_crc8_any_table :
    respOf (execCrc8 [1, 2, 3] (State.resetWith { t0 with crcTable := crcTableOf fun k => BitVec.ofNat 8 (k + 1) }))
      = some ⟨0, 3, 0, []⟩ := by decide +kernel

/-- V-CMD-1. -/
theorem test_cmdLoad : respOf (execStatRd (stateOf s0 (after (req 2 0 0xAC []) s0))) =
    some ⟨0, 0, 0, [0x02, 0, 0, 0, 0, 0, 0, 0, 0x00, 0x20, 0, 0]⟩ := by decide

/-- V-CMD-19. -/
theorem test_cmdLoad_refusals : respOf (execCmdLoad 0 0xA1 s0) = some ⟨0x03, 0, 0, []⟩ ∧
    respOf (execCmdLoad 7 0xAC s0) = some ⟨0x02, 0, 0, []⟩ := by decide

/-- V-CMD-14, first half: clamped to 7. -/
theorem test_cmdSetf :
    cmdByte (stateOf s0 (after (req 3 1 0xFFFF []) (loaded 0))) 12 = 0xEC := by decide

/-- V-CMD-18. -/
theorem test_cmdSetf_trailer : respOf (execCmdSetf 3 1 (loaded 0)) = some ⟨0x02, 0, 0, []⟩ := by decide

/-- V-CMD-10, last part. -/
theorem test_cmdGetf : respOf (after (req 4 2 0 []) (loaded 0)) = some ⟨0, 0x000C, 0, []⟩ := by decide

/-- V-CMD-2. -/
theorem test_cmdFin : respOf (after (req 5 0 0 []) (loaded 0)) =
    some ⟨0, 0, 0, bytesFrom 0 30 ++ [0xD7, 0x76]⟩ := by decide +kernel

/-- V-CMD-13: the sequence number is injected and wraps. -/
theorem test_cmdFin_sequenced :
    respOf (execCmdFin { loaded 1 with seq := 0xFF }) =
      some ⟨0, 0, 0, bytesFrom 0 29 ++ [0xFF, 0x82, 0xE9]⟩ ∧
    (stateOf s0 (execCmdFin { loaded 1 with seq := 0xFF })).seq = 0x00 := by decide +kernel

/-- V-CMD-1, V-CMD-17. -/
theorem test_cmdRd :
    respOf (after (req 6 0 0 []) (loaded 0)) = some ⟨0, 0, 0, bytesFrom 0 30 ++ [0, 0]⟩ ∧
      respOf (execCmdRd s0) = some ⟨0x02, 0, 0, []⟩ := by decide

/-- V-ENV-1. -/
theorem test_envBuild : respOf (after ⟨7, 0, 0, [], devId, []⟩ final0) = some ⟨0, 0, 0,
    [0x5A, 0x5A, 0x01, 0x11, 0x58, 0x00, 0x20, 0x00] ++ List.replicate 12 0x00 ++ devId
      ++ List.replicate 14 0x00 ++
    [0x01, 0x48, 0x31, 0xF8, 0x9A, 0x81, 0x96, 0x3C, 0x7F, 0xC2, 0x6A, 0x57, 0x71, 0x4F, 0x73, 0x7A,
     0xDA, 0xB7, 0x9C, 0x0E, 0x1D, 0xDB, 0xC1, 0xFD, 0x64, 0x7B, 0x75, 0x0C, 0x77, 0xA8, 0x8F, 0x4E,
     0xE2, 0xA0, 0x64, 0x39, 0x1E, 0x1D, 0xA9, 0xCA, 0x9B, 0x5E, 0xE6, 0x9A, 0x19, 0xE2, 0x53,
     0xF1]⟩ := by decide +kernel

/-- V-ENV-3. -/
theorem test_envBuild_refusals :
    respOf (execEnvBuild [0x11, 0x22, 0x33, 0x44, 0x55] s0) = some ⟨0x02, 0, 0, []⟩ ∧
    respOf (execEnvBuild devId (loaded 0)) = some ⟨0x02, 0, 0, []⟩ := by decide

/-- V-ENV-2. -/
theorem test_envDec : respOf (after (req 8 0 0
    [0x01, 0x48, 0x31, 0xF8, 0x9A, 0x81, 0x96, 0x3C, 0x7F, 0xC2, 0x6A, 0x57, 0x71, 0x4F, 0x73, 0x7A,
     0xDA, 0xB7, 0x9C, 0x0E, 0x1D, 0xDB, 0xC1, 0xFD, 0x64, 0x7B, 0x75, 0x0C, 0x77, 0xA8, 0x8F,
     0x4E]) s0) = some ⟨0, 0, 0, bytesFrom 0 30 ++ [0xD7, 0x76]⟩ := by decide +kernel

/-- V-FRM-2. -/
theorem test_frmEnc : respOf (after ⟨9, 6, 0, [1, 2, 3, 4, 5], [], bytesFrom 0xF1 9⟩ (keyed 1 0)) =
    some ⟨0, 0, 0, frame2⟩ := by decide +kernel

/-- V-FRM-1. -/
theorem test_frmEnc_plain : respOf (after (req 9 0 0 (bytesFrom 0xA0 16)) s0) =
    some ⟨0, 0, 0, [0x83, 0x70, 0x00, 0x12, 0x20, 0x00, 0x00, 0x00] ++ bytesFrom 0xA0 16⟩ := by decide

/-- V-FRM-4. -/
theorem test_frmDec :
    (nextOf (after (req 0x0A 0 0 frame2) (keyed 0 0))).map (fun t => (t.resp, t.ctrMismatch, t.rspCnt))
      = some (some ⟨0, 6, 1, [1, 2, 3, 4, 5]⟩, true, 1) := by decide +kernel

/-- V-FRM-16: the last signature byte flipped. -/
theorem test_frmDec_signature :
    (nextOf (after (req 0x0A 0 0 (frame2.set 53 0x57)) (keyed 0 0))).map
        (fun t => (t.resp, t.keyValid, t.tcpKey.toList))
      = some (some ⟨0x05, 0, 0, []⟩, false, List.replicate 32 0) := by decide +kernel

/-- V-HS-2. -/
theorem test_hsDerive :
    (nextOf (after ⟨0x0B, 0, 0, reply2, pairKey, []⟩ s0)).map
        (fun t => (t.resp, t.keyValid, t.tcpKey.toList))
      = some (some ⟨0, 0, 0, []⟩, true, bytesFrom 0x20 32) := by decide +kernel

/-- V-HS-4. -/
theorem test_hsDerive_rejected :
    (nextOf (after ⟨0x0B, 0, 0, zeroBytes 8 ++ [0x45, 0x52, 0x52, 0x4F, 0x52], pairKey, []⟩
        (keyed 0 0))).map (fun t => (t.resp, t.keyValid))
      = some (some ⟨0x06, 0, 0, []⟩, false) := by decide

/-- V-SES-1. -/
theorem test_sesDrop : respOf (execStatRd (stateOf s0 (after (req 0x0C 0 0 [])
    { loaded 0 with seq := 3, reqCnt := 3, rspCnt := 3, rxCtr := 5, keyValid := true,
                    cmdFinal := true, ctrMismatch := true }))) =
    some ⟨0, 0, 0, [0x06, 0x03, 0, 0, 0, 0, 0, 0, 0x00, 0x20, 0, 0]⟩ := by decide

/-- P4, step 11's record: every field in its place. -/
theorem test_statRd : respOf (after (req 0x0D 0 0 [])
    { loaded 1 with seq := 0xA5, reqCnt := 0x1234, rspCnt := 0x5678, rxCtr := 0x9ABC, keyValid := true,
                    ctrMismatch := true }) =
    some ⟨0, 0, 0, [0x0B, 0xA5, 0x12, 0x34, 0x56, 0x78, 0x9A, 0xBC, 0x00, 0x20, 0x00, 0x01]⟩ := by decide

/-- V-OP-1. -/
theorem test_illegal :
    (nextOf (after (req 0xFF 0 0 []) (keyed 1 2))).map (fun t => (t.resp, t.keyValid, t.reqCnt))
      = some (some ⟨0x01, 0, 0, []⟩, true, 1) := by decide

/-- V-FRM-14: the pad nibble of V-FRM-2's frame changed, as a frame row. -/
theorem test_frameEncrypted : respOf (exec
    (.frameEncrypted 8 6 ((frame2.drop 6).take 16) (frame2.drop 22)) (keyed 0 0)) =
      some ⟨0x05, 0, 0, []⟩ := by decide +kernel

/-- V-FRM-10, as a frame row. -/
theorem test_framePlain :
    (nextOf (exec (.framePlain 0 1 [0x00, 0x07, 0xAA, 0xBB, 0xCC]) (keyed 0 7))).map
        (fun t => (t.resp, t.ctrMismatch, t.rspCnt))
      = some (some ⟨0, 1, 7, [0xAA, 0xBB, 0xCC]⟩, false, 8) := by decide

/-- A reset event (R250 to R252). -/
theorem test_reset :
    (nextOf (step { keyed 3 4 with pending := [.reset] })).map (fun t => (t.resp, t.keyValid, t.reqCnt))
      = some (none, false, 0) := by decide

/-- The canonical form: writing what an unlisted byte reads as removes the entry. -/
theorem test_memory : memWrite (memWrite (memWrite [] 5 7) 3 9) 5 0 = [(3, 9)] ∧
    Memory.wf [(3, 9), (5, 7)] = true ∧ Memory.wf [(5, 7), (3, 9)] = false ∧
    Memory.wf [(3, 0)] = false := by decide

/-! ## Witnesses: states and operands that meet the hypotheses of each statement -/

/-- A state with a reset event, and one with a `CMD.LOAD` request, at the port. -/
def resetPort : State := { loaded 0 with pending := [.reset, .request (req 13 0 0 [])] }

/-- The T0 template loaded, a `CMD.FIN` at the port. -/
def finPort : State := { loaded 0 with pending := [.request (req 5 0 0 [])] }

theorem witness_ResetStateOfEveryRegister : State.reset = State.reset ∧ ∃ cfg, s0 = State.resetWith cfg :=
  ⟨rfl, t0, rfl⟩

theorem witness_ResetMeetsTheInvariant : t0.formed = true := test_t0_formed

theorem witness_ResetEventRestoresTheResetState :
    resetPort.pending = .reset :: [.request (req 13 0 0 [])] := rfl

theorem witness_StepRunsTheDecodedInstruction :
    (finPort.pending = .request (req 5 0 0 []) :: [] ∧ decode (req 5 0 0 []) = .ok .cmdFin) ∧
      (loaded 0).pending = [] := by decide

/-- Operands at their longest, one record for each code. -/
theorem witness_OperationCodesSelectTheirOperations : ∀ n ∈ List.range' 1 13,
    (List.replicate 65535 (0 : Byte)).length ≤ 65535 ∧
      (⟨BitVec.ofNat 8 n, 0xFFFF, 0xFFFF, List.replicate 65535 0, [], []⟩ : Request).op.toNat = n := by
  simp only [List.length_replicate]; decide

theorem witness_ReservedCodesAreIllegalOperations : ∀ op ∈ [(0x00 : Byte), 0x0E, 0xFF],
    (req op 0 0 []).wf = true ∧ ((req op 0 0 []).op = 0x00 ∨ 0x0E ≤ (req op 0 0 []).op.toNat) := by
  decide

/-- The longest record, and one byte more in each string. -/
theorem witness_EveryRecordDecodesToItsCode :
    (List.replicate 65535 (0 : Byte)).length ≤ 65535 ∧ 65535 < (List.replicate 65536 (0 : Byte)).length := by
  simp only [List.length_replicate]; decide

/-- Shortest and longest well-formed frames, the longest operand, both ends of the reserved codes. -/
theorem witness_DecodeInvertsEncode :
    (Instr.illegal 0x00).wf t0 = true ∧ (Instr.illegal 0xFF).wf t0 = true ∧
    (Instr.crc8 (List.replicate 65535 0)).wf t0 = true ∧
    (Instr.frameEncrypted 15 3 (List.replicate 16 0) (List.replicate 32 0)).wf t0 = true ∧
    (Instr.frameEncrypted 0 6 (List.replicate 65488 0) (List.replicate 32 0)).wf t0 = true ∧
    (Instr.framePlain 15 15 [0, 0]).wf t0 = true ∧
    (Instr.framePlain 0 0 (List.replicate 65529 0)).wf t0 = true := by
  simp only [Instr.wf, Frame.wf, List.length_replicate]; decide

theorem witness_ParserKeepsEveryByte :
    parseFrame t0 frame2 = .ok (.encrypted 9 6 ((frame2.drop 6).take 16) (frame2.drop 22)) ∧
    parseFrame t0 [0x83, 0x70, 0x00, 0x00, 0x20, 0xF1, 0x00, 0x00] = .ok (.plain 15 1 [0, 0]) := by
  decide

/-- The loaded T0 command meets the invariant, whatever waits at the port. -/
theorem inv_loaded (p : List PortEvent) : State.Inv { loaded 0 with pending := p } where
  cfgWf := test_t0_formed
  cmdWf := show Memory.wf (loaded 0).cmd = true by decide
  cmdInRange := show memBelow cmdMax (loaded 0).cmd = true by decide
  keyZero := fun _ => rfl
  unloaded := fun h => by cases h
  loaded := fun _ => show lengthFromTemplate (loaded 0) = true by decide
  final := fun h => by cases h

/-- The loaded sequenced T0 command meets the invariant. -/
theorem inv_loaded1 : (loaded 1).Inv where
  cfgWf := test_t0_formed
  cmdWf := by decide
  cmdInRange := by decide
  keyZero := fun _ => rfl
  unloaded := fun h => by cases h
  loaded := fun _ => by decide
  final := fun h => by cases h

/-- The sequenced T0 command loaded and finalized, in the well-formed instance. -/
def fit1 : State := finishCommand (injectSeq 29 (loadTemplate 1 t0Template (State.resetWith t0Fit)))

theorem inv_fit1 : fit1.Inv where
  cfgWf := by decide +kernel
  cmdWf := by decide +kernel
  cmdInRange := by decide +kernel
  keyZero := fun _ => rfl
  unloaded := fun h => by cases h
  loaded := fun _ => by decide +kernel
  final := fun _ => by decide +kernel

theorem witness_StepKeepsTheInvariant : finPort.Inv ∧ ∃ t, step finPort = .next t :=
  ⟨inv_loaded _, _, rfl⟩

theorem witness_StepAlwaysAnswers :
    finPort.Inv ∧ portOk finPort = true ∧ finPort.pending = .request (req 5 0 0 []) :: [] :=
  ⟨inv_loaded _, by decide, rfl⟩

theorem witness_ConfigurationNeverChanges : ∃ t, step finPort = .next t := ⟨_, rfl⟩

/-- A failure that changes nothing, one of `FRM.DEC` and one of `HS.DERIVE` that clear the key. -/
theorem witness_FailedOperationsDeliverNothing :
    (respOf (exec (.illegal 0) s0)).map (·.err) = some 0x01 ∧
    (respOf (exec (.frmDec (frame2.set 53 0x57)) (keyed 0 0))).map (·.err) = some 0x05 ∧
    (respOf (exec (.hsDerive [] pairKey) (keyed 0 0))).map (·.err) = some 0x04 := by decide +kernel

/-- Every instruction answers a response in the loaded state. -/
theorem witness_ErrorCausesAreComplete : ∀ i ∈ [Instr.crc8 [1], .cmdLoad 0 0xAC, .cmdSetf 1 5, .cmdGetf 1,
    .cmdFin, .cmdRd, .envBuild devId, .envDec (zeroBytes 16), .frmEnc 0 [1] [], .frmDec frame2,
    .hsDerive reply2 pairKey, .sesDrop, .statRd, .illegal 0x0E, .framePlain 0 1 [0, 0],
    .frameEncrypted 9 6 ((frame2.drop 6).take 16) (frame2.drop 22)],
    (respOf (exec i (loaded 0))).isSome = true := by decide +kernel

theorem witness_ReadsHaveNoSideEffect : ∀ i ∈ [Instr.cmdGetf 1, .cmdRd, .statRd, .crc8 [1],
    .envDec (zeroBytes 16)], (respOf (exec i (loaded 0))).map (·.err) = some 0x00 := by decide +kernel

/-- Each changed register has its writer: `CMD.FIN`, `FRM.ENC`, `FRM.DEC`, `HS.DERIVE`, `SES.DROP`,
`CMD.LOAD`, `CMD.SETF`. -/
theorem witness_RegistersChangeOnlyByTheirWriters :
    (stateOf s0 (exec .cmdFin (loaded 1))).seq ≠ (loaded 1).seq ∧
    (stateOf s0 (exec (.frmEnc 0 [] []) s0)).reqCnt ≠ s0.reqCnt ∧
    (stateOf s0 (exec (.framePlain 0 1 [0, 1]) s0)).rxCtr ≠ s0.rxCtr ∧
    (stateOf s0 (exec (.hsDerive reply2 pairKey) s0)).keyValid = true ∧
    (stateOf s0 (exec .sesDrop (keyed 1 1))).keyValid = false ∧
    (stateOf s0 (exec (.cmdLoad 0 0xAC) s0)).cmdLoaded = true ∧
    (stateOf s0 (exec (.cmdSetf 1 5) { loaded 0 with cmdFinal := true })).cmdFinal = false := by
  decide +kernel

/-- A frame operation of each sort that meets the conditions: a plain kind with a valid key, an
encrypted kind without one. -/
theorem witness_SessionKeyIsNotDisclosed :
    encKind (keyed 0 0).cfg 0 = false ∧ (∃ t, exec (.frmEnc 0 [1] []) (keyed 0 0) = .next t) ∧
    parseFrame (keyed 0 0).cfg [0x83, 0x70, 0x00, 0x00, 0x20, 0x01, 0x00, 0x00] = .ok (.plain 0 1 [0, 0]) ∧
    s0.keyValid = false ∧ (∃ t, exec (.frmDec frame2) s0 = .next t) :=
  ⟨by decide, ⟨_, rfl⟩, by decide, rfl, ⟨_, rfl⟩⟩

/-- An instruction that answers, and one that faults (a template longer than the buffer). -/
theorem witness_PortFieldsDecideNothing :
    (∃ t, exec .statRd (loaded 0) = .next t) ∧
    faultOf (exec (.cmdLoad 0 0)
        (State.resetWith { t0 with kinds := [(0, ⟨none, [(0, zeroBytes 257)]⟩)] })) =
      some (.noSuchByte 256) :=
  ⟨⟨_, rfl⟩, by decide +kernel⟩

/-- The identity table of V-CRC-9. -/
theorem witness_Crc8IsALeftFoldOverAnyTable :
    ∀ k : Byte, crcEntry { t0 with crcTable := crcTableOf (BitVec.ofNat 8) } k = k := by decide +kernel

/-- An unknown kind, an unsupported device type, the 32-byte template of kind 0; a configuration with
a template of the longest length 256 is well-formed. -/
theorem witness_LoadBuildsTheCommand :
    Memory.wf s0.cmd = true ∧ s0.cfg.formed = true ∧ s0.cfg.kinds.lookup 7 = none ∧
    s0.cfg.kinds.lookup 0 = some ⟨none, [(0xAC, t0Template)]⟩ ∧
    ([(0xAC, t0Template)] : List (Half × Bytes)).lookup 0xA1 = none ∧
    ([(0xAC, t0Template)] : List (Half × Bytes)).lookup 0xAC = some t0Template ∧
    ({ t0 with kinds := [(0, ⟨none, [(0xAC, zeroBytes 256)]⟩)] } : Cfg).formed = true := by decide +kernel

/-- A field that ends at bit 7 and one that starts at bit 0, below the trailer. -/
theorem witness_SetfWritesOnlyItsField :
    Memory.wf (loaded 0).cmd = true ∧ (loaded 0).cfg.formed = true ∧ (loaded 0).cmdLoaded = true ∧
    (loaded 0).cfg.fields.lookup 1 = some ⟨12, 5, 3⟩ ∧ 12 < (loaded 0).cmdLen.val - 2 ∧
    (loaded 0).cfg.fields.lookup 2 = some ⟨12, 0, 4⟩ := by decide

theorem witness_GetfReadsItsField : (loaded 0).cmdLoaded = true ∧
    (loaded 0).cfg.fields.lookup 0 = some ⟨11, 0, 1⟩ ∧ 11 < (loaded 0).cmdLen.val - 2 := by decide

theorem witness_GetfAfterSetfReturnsTheClampedValue :
    Memory.wf (loaded 0).cmd = true ∧ (loaded 0).cfg.formed = true ∧ (loaded 0).cmdLoaded = true ∧
    (loaded 0).cfg.fields.lookup 1 = some ⟨12, 5, 3⟩ ∧ 12 < (loaded 0).cmdLen.val - 2 ∧
    ∃ t, exec (.cmdSetf 1 0xFFFF) (loaded 0) = .next t :=
  ⟨by decide, test_t0_formed, rfl, by decide, by decide, _, rfl⟩

/-- Nothing loaded; an unknown id; the field at the first trailer byte (offset 30 of 32). -/
theorem witness_FieldLookupFailures : s0.cmdLoaded = false ∧ (loaded 0).cfg.fields.lookup 9 = none ∧
    (loaded 0).cfg.fields.lookup 3 = some ⟨30, 0, 8⟩ ∧ (loaded 0).cmdLen.val ≤ 30 + 2 := by decide

theorem witness_FinComputesTheTrailer :
    Memory.wf (loaded 0).cmd = true ∧ (loaded 0).cmdLoaded = true ∧
    (loaded 0).cfg.kinds.lookup (loaded 0).cmdKind = some ⟨none, [(0xAC, t0Template)]⟩ ∧
    12 ≤ (loaded 0).cmdLen.val := by decide

/-- The sequence byte at offset 29, the last below the trailer of 32 bytes. -/
theorem witness_FinInjectsTheSequenceNumber :
    Memory.wf (loaded 1).cmd = true ∧ (loaded 1).cmdLoaded = true ∧
    (loaded 1).cfg.kinds.lookup (loaded 1).cmdKind = some ⟨some 29, [(0xAC, t0Template)]⟩ ∧
    12 ≤ (loaded 1).cmdLen.val ∧ 29 < (loaded 1).cmdLen.val - 2 := by decide

theorem witness_RdReturnsTheLoadedCommand :
    (loaded 0).cmdLoaded = true ∧ s0.cmdLoaded = false := ⟨rfl, rfl⟩

theorem witness_FinalizedCommandSumsToZero : (loaded 0).Inv ∧ (loaded 0).cmdLoaded = true ∧
    ∃ t, exec .cmdFin (loaded 0) = .next t := ⟨inv_loaded [], rfl, _, rfl⟩

theorem witness_RefinalizingANonSequencedCommandChangesNothing :
    (loaded 0).Inv ∧ (loaded 0).cmdLoaded = true ∧
    (loaded 0).cfg.kinds.lookup (loaded 0).cmdKind = some ⟨none, [(0xAC, t0Template)]⟩ ∧
    ∃ t, exec .cmdFin (loaded 0) = .next t := ⟨inv_loaded [], rfl, by decide, _, rfl⟩

theorem witness_ConsecutiveFinalizationsCountModulo256 :
    (loaded 1).Inv ∧ (loaded 1).cmdLoaded = true ∧
    (loaded 1).cfg.kinds.lookup (loaded 1).cmdKind = some ⟨some 29, [(0xAC, t0Template)]⟩ :=
  ⟨inv_loaded1, rfl, by decide⟩

/-- The T0 fields that fit, on a loaded command of the well-formed instance, and the highest of them at
the edge: offset 29 of 32 bytes. -/
theorem witness_WellFormedFieldsAreNeverOutOfRange :
    fit1.Inv ∧ fit1.cmdLoaded = true ∧ fit1.cfg.fields.lookup 2 = some ⟨12, 0, 4⟩ ∧
    fit1.cfg.kinds.lookup fit1.cmdKind = some ⟨some 29, [(0xAC, t0Template)]⟩ ∧ fit1.cfg.wf = true ∧
    fieldFits ⟨29, 0, 8⟩ ⟨some 29, [(0xAC, t0Template)]⟩ = true :=
  ⟨inv_fit1, by decide +kernel⟩

/-- The finalized T0 command of kind 1, in the instance that is well-formed for enveloping it. -/
theorem witness_EnvelopableKindsAreEnveloped :
    fit1.Inv ∧ fit1.cmdLoaded = true ∧ fit1.cmdFinal = true ∧ devId.length = 6 ∧
    fit1.cfg.kinds.lookup fit1.cmdKind = some ⟨some 29, [(0xAC, t0Template)]⟩ ∧
    fit1.cfg.wfFor [0, 1] = true ∧ fit1.cmdKind ∈ [0, 1] :=
  ⟨inv_fit1, by decide +kernel⟩

theorem witness_EnvBuildLaysOutTheEnvelope : devId.length = 6 ∧
    ({ loaded 0 with cmdFinal := true } : State).cmdLoaded = true ∧
    ({ loaded 0 with cmdFinal := true } : State).cmdFinal = true ∧
    ({ loaded 0 with cmdFinal := true } : State).cmdLen.val % 16 = 0 := by decide

/-- A 5-byte and a 7-byte id; nothing loaded; not final; a 20-byte command (kind 2). -/
theorem witness_EnvBuildChecksItsContract : (devId.take 5).length ≠ 6 ∧ (0 :: devId).length ≠ 6 ∧
    s0.cmdLoaded = false ∧ (loaded 0).cmdFinal = false ∧
    (stateOf s0 (exec (.cmdLoad 2 0xAC) s0)).cmdLen.val % 16 ≠ 0 := by decide

theorem witness_EnvDecDecryptsWholeBlocks : ([] : Bytes).length % 16 = 0 ∧
    (zeroBytes 16).length % 16 = 0 ∧ (zeroBytes 15).length % 16 ≠ 0 ∧ (zeroBytes 17).length % 16 ≠ 0 := by
  decide

theorem witness_EnvDecInvertsEnvBuild : ∃ t r,
    exec (.envBuild devId) { loaded 0 with cmdFinal := true } = .next t ∧ t.resp = some r ∧
      r.err = 0x00 ∧ s0.cfg = (loaded 0).cfg := ⟨_, _, rfl, rfl, rfl, rfl⟩

/-- The empty and the longest payload of a plain kind. -/
theorem witness_FrmEncPlainFrame : (0x0 : Nibble) ≠ s0.cfg.mtEncryptedRequest ∧
    (0x0 : Nibble) ≠ s0.cfg.mtEncryptedOther ∧ ([] : Bytes).length ≤ 65533 ∧
    (List.replicate 65533 (0 : Byte)).length ≤ 65533 := by
  simp only [List.length_replicate]; decide

theorem witness_HandshakeRequestIsA24ByteClearFrame :
    s0.cfg.formed = true ∧ (bytesFrom 0xA0 16).length = 16 := by decide

/-- Pad 0 (14 bytes), pad 15 (15 bytes), and the longest payload, 65502 bytes with pad 0. -/
theorem witness_FrmEncEncryptedFrame :
    (0x6 : Nibble) = (keyed 0 0).cfg.mtEncryptedRequest ∧ (0x3 : Nibble) = (keyed 0 0).cfg.mtEncryptedOther ∧
    (keyed 0 0).keyValid = true ∧
    (2 + (List.replicate 14 (0 : Byte)).length + 0) % 16 = 0 ∧
    (2 + (List.replicate 15 (0 : Byte)).length + 15) % 16 = 0 ∧
    (2 + (List.replicate 65502 (0 : Byte)).length + 0) % 16 = 0 ∧
    (List.replicate 65502 (0 : Byte)).length + 0 ≤ 65503 ∧ 15 ≤ (List.replicate 15 (0 : Byte)).length := by
  simp only [List.length_replicate]; decide

/-- No key; 65503 bytes with pad 15; a draw one byte short; a plain payload of 65534 bytes. -/
theorem witness_FrmEncRefusals :
    (0x6 : Nibble) = s0.cfg.mtEncryptedRequest ∧ s0.keyValid = false ∧ (keyed 0 0).keyValid = true ∧
    (2 + (List.replicate 65503 (0 : Byte)).length + 15) % 16 = 0 ∧
    65503 < (List.replicate 65503 (0 : Byte)).length + 15 ∧
    (2 + ([1, 2, 3, 4, 5] : Bytes).length + 9) % 16 = 0 ∧ (List.replicate 8 (0 : Byte)).length < 9 ∧
    65533 < (List.replicate 65534 (0 : Byte)).length := by
  simp only [List.length_replicate]; decide

/-- One frame for each check, each one step outside it. -/
theorem witness_MalformedFramesAreFramingErrors :
    ([0x83, 0x70, 0, 0, 0x20] : Bytes).length < 6 ∧
    ([0x82, 0x70, 0, 0, 0x20, 1, 0, 0] : Bytes).getD 0 0 ≠ 0x83 ∧
    ([0x83, 0x71, 0, 0, 0x20, 1, 0, 0] : Bytes).getD 1 0 ≠ 0x70 ∧
    ([0x83, 0x70, 0, 1, 0x20, 1, 0, 0] : Bytes).length ≠ 0 * 256 + 1 + 8 ∧
    ([0x83, 0x70, 0, 0, 0x21, 1, 0, 0] : Bytes).getD 4 0 ≠ 0x20 ∧
    (BitVec.ofNat 4 ((([0x83, 0x70, 0, 0x2D, 0x20, 0x96] ++ zeroBytes 47 : Bytes).getD 5 0).toNat % 16)
        = s0.cfg.mtEncryptedRequest ∧
      ([0x83, 0x70, 0, 0x2D, 0x20, 0x96] ++ zeroBytes 47 : Bytes).length < 54) := by decide

/-- V-FRM-2's frame without a key and with it, a flipped signature, V-FRM-21's impossible pad, and
V-FRM-22's pad 14, the largest that one block takes. -/
theorem witness_EncryptedFrameOutcomes :
    Frame.wf t0 (.encrypted 9 6 ((frame2.drop 6).take 16) (frame2.drop 22)) = true ∧
    frame2.take 6 = [0x83, 0x70, BitVec.ofNat 8 ((16 + 30) / 256), BitVec.ofNat 8 ((16 + 30) % 256), 0x20,
      BitVec.ofNat 8 ((0x9 : Nibble).toNat * 16 + (0x6 : Nibble).toNat)] ∧
    s0.keyValid = false ∧ (keyed 0 0).keyValid = true ∧
    sha256 (frame2.take 6 ++ cbcDec (keyed 0 0).tcpKey.toList ((frame2.drop 6).take 16)) = frame2.drop 22 ∧
    sha256 (frame2.take 6 ++ cbcDec (keyed 0 0).tcpKey.toList ((frame2.drop 6).take 16))
      ≠ (frame2.set 53 0x57).drop 22 ∧
    (sha256 (frame21.take 6 ++ cbcDec (keyed 0 0).tcpKey.toList ((frame21.drop 6).take 16))
        = frame21.drop 22 ∧
      (cbcDec (keyed 0 0).tcpKey.toList ((frame21.drop 6).take 16)).length < (0xF : Nibble).toNat + 2) ∧
    (Frame.wf t0 (.encrypted 14 3 ((frame22.drop 6).take 16) (frame22.drop 22)) = true ∧
      sha256 (frame22.take 6 ++ cbcDec (keyed 0 0).tcpKey.toList ((frame22.drop 6).take 16))
        = frame22.drop 22 ∧
      (0xE : Nibble).toNat + 2 ≤ (cbcDec (keyed 0 0).tcpKey.toList ((frame22.drop 6).take 16)).length) := by
  decide +kernel

/-- The empty and the longest body of a plain frame. -/
theorem witness_PlainFramesAreAcceptedUnverified : (0x1 : Nibble) ≠ s0.cfg.mtEncryptedRequest ∧
    (0x1 : Nibble) ≠ s0.cfg.mtEncryptedOther ∧ ([] : Bytes).length ≤ 65535 ∧
    (List.replicate 65535 (0 : Byte)).length ≤ 65535 := by
  simp only [List.length_replicate]; decide

theorem witness_EncryptedFramesRoundTrip :
    (0x6 : Nibble) = (keyed 1 0).cfg.mtEncryptedRequest ∧
    (∃ t q, exec (.frmEnc 6 [1, 2, 3, 4, 5] (bytesFrom 0xF1 9)) (keyed 1 0) = .next t ∧
      t.resp = some q ∧ q.err = 0x00) ∧
    (keyed 5 7).cfg = (keyed 1 0).cfg ∧ (keyed 5 7).tcpKey = (keyed 1 0).tcpKey ∧
    (keyed 5 7).keyValid = true := ⟨by decide, ⟨_, _, rfl, rfl, rfl⟩, rfl, rfl, rfl⟩

theorem witness_EncodedPlainFramesAreRefused :
    (0x0 : Nibble) ≠ s0.cfg.mtEncryptedRequest ∧ (0x0 : Nibble) ≠ s0.cfg.mtEncryptedOther ∧
    ∃ t q, exec (.frmEnc 0 (bytesFrom 0xA0 16) []) s0 = .next t ∧ t.resp = some q ∧ q.err = 0x00 :=
  ⟨by decide, by decide, _, _, rfl, rfl, rfl⟩

/-- V-FRM-2's frame with byte 0, the last byte, a ciphertext byte, or the type changed (V-FRM-11, 16, 15,
17). -/
theorem witness_TamperedFrameOutcomes :
    respOf (exec (.frmEnc 6 [1, 2, 3, 4, 5] (bytesFrom 0xF1 9)) (keyed 1 0)) = some ⟨0, 0, 0, frame2⟩ ∧
    (0x6 : Nibble) = (keyed 1 0).cfg.mtEncryptedRequest ∧ (keyed 0 0).keyValid = true ∧
    ((frame2.set 0 0x82).length = frame2.length ∧ (frame2.set 0 0x82).take 5 ≠ frame2.take 5) ∧
    (frame2.set 53 0x57 ≠ frame2 ∧ (frame2.set 53 0x57).take 22 = frame2.take 22) ∧
    (frame2.set 6 0x5D ≠ frame2 ∧ (frame2.set 6 0x5D).take 5 = frame2.take 5 ∧
      encKind t0 (BitVec.ofNat 4 (((frame2.set 6 0x5D).getD 5 0).toNat % 16)) = true ∧
      (frame2.set 6 0x5D).drop 22 = frame2.drop 22) ∧
    (frame2.set 5 0x92 ≠ frame2 ∧ (frame2.set 5 0x92).take 5 = frame2.take 5 ∧
      encKind t0 (BitVec.ofNat 4 (((frame2.set 5 0x92).getD 5 0).toNat % 16)) = false) := by decide +kernel

theorem witness_NoEncryptedServiceWithoutAKey : s0.keyValid = false ∧ encKind s0.cfg 6 = true ∧
    parseFrame s0.cfg frame2 = .ok (.encrypted 9 6 ((frame2.drop 6).take 16) (frame2.drop 22)) ∧
    encKind s0.cfg 0 = false ∧
    parseFrame s0.cfg [0x83, 0x70, 0x00, 0x00, 0x20, 0x01, 0x00, 0x00] = .ok (.plain 0 1 [0, 0]) := by
  decide

theorem witness_HandshakeInstallsTheXorKey : (zeroBytes 8).length = 8 ∧ pairKey.length = 32 ∧
    (List.replicate 32 (0x60 : Byte)).length = 32 ∧
    (cbcEnc pairKey (List.replicate 32 0x60)).take 5 ≠ [0x45, 0x52, 0x52, 0x4F, 0x52] := by decide +kernel

/-- A 31-byte key; a 13-byte "ERROR" reply; a reply of 71 bytes; V-HS-3's kind of mismatch. -/
theorem witness_HandshakeFailures : (pairKey.take 31).length ≠ 32 ∧ pairKey.length = 32 ∧
    (((zeroBytes 8 ++ [0x45, 0x52, 0x52, 0x4F, 0x52] : Bytes).drop 8).take 64).take 5
      = [0x45, 0x52, 0x52, 0x4F, 0x52] ∧
    (((reply2.take 71).drop 8).take 64).take 5 ≠ [0x45, 0x52, 0x52, 0x4F, 0x52] ∧
    (((reply2.take 71).drop 8).take 64).length < 64 ∧
    ((((reply2.set 8 0xAC).drop 8).take 64).length = 64 ∧
      sha256 (cbcDec pairKey ((((reply2.set 8 0xAC).drop 8).take 64).take 32))
        ≠ (((reply2.set 8 0xAC).drop 8).take 64).drop 32) := by decide +kernel

theorem witness_SesDropClearsTheSession : ∃ t, exec .sesDrop (keyed 3 3) = .next t := ⟨_, rfl⟩

theorem witness_ModesInvertOnWholeBlocks :
    ([] : Bytes).length % 16 = 0 ∧ (zeroBytes 32).length % 16 = 0 := by decide

end Sys2Proof.Tests
end

section
/-! SUPPORT. No instruction and no step writes the configuration (R7, R41, R252). -/

namespace Sys2Proof.Machine

/-- Each shape a next state can have carries the configuration it started from. -/
theorem exec_cfg {i : Instr} {s t : State} (h : exec i s = .next t) : t.cfg = s.cfg := by
  cases exec_shape h <;> rfl

/-- A step waits, resets, refuses or runs an instruction; only the last two need `exec`. -/
theorem step_cfg {s t : State} (h : step s = .next t) : t.cfg = s.cfg := by
  rcases step_cases s with ⟨_, hs⟩ | ⟨_, _, hs⟩ | ⟨_, _, _, _, hs⟩ | ⟨_, _, _, _, hs⟩ <;>
    rw [hs] at h
  · cases h; rfl
  · cases h; rfl
  · cases h
  · exact (exec_cfg h :)

/-- Settles O13: every outcome of a step keeps the configuration. -/
theorem configurationNeverChanges : Obligations.ConfigurationNeverChanges :=
  fun _ _ h => step_cfg h

end Sys2Proof.Machine
end

section
/-! SUPPORT. The invariant is kept by every update of the state that an instruction makes, and so by
every step. -/

namespace Sys2Proof.Machine

/-- What the invariant reads of a state besides the session key: the configuration, the command buffer
and the command registers. -/
def State.commandView (s : State) : Cfg × Memory × Fin (cmdMax + 1) × Half × Bool × Bool :=
  (s.cfg, s.cmd, s.cmdLen, s.cmdKind, s.cmdLoaded, s.cmdFinal)

/-- The invariant passes to every state with the same command view and a lawful key (R26). -/
theorem State.Inv.of_commandView {s t : State} (hi : s.Inv) (hv : t.commandView = s.commandView)
    (hk : t.keyValid = false → t.tcpKey = zeroKey) : t.Inv := by
  cases s
  cases t
  simp only [State.commandView, Prod.mk.injEq] at hv
  obtain ⟨rfl, rfl, rfl, rfl, rfl, rfl⟩ := hv
  exact ⟨hi.cfgWf, hi.cmdWf, hi.cmdInRange, hk, hi.unloaded, hi.loaded, hi.final⟩

/-- The reset state of a formed configuration meets the invariant (R251). -/
theorem State.Inv.resetWith {cfg : Cfg} (hc : cfg.formed = true) : (State.resetWith cfg).Inv where
  cfgWf := hc
  cmdWf := rfl
  cmdInRange := rfl
  keyZero _ := rfl
  unloaded _ := ⟨rfl, rfl, rfl, rfl⟩
  loaded h := by cases h
  final h := by cases h

/-- Taking `CMD_FINAL` away asks less of the trailer. -/
theorem State.Inv.not_final {s : State} (hi : s.Inv) : { s with cmdFinal := false }.Inv where
  cfgWf := hi.cfgWf
  cmdWf := hi.cmdWf
  cmdInRange := hi.cmdInRange
  keyZero := hi.keyZero
  unloaded h := have ⟨hlen, hkind, _, hcmd⟩ := hi.unloaded h; ⟨hlen, hkind, rfl, hcmd⟩
  loaded := hi.loaded
  final h := by cases h

/-- A byte of the buffer may be written once a command is loaded, if `CMD_FINAL` is then 0. -/
theorem State.Inv.cmdStore {s : State} (hi : s.Inv) (hl : s.cmdLoaded = true) {i : Nat}
    (h : i < cmdMax) (v : Byte) : { cmdStore i v s with cmdFinal := false }.Inv where
  cfgWf := hi.cfgWf
  cmdWf := Memory.wf_memWrite hi.cmdWf i v
  cmdInRange := memBelow_memWrite h v hi.cmdInRange
  keyZero := hi.keyZero
  unloaded h := absurd hl (Bool.eq_false_iff.1 h)
  loaded := hi.loaded
  final h := by cases h

/-- `CMD.LOAD` of a template of the kind (R112). -/
theorem State.Inv.loadTemplate {s : State} (hi : s.Inv) {a b : Half} {k : Kind} {x : Bytes}
    (hk : kindOf s.cfg a = some k) (hx : templateOf k b = some x) (hl : x.length ≤ cmdMax) :
    (loadTemplate a x s).Inv where
  cfgWf := hi.cfgWf
  cmdWf := Memory.wf_memWriteBytes x s.cmd 0 hi.cmdWf
  cmdInRange := memBelow_memWriteBytes x s.cmd 0 cmdMax (by omega) hi.cmdInRange
  keyZero := hi.keyZero
  unloaded h := by cases h
  loaded _ := by
    have hlen : (Fin.ofNat (cmdMax + 1) x.length).val = x.length :=
      Nat.mod_eq_of_lt (Nat.lt_succ_of_le hl)
    simp only [lengthFromTemplate, loadTemplate_cfg, loadTemplate_cmdKind, loadTemplate_cmdLen, hk,
      hlen, List.any_eq_true, beq_iff_eq]
    exact ⟨(b, x), mem_of_lookup hx, rfl⟩
  final h := by cases h

/-- `CMD.SETF` writes below the trailer of the loaded command and clears `CMD_FINAL` (R114). -/
theorem State.Inv.setField {s : State} (hi : s.Inv) {a : Half} {f : Field}
    (hf : fieldLookup s a = some f) (b : Half) : (setField f b s).Inv := by
  obtain ⟨hl, _, ho⟩ := fieldLookup_some.1 hf
  exact hi.cmdStore hl (by have := s.cmdLen.isLt; omega) _

/-- The end of `CMD.FIN` makes the trailer current, whether or not it was before (R117, R118). -/
theorem State.Inv.finishCommand {s : State} (hi : { s with cmdFinal := false }.Inv)
    (hl : s.cmdLoaded = true) : (finishCommand s).Inv := by
  obtain ⟨k, hk⟩ := hi.kind_configured hl
  have h12 : 12 ≤ s.cmdLen.val := (hi.length_bounds hl hk).1
  exact {
    cfgWf := hi.cfgWf
    cmdWf := wf_writeTrailer hi.cmdWf
    cmdInRange := memBelow_writeTrailer (by omega) hi.cmdInRange
    keyZero := hi.keyZero
    unloaded := fun h => absurd hl (Bool.eq_false_iff.1 h)
    loaded := hi.loaded
    final := fun _ => trailerCurrent_writeTrailer hi.cmdWf h12 }

/-- Every instruction keeps the invariant: one case per shape of its next state. -/
theorem exec_keeps_inv {i : Instr} {s t : State} (hi : s.Inv) (h : exec i s = .next t) : t.Inv := by
  cases exec_shape h with
  | read => exact hi.of_commandView rfl hi.keyZero
  | fail => exact hi.of_commandView rfl hi.keyZero
  | load a b k x _ hk hx hl =>
    have ht := hi.loadTemplate hk hx hl
    exact ht.of_commandView rfl ht.keyZero
  | setf a b f _ hf =>
    have ht := hi.setField hf b
    exact ht.of_commandView rfl ht.keyZero
  | finPlain k _ hl => exact hi.not_final.finishCommand hl
  | finSequenced k off _ hl _ _ _ ho =>
    have ht := hi.cmdStore hl ho s.seq
    have hu : { injectSeq off s with cmdFinal := false }.Inv := ht.of_commandView rfl ht.keyZero
    exact hu.finishCommand hl
  | encode => exact hi.of_commandView rfl hi.keyZero
  | accept => exact hi.of_commandView rfl hi.keyZero
  | badSignature => exact hi.of_commandView rfl fun _ => rfl
  | noHandshake => exact hi.of_commandView rfl fun _ => rfl
  | handshake => exact hi.of_commandView rfl fun h => by cases h
  | drop => exact hi.of_commandView rfl fun _ => rfl

/-- Settles O11: waiting and reset are immediate, and an instruction starts from the state whose port
alone has moved on. -/
theorem stepKeepsTheInvariant : Obligations.StepKeepsTheInvariant := by
  intro s t hi h
  rcases step_cases s with ⟨_, hs⟩ | ⟨rest, _, hs⟩ | ⟨_, _, _, _, hs⟩ | ⟨r, rest, _, _, hs⟩ <;>
    rw [hs] at h
  · cases h; exact hi
  · cases h; exact (State.Inv.resetWith hi.cfgWf).of_commandView rfl fun _ => rfl
  · cases h
  · have htaken : { s with pending := rest }.Inv := hi.of_commandView rfl hi.keyZero
    exact exec_keeps_inv htaken h

end Sys2Proof.Machine
end

section
/-! SUPPORT. The inverse cipher undoes the forward cipher and the reverse (property P1 of R14): each
layer of a round is undone by its inverse, and the rounds undo each other in reverse order. -/

namespace Sys2Proof.Machine

theorem aesDecRounds_aesEncRounds (ks : List AesBlock) (x : AesBlock) :
    aesDecRounds ks (aesEncRounds ks x) = x := by
  induction ks, x using aesEncRounds.induct with
  | case1 => rfl
  | case2 k x => simp [aesEncRounds, aesDecRounds]
  | case3 k ks x _ ih => simp [aesEncRounds, aesDecRounds, ih]

theorem aesEncRounds_aesDecRounds (ks : List AesBlock) (x : AesBlock) :
    aesEncRounds ks (aesDecRounds ks x) = x := by
  induction ks, x using aesDecRounds.induct with
  | case1 => rfl
  | case2 k x => simp [aesEncRounds, aesDecRounds]
  | case3 k ks x _ ih => simp [aesEncRounds, aesDecRounds, ih]

theorem aesInvCipher_aesCipher (ks : List AesBlock) (x : AesBlock) :
    aesInvCipher ks (aesCipher ks x) = x := by
  cases ks with
  | nil => rfl
  | cons k ks => simp [aesCipher, aesInvCipher, aesDecRounds_aesEncRounds]

theorem aesCipher_aesInvCipher (ks : List AesBlock) (x : AesBlock) :
    aesCipher ks (aesInvCipher ks x) = x := by
  cases ks with
  | nil => rfl
  | cons k ks => simp [aesCipher, aesInvCipher, aesEncRounds_aesDecRounds]

@[simp] theorem aes128Dec_aes128Enc (k : Bytes) (x : AesBlock) : aes128Dec k (aes128Enc k x) = x :=
  aesInvCipher_aesCipher _ x

@[simp] theorem aes128Enc_aes128Dec (k : Bytes) (x : AesBlock) : aes128Enc k (aes128Dec k x) = x :=
  aesCipher_aesInvCipher _ x

@[simp] theorem aes256Dec_aes256Enc (k : Bytes) (x : AesBlock) : aes256Dec k (aes256Enc k x) = x :=
  aesInvCipher_aesCipher _ x

@[simp] theorem aes256Enc_aes256Dec (k : Bytes) (x : AesBlock) : aes256Enc k (aes256Dec k x) = x :=
  aesCipher_aesInvCipher _ x

/-- Settles O52: the ciphers are inverse under every list of round keys, whatever the key schedule. -/
theorem aesDecryptionInvertsEncryption : Obligations.AesDecryptionInvertsEncryption := fun k x =>
  ⟨aes128Dec_aes128Enc k x, aes128Enc_aes128Dec k x, aes256Dec_aes256Enc k x, aes256Enc_aes256Dec k x⟩

end Sys2Proof.Machine
end

section
/-! SUPPORT. ECB and CBC (R15, R16) are inverted by their inverses: block by block, and along the
chain for every preceding cipher block. -/

namespace Sys2Proof.Machine

theorem cbcDecChain_cbcEncChain (k : Bytes) (prev : AesBlock) (xs : List AesBlock) :
    cbcDecChain k prev (cbcEncChain k prev xs) = xs := by
  induction xs generalizing prev with
  | nil => rfl
  | cons x xs ih => simp [cbcEncChain, cbcDecChain, ih]

theorem cbcEncChain_cbcDecChain (k : Bytes) (prev : AesBlock) (cs : List AesBlock) :
    cbcEncChain k prev (cbcDecChain k prev cs) = cs := by
  induction cs generalizing prev with
  | nil => rfl
  | cons c cs ih => simp [cbcEncChain, cbcDecChain, ih]

theorem cbcDec_cbcEnc (k : Bytes) {x : Bytes} (h : x.length % 16 = 0) :
    cbcDec k (cbcEnc k x) = x := by
  rw [cbcDec, cbcEnc, toBlocks_ofBlocks, cbcDecChain_cbcEncChain, ofBlocks_toBlocks x h]

theorem cbcEnc_cbcDec (k : Bytes) {x : Bytes} (h : x.length % 16 = 0) :
    cbcEnc k (cbcDec k x) = x := by
  rw [cbcEnc, cbcDec, toBlocks_ofBlocks, cbcEncChain_cbcDecChain, ofBlocks_toBlocks x h]

theorem ecbDec_ecbEnc (k : Bytes) {x : Bytes} (h : x.length % 16 = 0) :
    ecbDec k (ecbEnc k x) = x := by
  simp [ecbDec, ecbEnc, Function.comp_def, ofBlocks_toBlocks x h]

theorem ecbEnc_ecbDec (k : Bytes) {x : Bytes} (h : x.length % 16 = 0) :
    ecbEnc k (ecbDec k x) = x := by
  simp [ecbDec, ecbEnc, Function.comp_def, ofBlocks_toBlocks x h]

/-- Settles O53: lengths count whole blocks, and each mode is inverse block by block. -/
theorem modesInvertOnWholeBlocks : Obligations.ModesInvertOnWholeBlocks := by
  intro k x h
  have hlen : 16 * (x.length / 16) = x.length := by omega
  exact ⟨(length_cbcEnc k x).trans hlen, cbcDec_cbcEnc k h, cbcEnc_cbcDec k h,
    (length_ecbEnc k x).trans hlen, ecbDec_ecbEnc k h, ecbEnc_ecbDec k h⟩

end Sys2Proof.Machine
end

section
/-! SUPPORT. `CMD.SETF` and `CMD.GETF` of a field that `LOOKUP` accepts (R113 to R116), and the fields
a well-formed configuration guarantees to be accepted (R57, R254). -/

namespace Sys2Proof.Machine

/-- `CMD.SETF` of a field that `LOOKUP` accepts and that fits a byte. -/
theorem execCmdSetf_of_lookup {s : State} {a : Half} {f : Field} (hf : fieldLookup s a = some f)
    (hw : f.s + f.w ≤ 8) (b : Half) :
    execCmdSetf a b s = .next (succeed (setField f b s) 0 0 []) := by
  simp [execCmdSetf, hf, hw]

/-- `CMD.GETF` of a field that `LOOKUP` accepts. -/
theorem execCmdGetf_of_lookup {s : State} {a : Half} {f : Field} (hf : fieldLookup s a = some f) :
    execCmdGetf a s =
      .next (succeed s (BitVec.ofNat 16 (getFieldBits (cmdByte s f.o) f.s f.w)) 0 []) := by
  simp [execCmdGetf, hf]

/-- A raw field of width `w` is below `2^w`. -/
theorem getFieldBits_lt (x : Byte) (s w : Nat) : getFieldBits x s w < 2 ^ w := by
  rw [getFieldBits_eq]
  exact Nat.mod_lt _ (Nat.two_pow_pos w)

/-- Settles O54: the loaded length is that of a template of the loaded kind, so what fits every
template passes `LOOKUP`. -/
theorem wellFormedFieldsAreNeverOutOfRange : Obligations.WellFormedFieldsAreNeverOutOfRange := by
  intro s a b f k hi hl hf hk
  refine ⟨(hi.length_bounds hl hk).2, fun hfit => ?_⟩
  have hfits : fieldFits f k = true := hfit.elim (fieldFits_of_wf · hf hk) id
  have ho : f.o < s.cmdLen.val - 2 := hi.field_in_range hl hk hfits
  have hlook : fieldLookup s a = some f := fieldLookup_some.2 ⟨hl, hf, ho⟩
  refine ⟨ho, ⟨_, execCmdSetf_of_lookup hlook (field_wf hi.cfgWf hf).2 b, rfl⟩,
    _, _, execCmdGetf_of_lookup hlook, rfl, ?_⟩
  rw [BitVec.toNat_ofNat]
  exact Nat.lt_of_le_of_lt (Nat.mod_le _ _) (getFieldBits_lt _ _ _)

end Sys2Proof.Machine
end

section
/-! SUPPORT. What the block never reads: the two sides of its port, and the session key outside the
encrypted frame operations (R26, R42, R60). Each instruction is run on a state and on the same state
with another key, last response and list of events. -/

namespace Sys2Proof.Machine

/-- The state with another session key, last response and list of events to come. -/
def State.withHidden (k : Vector Byte 32) (q : Option Response) (p : List PortEvent) (s : State) :
    State :=
  { s with tcpKey := k, resp := q, pending := p }

/-- How the outcome on `s.withHidden k q p` (second) follows from that on `s` (first): the same fault,
or the next state that differs in the events and, where the key was not written, in the key. No
constructor allows a refusal. -/
inductive HiddenAgrees (k : Vector Byte 32) (p : List PortEvent) (s : State) :
    Host.Outcome State Fault Refusal → Host.Outcome State Fault Refusal → Prop where
  | keyKept (t : State) (hk : t.tcpKey = s.tcpKey) :
      HiddenAgrees k p s (.next t) (.next { t with tcpKey := k, pending := p })
  | keyWritten (t : State) : HiddenAgrees k p s (.next t) (.next { t with pending := p })
  | fault (f : Fault) : HiddenAgrees k p s (.fault f) (.fault f)

/-- The instruction encodes or decodes no encrypted frame under a valid key. -/
def UsesNoKey (i : Instr) (s : State) : Prop :=
  (∀ mt p r, i = .frmEnc mt p r → s.keyValid = true → encKind s.cfg mt = false) ∧
    (∀ b, i = .frmDec b → s.keyValid = true →
      ∀ pad mt ct sig, parseFrame s.cfg b ≠ .ok (.encrypted pad mt ct sig)) ∧
    (i.isRequest = false → s.keyValid = true →
      ∀ pad mt ct sig, parseFrame s.cfg (encode i).inp ≠ .ok (.encrypted pad mt ct sig))

section
variable {k : Vector Byte 32} {p : List PortEvent} {s : State} {c : Prop} [Decidable c]

/-- Two runs that take the same branch agree if they agree in it. -/
theorem HiddenAgrees.ite {x y x' y' : Host.Outcome State Fault Refusal}
    (hx : c → HiddenAgrees k p s x x') (hy : ¬c → HiddenAgrees k p s y y') :
    HiddenAgrees k p s (if c then x else y) (if c then x' else y') := by
  by_cases h : c
  · simpa only [if_pos h] using hx h
  · simpa only [if_neg h] using hy h

theorem HiddenAgrees.next_ite {x y x' y' : State}
    (hx : c → HiddenAgrees k p s (.next x) (.next x'))
    (hy : ¬c → HiddenAgrees k p s (.next y) (.next y')) :
    HiddenAgrees k p s (.next (if c then x else y)) (.next (if c then x' else y')) := by
  simpa only [apply_ite] using HiddenAgrees.ite hx hy

end

section
variable (k : Vector Byte 32) (q : Option Response) (p : List PortEvent) (s : State)

@[simp] theorem withHidden_cfg : (s.withHidden k q p).cfg = s.cfg := rfl
@[simp] theorem withHidden_keyValid : (s.withHidden k q p).keyValid = s.keyValid := rfl
@[simp] theorem withHidden_cmdLen : (s.withHidden k q p).cmdLen = s.cmdLen := rfl
@[simp] theorem withHidden_cmdKind : (s.withHidden k q p).cmdKind = s.cmdKind := rfl
@[simp] theorem withHidden_cmdLoaded : (s.withHidden k q p).cmdLoaded = s.cmdLoaded := rfl
@[simp] theorem fieldLookup_withHidden (a : Half) :
    fieldLookup (s.withHidden k q p) a = fieldLookup s a := rfl

theorem execCmdLoad_hidden (a b : Half) :
    HiddenAgrees k p s (execCmdLoad a b s) (execCmdLoad a b (s.withHidden k q p)) := by
  simp only [execCmdLoad, withHidden_cfg]
  cases kindOf s.cfg a with
  | none => exact .keyKept _ rfl
  | some kind =>
    dsimp only
    cases templateOf kind b with
    | none => exact .keyKept _ rfl
    | some x => exact .ite (fun _ => .keyKept _ rfl) (fun _ => .fault _)

theorem execCmdSetf_hidden (a b : Half) :
    HiddenAgrees k p s (execCmdSetf a b s) (execCmdSetf a b (s.withHidden k q p)) := by
  simp only [execCmdSetf, fieldLookup_withHidden]
  cases fieldLookup s a with
  | none => exact .keyKept _ rfl
  | some f => exact .ite (fun _ => .keyKept _ rfl) (fun _ => .fault _)

theorem execCmdGetf_hidden (a : Half) :
    HiddenAgrees k p s (execCmdGetf a s) (execCmdGetf a (s.withHidden k q p)) := by
  simp only [execCmdGetf, fieldLookup_withHidden]
  cases fieldLookup s a with
  | none => exact .keyKept _ rfl
  | some f => exact .keyKept _ rfl

theorem execCmdFin_hidden :
    HiddenAgrees k p s (execCmdFin s) (execCmdFin (s.withHidden k q p)) := by
  simp only [execCmdFin, withHidden_cfg, withHidden_cmdLen, withHidden_cmdKind, withHidden_cmdLoaded]
  refine .ite (fun _ => ?_) (fun _ => .keyKept _ rfl)
  cases kindOf s.cfg s.cmdKind with
  | none => exact .fault _
  | some kind =>
    refine .ite (fun _ => .fault _) (fun _ => ?_)
    cases kind.seqOff with
    | none => exact .keyKept _ rfl
    | some off => exact .ite (fun _ => .keyKept _ rfl) (fun _ => .fault _)

theorem execCmdRd_hidden :
    HiddenAgrees k p s (execCmdRd s) (execCmdRd (s.withHidden k q p)) :=
  .ite (fun _ => .keyKept _ rfl) (fun _ => .keyKept _ rfl)

theorem execEnvBuild_hidden (d : Bytes) :
    HiddenAgrees k p s (execEnvBuild d s) (execEnvBuild d (s.withHidden k q p)) :=
  .next_ite (fun _ => .keyKept _ rfl) (fun _ => .keyKept _ rfl)

theorem execEnvDec_hidden (x : Bytes) :
    HiddenAgrees k p s (execEnvDec x s) (execEnvDec x (s.withHidden k q p)) :=
  .next_ite (fun _ => .keyKept _ rfl) (fun _ => .keyKept _ rfl)

/-- A handshake reads no old key and, past the operand check, always writes one. -/
theorem execHsDerive_hidden (y pk : Bytes) :
    HiddenAgrees k p s (execHsDerive y pk s) (execHsDerive y pk (s.withHidden k q p)) := by
  refine .next_ite (fun _ => ?_) (fun _ => .keyKept _ rfl)
  refine .next_ite (fun _ => .keyWritten _) (fun _ => ?_)
  refine .next_ite (fun _ => .keyWritten _) (fun _ => ?_)
  exact .next_ite (fun _ => .keyWritten _) (fun _ => .keyWritten _)

variable {k s}

/-- A frame of a plain kind is the header and the data in clear (R85). -/
theorem encodedFrame_plain {mt : Nibble} (h : encKind s.cfg mt = false) (x r : Bytes) :
    encodedFrame s mt x r = encodedHeader s.cfg mt x ++ frameData s mt x r := by
  simp [encodedFrame, h]

/-- A frame the encoder returns depends on the key only for an encrypted kind (R150). -/
theorem encodedFrame_withHidden {mt : Nibble} (h : k = s.tcpKey ∨ encKind s.cfg mt = false)
    (x r : Bytes) : encodedFrame (s.withHidden k q p) mt x r = encodedFrame s mt x r := by
  rcases h with rfl | hplain
  · rfl
  · exact (encodedFrame_plain (s := s.withHidden k q p) hplain x r).trans
      (encodedFrame_plain hplain x r).symm

/-- `FRM.ENC` reads the key only for an encrypted kind under a valid key (R150). -/
theorem execFrmEnc_hidden {mt : Nibble}
    (h : k = s.tcpKey ∨ (s.keyValid = true → encKind s.cfg mt = false)) (x r : Bytes) :
    HiddenAgrees k p s (execFrmEnc mt x r s) (execFrmEnc mt x r (s.withHidden k q p)) := by
  refine .next_ite (fun _ => .keyKept _ rfl) (fun hready => ?_)
  refine .next_ite (fun _ => .keyKept _ rfl) (fun _ => ?_)
  refine .next_ite (fun _ => .keyKept _ rfl) (fun _ => ?_)
  have hframe : k = s.tcpKey ∨ encKind s.cfg mt = false := h.imp_right fun hplain => by
    cases hv : s.keyValid with
    | true => exact hplain hv
    | false => simpa [hv] using hready
  rw [encodedFrame_withHidden q p hframe]
  exact .keyKept _ rfl

/-- An encrypted kind meets the key only while it is valid (R166). -/
theorem receiveEncrypted_hidden (h : k = s.tcpKey ∨ s.keyValid = false) (hdr : Bytes)
    (pad mt : Nibble) (ct sig : Bytes) :
    HiddenAgrees k p s (.next (receiveEncrypted hdr pad mt ct sig s))
      (.next (receiveEncrypted hdr pad mt ct sig (s.withHidden k q p))) := by
  refine .next_ite (fun hv => ?_) (fun _ => .keyKept _ rfl)
  obtain rfl : k = s.tcpKey := h.resolve_right (by simp [hv])
  refine .next_ite (fun _ => ?_) (fun _ => .keyWritten _)
  exact .next_ite (fun _ => .keyKept _ rfl) (fun _ => .keyKept _ rfl)

/-- The parser reads the key only for an encrypted frame under a valid key (R160, R169). -/
theorem receiveFrame_hidden {b : Bytes}
    (h : k = s.tcpKey ∨ (s.keyValid = true →
      ∀ pad mt ct sig, parseFrame s.cfg b ≠ .ok (.encrypted pad mt ct sig))) :
    HiddenAgrees k p s (.next (receiveFrame b s)) (.next (receiveFrame b (s.withHidden k q p))) := by
  simp only [receiveFrame, withHidden_cfg]
  cases hb : parseFrame s.cfg b with
  | error e => exact .keyKept _ rfl
  | ok f =>
    cases f with
    | encrypted pad mt ct sig =>
      have hkey : k = s.tcpKey ∨ s.keyValid = false :=
        h.imp_right fun h => Bool.eq_false_iff.2 fun hv => h hv pad mt ct sig hb
      exact receiveEncrypted_hidden q p hkey _ pad mt ct sig
    | plain pad mt body => exact .keyKept _ rfl

/-- Every instruction agrees with itself under other hidden fields: with the same key, or with any key
if it uses none. -/
theorem exec_hidden {i : Instr} (h : k = s.tcpKey ∨ UsesNoKey i s) :
    HiddenAgrees k p s (exec i s) (exec i (s.withHidden k q p)) := by
  cases i with
  | crc8 x => exact .keyKept _ rfl
  | cmdLoad a b => exact execCmdLoad_hidden k q p s a b
  | cmdSetf a b => exact execCmdSetf_hidden k q p s a b
  | cmdGetf a => exact execCmdGetf_hidden k q p s a
  | cmdFin => exact execCmdFin_hidden k q p s
  | cmdRd => exact execCmdRd_hidden k q p s
  | envBuild d => exact execEnvBuild_hidden k q p s d
  | envDec x => exact execEnvDec_hidden k q p s x
  | frmEnc mt x r => exact execFrmEnc_hidden q p (h.imp_right fun ⟨henc, _, _⟩ => henc mt x r rfl) x r
  | frmDec b => exact receiveFrame_hidden q p (h.imp_right fun ⟨_, hdec, _⟩ => hdec b rfl)
  | hsDerive y pk => exact execHsDerive_hidden k q p s y pk
  | sesDrop => exact .keyWritten _
  | statRd => exact .keyKept _ rfl
  | illegal op => exact .keyKept _ rfl
  | frameEncrypted pad mt ct sig =>
    exact receiveFrame_hidden q p (h.imp_right fun ⟨_, _, hrow⟩ => hrow rfl)
  | framePlain pad mt body =>
    exact receiveFrame_hidden q p (h.imp_right fun ⟨_, _, hrow⟩ => hrow rfl)

end

/-- No instruction takes an event from the port; only `step` does (R60). -/
theorem exec_pending {i : Instr} {s t : State} (h : exec i s = .next t) : t.pending = s.pending := by
  cases exec_shape h <;> rfl

/-- Settles O18: a second run that differs in the key alone agrees with the first, and no instruction
touches the list of events. -/
theorem sessionKeyIsNotDisclosed : Obligations.SessionKeyIsNotDisclosed := by
  intro i s t k hkey h
  have hagree : HiddenAgrees k s.pending s (exec i s) (exec i { s with tcpKey := k }) :=
    exec_hidden s.resp s.pending (.inr hkey)
  rw [h] at hagree
  generalize exec i { s with tcpKey := k } = o at hagree ⊢
  cases hagree with
  | keyKept => exact .inr (by rw [← exec_pending h])
  | keyWritten => exact .inl (by rw [← exec_pending h])

/-- Settles O19: a second run with the same key and another port agrees with the first. -/
theorem portFieldsDecideNothing : Obligations.PortFieldsDecideNothing := by
  intro i s q p
  have hagree : HiddenAgrees s.tcpKey p s (exec i s) (exec i { s with resp := q, pending := p }) :=
    exec_hidden q p (.inl rfl)
  generalize exec i s = o, exec i { s with resp := q, pending := p } = o' at hagree ⊢
  cases hagree with
  | keyKept t hk => simp [← hk]
  | keyWritten t => simp
  | fault f => simp

end Sys2Proof.Machine
end

section
/-! SUPPORT. Who writes each register: for every group of registers, an instruction that answers is one
of the group's writers (R23, R30) or leaves the group as it was. -/

namespace Sys2Proof.Machine

section
variable {i : Instr} {s t : State}

theorem exec_seq (h : exec i s = .next t) : i = .cmdFin ∨ t.seq = s.seq := by
  cases exec_shape h with
  | finSequenced _ _ hi => exact .inl hi
  | _ => exact .inr rfl

theorem exec_reqCnt (h : exec i s = .next t) :
    ((∃ mt p r, i = .frmEnc mt p r) ∨ i = .sesDrop) ∨ t.reqCnt = s.reqCnt := by
  cases exec_shape h with
  | encode mt p r hi => exact .inl (.inl ⟨mt, p, r, hi⟩)
  | drop hi => exact .inl (.inr hi)
  | _ => exact .inr rfl

/-- The registers of the receiving side. -/
theorem exec_inbound (h : exec i s = .next t) :
    (handsFrame i ∨ i = .sesDrop) ∨
      t.rspCnt = s.rspCnt ∧ t.rxCtr = s.rxCtr ∧ t.ctrMismatch = s.ctrMismatch := by
  cases exec_shape h with
  | accept _ _ hi => exact .inl (.inl hi)
  | drop hi => exact .inl (.inr hi)
  | _ => exact .inr ⟨rfl, rfl, rfl⟩

/-- The session key and its flag: only a handshake may set the flag. -/
theorem exec_key (h : exec i s = .next t) :
    (∃ y pk, i = .hsDerive y pk) ∨ ((handsFrame i ∨ i = .sesDrop) ∧ t.keyValid = false) ∨
      t.keyValid = s.keyValid ∧ t.tcpKey = s.tcpKey := by
  cases exec_shape h with
  | badSignature hi => exact .inr (.inl ⟨.inl hi, rfl⟩)
  | noHandshake y pk _ hi => exact .inl ⟨y, pk, hi⟩
  | handshake y pk _ hi => exact .inl ⟨y, pk, hi⟩
  | drop hi => exact .inr (.inl ⟨.inr hi, rfl⟩)
  | _ => exact .inr (.inr ⟨rfl, rfl⟩)

/-- The command registers: only `CMD.LOAD` writes them. -/
theorem exec_command (h : exec i s = .next t) :
    ((∃ a b, i = .cmdLoad a b) ∧ t.cmdLoaded = true) ∨
      t.cmdLen = s.cmdLen ∧ t.cmdKind = s.cmdKind ∧ t.cmdLoaded = s.cmdLoaded := by
  cases exec_shape h with
  | load a b _ _ hi => exact .inl ⟨⟨a, b, hi⟩, rfl⟩
  | _ => exact .inr ⟨rfl, rfl, rfl⟩

/-- The command buffer and `CMD_FINAL`: a write to the buffer decides the flag. -/
theorem exec_buffer (h : exec i s = .next t) :
    (((∃ a b, i = .cmdLoad a b) ∨ ∃ a b, i = .cmdSetf a b) ∧ t.cmdFinal = false) ∨
      (i = .cmdFin ∧ t.cmdFinal = true) ∨ t.cmdFinal = s.cmdFinal ∧ t.cmd = s.cmd := by
  cases exec_shape h with
  | load a b _ _ hi => exact .inl ⟨.inl ⟨a, b, hi⟩, rfl⟩
  | setf a b _ hi => exact .inl ⟨.inr ⟨a, b, hi⟩, rfl⟩
  | finPlain _ hi => exact .inr (.inl ⟨hi, rfl⟩)
  | finSequenced _ _ hi => exact .inr (.inl ⟨hi, rfl⟩)
  | _ => exact .inr (.inr ⟨rfl, rfl⟩)

end

/-- Settles O17: the clauses of each group of registers follow from its lemma. -/
theorem registersChangeOnlyByTheirWriters : Obligations.RegistersChangeOnlyByTheirWriters := by
  intro i s t h
  have hin := exec_inbound h
  have hkey := exec_key h
  have hcmd := exec_command h
  have hbuf := exec_buffer h
  have hkeyWriter (hw : ¬(t.keyValid = s.keyValid ∧ t.tcpKey = s.tcpKey)) :
      (∃ y pk, i = .hsDerive y pk) ∨ (∃ b, i = .frmDec b) ∨ i.isRequest = false ∨ i = .sesDrop :=
    hkey.imp_right fun hkey => or_assoc.1 (hkey.resolve_right hw).1
  exact ⟨(exec_seq h).resolve_right, (exec_reqCnt h).resolve_right,
    fun hne => or_assoc.1 (hin.resolve_right fun ⟨hrsp, _, _⟩ => hne hrsp),
    fun hne => or_assoc.1 (hin.resolve_right fun ⟨_, hrx, _⟩ => hne hrx),
    fun hne => or_assoc.1 (hin.resolve_right fun ⟨_, _, hctr⟩ => hne hctr),
    fun hs ht => by simpa [hs, ht] using hkey,
    fun hs ht => hkeyWriter (by simp [hs, ht]),
    fun hne => hkeyWriter fun ⟨_, hk⟩ => hne hk,
    fun hne => (hcmd.resolve_right fun ⟨hlen, _, _⟩ => hne hlen).1,
    fun hne => (hcmd.resolve_right fun ⟨_, hkind, _⟩ => hne hkind).1,
    fun hs ht => by simpa [hs, ht] using hcmd,
    fun hs => hcmd.elim (fun ⟨_, hl⟩ => hl) fun ⟨_, _, hl⟩ => hl.trans hs,
    fun hs ht => by simpa [hs, ht] using hbuf,
    fun hs ht => by simpa [hs, ht] using hbuf,
    fun hne => hbuf.elim (fun ⟨hw, _⟩ => or_assoc.1 (.inl hw)) fun hbuf =>
      .inr (.inr (hbuf.resolve_right fun ⟨_, hm⟩ => hne hm).1)⟩

end Sys2Proof.Machine
end

section
/-! SUPPORT. The five reading operations (R55), and a step on each kind of port list (R60, R260). -/

namespace Sys2Proof.Machine

/-- A reading operation writes nothing but the response, whether it succeeds or fails. -/
theorem exec_read_frame {i : Instr} {s t : State}
    (hread : (∃ a, i = .cmdGetf a) ∨ i = .cmdRd ∨ i = .statRd ∨ (∃ x, i = .crc8 x) ∨
      (∃ x, i = .envDec x))
    (h : exec i s = .next t) : t = { s with resp := t.resp } := by
  rcases hread with ⟨a, rfl⟩ | rfl | rfl | ⟨x, rfl⟩ | ⟨x, rfl⟩
  · rcases execCmdGetf_next h with ⟨_, rfl⟩ | ⟨_, _, rfl⟩ <;> rfl
  · rcases execCmdRd_next h with ⟨_, rfl⟩ | ⟨_, rfl⟩ <;> rfl
  · cases h; rfl
  · cases h; rfl
  · rcases execEnvDec_next h with ⟨_, rfl⟩ | ⟨_, rfl⟩ <;> rfl

/-- An instruction does not read the last response, so one that writes only the response repeats. -/
theorem exec_repeats {i : Instr} {s t : State} (h : exec i s = .next t)
    (hframe : t = { s with resp := t.resp }) : exec i t = .next t := by
  have hagain : exec i { s with resp := t.resp } = .next { t with pending := s.pending } :=
    (portFieldsDecideNothing i s t.resp s.pending).1 t h
  rwa [← hframe, ← exec_pending h] at hagain

/-- Settles O16: the five operations write only the response, which no instruction reads. -/
theorem readsHaveNoSideEffect : Obligations.ReadsHaveNoSideEffect := by
  intro i s t hread h
  have hframe := exec_read_frame hread h
  exact ⟨hframe, exec_repeats h hframe⟩

/-- A request that decodes is taken from the port and its instruction run (R60). -/
theorem step_request {s : State} {r : Request} {rest : List PortEvent} {i : Instr}
    (hp : s.pending = .request r :: rest) (hd : decode r = .ok i) :
    step s = exec i { s with pending := rest } := by
  simp only [step, takeEvent, hp, hd]

/-- With nothing at the port the block waits (R260). -/
theorem step_idle {s : State} (hp : s.pending = []) : step s = .next s := by
  simp only [step, takeEvent, hp]

/-- Settles O4: the two clauses are the steps on a presented request and on an empty port. -/
theorem stepRunsTheDecodedInstruction : Obligations.StepRunsTheDecodedInstruction :=
  ⟨fun _ _ _ _ => step_request, fun _ => step_idle⟩

end Sys2Proof.Machine
end

section
/-! SUPPORT. The request decoder (R70 to R77): the rows of the operation-code table as a relation, which
`decodeOp` computes, and its inverse, the encoder. -/

namespace Sys2Proof.Machine

theorem request_wf_iff (r : Request) :
    r.wf = true ↔ r.inp.length ≤ 65535 ∧ r.aux.length ≤ 65535 ∧ r.rand.length ≤ 65535 := by
  simp only [Request.wf, Bool.and_eq_true, decide_eq_true_eq, and_assoc]
  rfl

theorem reservedOp_iff (op : Byte) : reservedOp op = true ↔ op = 0x00 ∨ 0x0E ≤ op.toNat := by
  simp [reservedOp]

/-- The message type of `FRM.ENC`: bits 15:4 of `A` are dropped (R151). -/
theorem setWidth_four_eq (a : Half) : a.setWidth 4 = BitVec.ofNat 4 (a.toNat % 16) := by
  apply BitVec.eq_of_toNat_eq
  simp

/-- The rows of the operation-code table (R72, R73, R75): the code of the record and the instruction it
selects. -/
inductive DecodesTo (r : Request) : Instr → Prop where
  | crc8 (h : r.op = 0x01) : DecodesTo r (.crc8 r.inp)
  | cmdLoad (h : r.op = 0x02) : DecodesTo r (.cmdLoad r.a r.b)
  | cmdSetf (h : r.op = 0x03) : DecodesTo r (.cmdSetf r.a r.b)
  | cmdGetf (h : r.op = 0x04) : DecodesTo r (.cmdGetf r.a)
  | cmdFin (h : r.op = 0x05) : DecodesTo r .cmdFin
  | cmdRd (h : r.op = 0x06) : DecodesTo r .cmdRd
  | envBuild (h : r.op = 0x07) : DecodesTo r (.envBuild r.aux)
  | envDec (h : r.op = 0x08) : DecodesTo r (.envDec r.inp)
  | frmEnc (h : r.op = 0x09) : DecodesTo r (.frmEnc (r.a.setWidth 4) r.inp r.rand)
  | frmDec (h : r.op = 0x0A) : DecodesTo r (.frmDec r.inp)
  | hsDerive (h : r.op = 0x0B) : DecodesTo r (.hsDerive r.inp r.aux)
  | sesDrop (h : r.op = 0x0C) : DecodesTo r .sesDrop
  | statRd (h : r.op = 0x0D) : DecodesTo r .statRd
  | illegal (h : reservedOp r.op = true) : DecodesTo r (.illegal r.op)

/-- Every record has a row, the one `decodeOp` answers. -/
theorem decodesTo_decodeOp (r : Request) : DecodesTo r (decodeOp r) := by
  unfold decodeOp
  split
  · next h => exact .crc8 (BitVec.eq_of_toNat_eq h)
  · next h => exact .cmdLoad (BitVec.eq_of_toNat_eq h)
  · next h => exact .cmdSetf (BitVec.eq_of_toNat_eq h)
  · next h => exact .cmdGetf (BitVec.eq_of_toNat_eq h)
  · next h => exact .cmdFin (BitVec.eq_of_toNat_eq h)
  · next h => exact .cmdRd (BitVec.eq_of_toNat_eq h)
  · next h => exact .envBuild (BitVec.eq_of_toNat_eq h)
  · next h => exact .envDec (BitVec.eq_of_toNat_eq h)
  · next h => exact .frmEnc (BitVec.eq_of_toNat_eq h)
  · next h => exact .frmDec (BitVec.eq_of_toNat_eq h)
  · next h => exact .hsDerive (BitVec.eq_of_toNat_eq h)
  · next h => exact .sesDrop (BitVec.eq_of_toNat_eq h)
  · next h => exact .statRd (BitVec.eq_of_toNat_eq h)
  · have hop : r.op = 0x00 ∨ 0x0E ≤ r.op.toNat := by
      simp only [imp_false] at *
      bv_omega
    exact .illegal ((reservedOp_iff _).2 hop)

/-- The row of a record gives the record's own code. -/
theorem DecodesTo.opcodeOf_eq {r : Request} {i : Instr} (h : DecodesTo r i) : opcodeOf i = r.op := by
  cases h with
  | illegal => rfl
  | _ h => exact h.symm

theorem DecodesTo.isRequest {r : Request} {i : Instr} (h : DecodesTo r i) : i.isRequest = true := by
  cases h <;> rfl

/-- A record has no other row than the one `decodeOp` answers. -/
theorem DecodesTo.decodeOp_eq {r : Request} {i : Instr} (h : DecodesTo r i) : decodeOp r = i := by
  cases h with
  | illegal h =>
    have hop := (reservedOp_iff _).1 h
    unfold decodeOp
    split
    case h_14 => rfl
    all_goals bv_omega
  | _ h => simp [decodeOp, h]

theorem DecodesTo.decode_eq {r : Request} {i : Instr} (h : DecodesTo r i) (hw : r.wf = true) :
    decode r = .ok i := by
  rw [decode, if_pos hw, h.decodeOp_eq]

/-- The row of a record is `ILLEGAL` exactly for a reserved code. -/
theorem DecodesTo.illegal_iff {r : Request} {i : Instr} (h : DecodesTo r i) :
    (∃ op, i = .illegal op) ↔ r.op = 0x00 ∨ 0x0E ≤ r.op.toNat := by
  rw [← reservedOp_iff]
  cases h with
  | illegal h => exact ⟨fun _ => h, fun _ => ⟨_, rfl⟩⟩
  | _ h => simp [h, reservedOp]

/-- Settles O5: each clause is one row of the table. -/
theorem operationCodesSelectTheirOperations : Obligations.OperationCodesSelectTheirOperations := by
  intro r hinp haux hrand
  have row {i : Instr} (h : DecodesTo r i) : decode r = .ok i :=
    h.decode_eq ((request_wf_iff r).2 ⟨hinp, haux, hrand⟩)
  exact ⟨fun h => row (.crc8 h), fun h => row (.cmdLoad h), fun h => row (.cmdSetf h),
    fun h => row (.cmdGetf h), fun h => row (.cmdFin h), fun h => row (.cmdRd h),
    fun h => row (.envBuild h), fun h => row (.envDec h),
    fun h => setWidth_four_eq r.a ▸ row (.frmEnc h), fun h => row (.frmDec h),
    fun h => row (.hsDerive h), fun h => row (.sesDrop h), fun h => row (.statRd h)⟩

/-- Settles O6: the last row of the table, and the one thing `ILLEGAL` does. -/
theorem reservedCodesAreIllegalOperations : Obligations.ReservedCodesAreIllegalOperations :=
  ⟨fun _ hw hop => (DecodesTo.illegal ((reservedOp_iff _).2 hop)).decode_eq hw, fun _ _ => rfl⟩

/-- Settles O8: every record has a row, and only its strings' lengths can refuse it. -/
theorem everyRecordDecodesToItsCode : Obligations.EveryRecordDecodesToItsCode := by
  refine fun r => ⟨fun hlen => ?_, fun hlong => ?_⟩
  · have hrow := decodesTo_decodeOp r
    exact ⟨decodeOp r, hrow.decode_eq ((request_wf_iff r).2 hlen), hrow.opcodeOf_eq, hrow.isRequest,
      hrow.illegal_iff⟩
  · rw [decode, if_neg]
    rw [request_wf_iff]
    omega

/-- The record of a well-formed instruction is one the port can carry, under its own code (R70, R77). -/
theorem encodeBounded (i : Instr) : Laws.EncodeBounded.Statement i := by
  cases i with
  | crc8 x => exact Laws.EncodeBounded.crc8 x
  | cmdLoad k d => exact Laws.EncodeBounded.cmdLoad k d
  | cmdSetf f v => exact Laws.EncodeBounded.cmdSetf f v
  | cmdGetf f => exact Laws.EncodeBounded.cmdGetf f
  | cmdFin => exact Laws.EncodeBounded.cmdFin
  | cmdRd => exact Laws.EncodeBounded.cmdRd
  | envBuild d => exact Laws.EncodeBounded.envBuild d
  | envDec x => exact Laws.EncodeBounded.envDec x
  | frmEnc mt p r => exact Laws.EncodeBounded.frmEnc mt p r
  | frmDec b => exact Laws.EncodeBounded.frmDec b
  | hsDerive y pk => exact Laws.EncodeBounded.hsDerive y pk
  | sesDrop => exact Laws.EncodeBounded.sesDrop
  | statRd => exact Laws.EncodeBounded.statRd
  | illegal op => exact Laws.EncodeBounded.illegal op
  | frameEncrypted pad mt ct sig => exact Laws.EncodeBounded.frameEncrypted pad mt ct sig
  | framePlain pad mt body => exact Laws.EncodeBounded.framePlain pad mt body

/-- The record of a well-formed request row has that row. -/
theorem decodesTo_encode {cfg : Cfg} {i : Instr} (h : i.wf cfg = true) (hr : i.isRequest = true) :
    DecodesTo (encode i) i := by
  cases i with
  | crc8 x => exact .crc8 rfl
  | cmdLoad k d => exact .cmdLoad rfl
  | cmdSetf f v => exact .cmdSetf rfl
  | cmdGetf f => exact .cmdGetf rfl
  | cmdFin => exact .cmdFin rfl
  | cmdRd => exact .cmdRd rfl
  | envBuild d => exact .envBuild rfl
  | envDec x => exact .envDec rfl
  | frmEnc mt p r =>
    have hmt : (mt.setWidth 16).setWidth 4 = mt := by simp
    have hrow : DecodesTo (encode (.frmEnc mt p r)) (.frmEnc ((mt.setWidth 16).setWidth 4) p r) :=
      .frmEnc rfl
    rwa [hmt] at hrow
  | frmDec b => exact .frmDec rfl
  | hsDerive y pk => exact .hsDerive rfl
  | sesDrop => exact .sesDrop rfl
  | statRd => exact .statRd rfl
  | illegal op => exact .illegal h
  | frameEncrypted => cases hr
  | framePlain => cases hr

end Sys2Proof.Machine
end

section
/-! SUPPORT. The frame parser as the inverse of the frame layout (R83 to R90): what it accepts is the
layout of what it read, and it accepts the layout of every well-formed frame. -/

namespace Sys2Proof.Machine

theorem bytes_encrypted (pad mt : Nibble) (ct : Bytes) {sig : Bytes} (hs : sig.length = 32) :
    (Frame.encrypted pad mt ct sig).bytes = frameHeader (ct.length + 30) pad mt ++ ct ++ sig := by
  rw [Frame.bytes, hs]
  rfl

/-- Everything the parser accepts: the two layouts of R84 and R85, each under a type of its class. -/
theorem parseFrame_ok_cases {cfg : Cfg} {b : Bytes} {f : Frame} (h : parseFrame cfg b = .ok f) :
    (∃ pad mt ct sig, f = .encrypted pad mt ct sig ∧ encKind cfg mt = true ∧ sig.length = 32 ∧
      16 ≤ ct.length ∧ ct.length % 16 = 0 ∧ b = f.bytes) ∨
    (∃ pad mt body, f = .plain pad mt body ∧ encKind cfg mt = false ∧ 2 ≤ body.length ∧
      b = f.bytes) := by
  obtain ⟨hb, h8, hsize⟩ := eq_header_of_parse h
  have hlen : (b.drop 6).length = b.length - 6 := List.length_drop
  generalize padOf (b.getD 5 0) = pad, mtypeOf (b.getD 5 0) = mt, b.drop 6 = rest at hb hlen
  rw [hb, parseFrame_header] at h
  split at h
  · cases h
  split at h
  · next hm =>
    split at h
    · cases h
    · next hct =>
      cases h
      have hsig : (rest.drop (rest.length - 32)).length = 32 := by rw [List.length_drop]; omega
      have hctLen : (rest.take (rest.length - 32)).length = rest.length - 32 := by
        rw [List.length_take]; omega
      refine .inl ⟨_, _, _, _, rfl, hm, hsig, by omega, by omega, ?_⟩
      rw [bytes_encrypted _ _ _ hsig, List.append_assoc, List.take_append_drop, hctLen,
        show rest.length - 32 + 30 = b.length - 8 by omega]
      exact hb
  · next hm =>
    cases h
    refine .inr ⟨_, _, _, rfl, Bool.eq_false_iff.2 hm, by omega, ?_⟩
    rw [Frame.bytes, show rest.length - 2 = b.length - 8 by omega]
    exact hb

/-- Settles O10: of the two layouts, `f` is the one its constructor names. -/
theorem parserKeepsEveryByte : Obligations.ParserKeepsEveryByte := by
  intro cfg b f h
  rcases parseFrame_ok_cases h with
    ⟨pad, mt, ct, sig, rfl, hm, hs, h16, hmod, hb⟩ | ⟨pad, mt, body, rfl, hm, h2, hb⟩
  · refine ⟨hb.symm, fun _ _ _ _ hf => ?_, fun _ _ _ hf => by cases hf⟩
    cases hf
    exact ⟨(encKind_iff _ _).1 hm, hs, h16, hmod⟩
  · refine ⟨hb.symm, fun _ _ _ _ hf => (by cases hf), fun _ _ _ hf => ?_⟩
    cases hf
    obtain ⟨hreq, hother⟩ := (encKind_false_iff _ _).1 hm
    exact ⟨hreq, hother, h2⟩

/-- The parser reads a well-formed frame back from its bytes. -/
theorem parseFrame_bytes {cfg : Cfg} {f : Frame} (h : f.wf cfg = true) :
    parseFrame cfg f.bytes = .ok f := by
  cases f with
  | encrypted pad mt ct sig =>
    simp only [Frame.wf, Bool.and_eq_true, decide_eq_true_eq] at h
    obtain ⟨⟨⟨⟨hm, h16⟩, hmod⟩, hs⟩, hsize⟩ := h
    rw [inMax] at hsize
    rw [bytes_encrypted pad mt ct hs]
    exact parseFrame_encrypted hm hs h16 hmod (by omega)
  | plain pad mt body =>
    simp only [Frame.wf, Bool.and_eq_true, decide_eq_true_eq, Bool.not_eq_true'] at h
    obtain ⟨⟨hm, h2⟩, hsize⟩ := h
    rw [inMax] at hsize
    exact parseFrame_plain hm h2 (by omega)

/-- The bytes of a well-formed frame decode to the instruction of its row. -/
theorem decodeFrame_bytes {cfg : Cfg} {f : Frame} (h : f.wf cfg = true) :
    decodeFrame cfg f.bytes = .ok f.toInstr := by
  rw [decodeFrame, parseFrame_bytes h]
  rfl

/-- Settles O7: the fifteen words are evaluated, and the two frames are the bytes of well-formed frames. -/
theorem wordsDecodeAsTheTableSays : Obligations.WordsDecodeAsTheTableSays := by
  have hplain : (Frame.plain 0x2 0x0 [0x12, 0x34, 0xFF]).wf t0 = true := by decide
  have hencrypted : (Frame.encrypted 0x7 0x3 (List.replicate 16 0xA1) (List.replicate 32 0x5B)).wf t0 =
      true := by decide
  exact ⟨rfl, rfl, rfl, rfl, rfl, rfl, rfl, rfl, rfl, rfl, rfl, rfl, rfl, rfl, rfl,
    decodeFrame_bytes hplain, decodeFrame_bytes hencrypted⟩

/-- Settles O9: a request row through its row of the code table, a frame row through the parser. -/
theorem decodeInvertsEncode : Obligations.DecodeInvertsEncode := by
  refine fun cfg i h => ⟨fun hr => (decodesTo_encode h hr).decode_eq (encodeBounded i cfg h).1, ?_⟩
  intro hr
  cases i with
  | frameEncrypted pad mt ct sig => exact decodeFrame_bytes (f := .encrypted pad mt ct sig) h
  | framePlain pad mt body => exact decodeFrame_bytes (f := .plain pad mt body) h
  | _ => cases hr

end Sys2Proof.Machine
end

section
/-! SUPPORT. The block never stops (R234, R260): under the invariant no instruction faults, and every
next state carries a response. -/

namespace Sys2Proof.Machine

/-- A template that a formed configuration holds fits the buffer (R7, R35). -/
theorem templateOf_le {c : Cfg} (hc : c.formed = true) {a b : Half} {k : Kind} {x : Bytes}
    (hk : kindOf c a = some k) (hx : templateOf k b = some x) : x.length ≤ cmdMax :=
  (template_wf (kind_wf hc hk) (mem_of_lookup hx)).2.1

theorem execCmdLoad_goesOn {s : State} (hi : s.Inv) (a b : Half) : goesOn (execCmdLoad a b s) := by
  unfold execCmdLoad
  cases hk : kindOf s.cfg a with
  | none => exact ⟨_, rfl⟩
  | some k =>
    dsimp only
    cases hx : templateOf k b with
    | none => exact ⟨_, rfl⟩
    | some x => exact ⟨_, if_pos (templateOf_le hi.cfgWf hk hx)⟩

theorem execCmdSetf_goesOn {s : State} (hi : s.Inv) (a b : Half) : goesOn (execCmdSetf a b s) := by
  cases hf : fieldLookup s a with
  | none => exact ⟨failWith .contractViolation s, by simp only [execCmdSetf, hf]⟩
  | some f =>
    obtain ⟨_, hrow, _⟩ := fieldLookup_some.1 hf
    exact ⟨_, execCmdSetf_of_lookup hf (field_wf hi.cfgWf hrow).2 b⟩

theorem execCmdGetf_goesOn (s : State) (a : Half) : goesOn (execCmdGetf a s) := by
  cases hf : fieldLookup s a with
  | none => exact ⟨failWith .contractViolation s, by simp only [execCmdGetf, hf]⟩
  | some f => exact ⟨_, execCmdGetf_of_lookup hf⟩

/-- `CMD.FIN` finds the kind, the trailer and the sequence byte of a loaded command (R112, R117). -/
theorem execCmdFin_goesOn {s : State} (hi : s.Inv) : goesOn (execCmdFin s) := by
  cases hl : s.cmdLoaded with
  | false => exact ⟨failWith .contractViolation s, by simp [execCmdFin, hl]⟩
  | true =>
    obtain ⟨k, hk⟩ := hi.kind_configured hl
    obtain ⟨h12, hoff⟩ := hi.length_bounds hl hk
    have hmax := s.cmdLen.isLt
    cases hs : k.seqOff with
    | none => exact ⟨_, execCmdFin_plain hl hk (by omega) hs⟩
    | some off =>
      have := hoff off hs
      exact ⟨_, execCmdFin_sequenced hl hk (by omega) hs (by omega)⟩

/-- Under the invariant every instruction answers a next state: only the three operations on the command
have a fault to exclude. -/
theorem exec_goesOn {s : State} (hi : s.Inv) (i : Instr) : goesOn (exec i s) := by
  cases i with
  | cmdLoad a b => exact execCmdLoad_goesOn hi a b
  | cmdSetf a b => exact execCmdSetf_goesOn hi a b
  | cmdGetf a => exact execCmdGetf_goesOn s a
  | cmdFin => exact execCmdFin_goesOn hi
  | cmdRd => exact ⟨_, (apply_ite Host.Outcome.next _ _ _).symm⟩
  | _ => exact ⟨_, rfl⟩

/-- Every instruction that answers leaves a response (R71). -/
theorem exec_resp_ne_none {i : Instr} {s t : State} (h : exec i s = .next t) : t.resp ≠ none := by
  cases exec_shape h <;> exact Option.some_ne_none _

/-- Settles O12: waiting and reset are immediate, a refusal needs a record the port cannot carry, and
an instruction goes on under the invariant. -/
theorem stepAlwaysAnswers : Obligations.StepAlwaysAnswers := by
  intro s hi hport
  have tail_ok : s.pending.tail.all eventOk = true :=
    List.all_eq_true.2 fun e he => List.all_eq_true.1 hport e (List.mem_of_mem_tail he)
  rcases step_cases s with ⟨hp, hs⟩ | ⟨rest, hp, hs⟩ | ⟨r, rest, hp, hw, _⟩ | ⟨r, rest, hp, _, hs⟩
  · exact ⟨s, hs, hport, by simp [hp], by simp [hp]⟩
  · rw [hp] at tail_ok
    exact ⟨_, hs, tail_ok, by simp [hp], by simp [hp]⟩
  · simp [portOk, hp, eventOk, hw] at hport
  · have htaken : { s with pending := rest }.Inv := hi.of_commandView rfl hi.keyZero
    obtain ⟨t, ht⟩ := exec_goesOn htaken (decodeOp r)
    have hpending : t.pending = s.pending.tail := by rw [exec_pending ht, hp]; rfl
    refine ⟨t, hs.trans ht, ?_, hpending, fun _ _ _ => exec_resp_ne_none ht⟩
    rwa [portOk, hpending]

end Sys2Proof.Machine
end

section
/-! SUPPORT. `FRM.ENC` when its checks pass (R150 to R158): the frame it returns, byte by byte, for a
plain and for an encrypted kind. -/

namespace Sys2Proof.Machine

theorem u16be_eq (v : Half) :
    u16be v = [BitVec.ofNat 8 (v.toNat / 256), BitVec.ofNat 8 (v.toNat % 256)] := by
  have hlow : BitVec.ofNat 8 v.toNat = BitVec.ofNat 8 (v.toNat % 256) := by
    apply BitVec.eq_of_toNat_eq
    simp
  rw [u16be, hlow]

/-- The increment of a 16-bit counter, modulo 65536 (R25). -/
theorem half_add_one (v : Half) : v + 1 = BitVec.ofNat 16 ((v.toNat + 1) % 65536) := by
  apply BitVec.eq_of_toNat_eq
  simp [BitVec.toNat_add]

/-- `FRM.ENC` past its checks (R150): a key for an encrypted kind, a size that fits, bytes to draw. -/
theorem execFrmEnc_of_checks {s : State} {mt : Nibble} {p r : Bytes}
    (hkey : encKind s.cfg mt = true → s.keyValid = true) (hsize : frameSize s.cfg mt p ≤ 65535)
    (hdraw : framePad s.cfg mt p ≤ r.length) :
    execFrmEnc mt p r s =
      .next (succeed { s with reqCnt := s.reqCnt + 1 } 0 0 (encodedFrame s mt p r)) := by
  have h1 : ¬(encKind s.cfg mt && !s.keyValid) = true := by simpa using hkey
  rw [execFrmEnc, encodeFrame, if_neg h1, if_neg (by omega), if_neg (by omega)]

/-- A plain kind states its length and the two counter bytes, and is not padded (R85, R158). -/
theorem plain_measures {cfg : Cfg} {mt : Nibble} (hm : encKind cfg mt = false) (p : Bytes) :
    frameSize cfg mt p = p.length + 2 ∧ framePad cfg mt p = 0 := by
  simp [frameSize, framePad, hm, plainSizeExtra]

/-- An encrypted kind is padded to whole blocks and states pad and signature too (R153, R154). -/
theorem encrypted_measures {cfg : Cfg} {mt : Nibble} (hm : encKind cfg mt = true) {p : Bytes} {pad : Nat}
    (hp : pad < 16) (hmod : (2 + p.length + pad) % 16 = 0) :
    frameSize cfg mt p = p.length + pad + 32 ∧ framePad cfg mt p = pad := by
  simp [frameSize, framePad, hm, padLen_eq p.length pad hp hmod]

/-- The encoder's header as six bytes, for a size that fits (R83). -/
theorem encodedHeader_eq {cfg : Cfg} {mt : Nibble} {p : Bytes} {size pad : Nat}
    (hmeasures : frameSize cfg mt p = size ∧ framePad cfg mt p = pad) (hsize : size < 65536)
    (hpad : pad < 16) :
    encodedHeader cfg mt p = [0x83, 0x70, BitVec.ofNat 8 (size / 256), BitVec.ofNat 8 (size % 256),
      0x20, BitVec.ofNat 8 (pad * 16 + mt.toNat)] := by
  obtain ⟨hsizeEq, hpadEq⟩ := hmeasures
  rw [encodedHeader, hsizeEq, hpadEq, frameHeader_eq _ _ hsize, BitVec.toNat_ofNat,
    Nat.mod_eq_of_lt hpad]

/-- Settles O37: a plain kind passes every check, with no pad and a header of its own length. -/
theorem frmEncPlainFrame : Obligations.FrmEncPlainFrame := by
  intro s mt p r hreq hother hlen
  have hm : encKind s.cfg mt = false := (encKind_false_iff _ _).2 ⟨hreq, hother⟩
  have hmeasures := plain_measures hm p
  have hframe : encodedFrame s mt p r =
      [0x83, 0x70, BitVec.ofNat 8 ((p.length + 2) / 256), BitVec.ofNat 8 ((p.length + 2) % 256),
        0x20, BitVec.ofNat 8 mt.toNat, BitVec.ofNat 8 (s.reqCnt.toNat / 256),
        BitVec.ofNat 8 (s.reqCnt.toNat % 256)] ++ p := by
    rw [encodedFrame_plain hm, encodedHeader_eq hmeasures (by omega) (by omega), frameData,
      hmeasures.2, u16be_eq]
    simp
  calc exec (.frmEnc mt p r) s
      = .next (succeed { s with reqCnt := s.reqCnt + 1 } 0 0 (encodedFrame s mt p r)) :=
        execFrmEnc_of_checks (by simp [hm]) (by omega) (by omega)
    _ = _ := by rw [hframe, half_add_one]; rfl

/-- Settles O39: the stated pad is the encoder's, so header, data and frame are the encoder's. -/
theorem frmEncEncryptedFrame : Obligations.FrmEncEncryptedFrame := by
  intro s mt p r pad hmt hkey hp hmod hlen hdraw
  have hm : encKind s.cfg mt = true := (encKind_iff _ _).2 hmt
  have hmeasures := encrypted_measures hm hp hmod
  refine ⟨encodedHeader s.cfg mt p, frameData s mt p r,
    encodedHeader_eq hmeasures (by omega) hp, ?_, ?_⟩
  · rw [frameData, hmeasures.2, u16be_eq, List.append_assoc]
  calc exec (.frmEnc mt p r) s
      = .next (succeed { s with reqCnt := s.reqCnt + 1 } 0 0 (encodedFrame s mt p r)) :=
        execFrmEnc_of_checks (fun _ => hkey) (by omega) (by omega)
    _ = _ := by rw [encodedFrame, if_pos hm, half_add_one]; rfl

end Sys2Proof.Machine
end

section
/-! SUPPORT. The CRC-8 generator (R101, R102): a left fold, under the identity table the XOR of the
bytes. -/

namespace Sys2Proof.Machine

/-- The loop of R101 runs on over what follows: it is a left fold (R104 a). -/
theorem crcFrom_append (cfg : Cfg) (c : Byte) (x y : Bytes) :
    crcFrom cfg c (x ++ y) = crcFrom cfg (crcFrom cfg c x) y := List.foldl_append

/-- Where every table entry is its own index, a step is the XOR of value and byte (R101). -/
theorem crcStep_of_identity {cfg : Cfg} (h : ∀ k : Byte, crcEntry cfg k = k) :
    crcStep cfg = (· ^^^ ·) := funext₂ fun _ _ => h _

/-- Settles O21: the loop is a left fold, and XOR folds alike from either end. -/
theorem crc8IsALeftFoldOverAnyTable : Obligations.Crc8IsALeftFoldOverAnyTable := by
  refine ⟨fun cfg x y => crcFrom_append cfg crcInit x y, fun cfg x h => ?_⟩
  calc crc8F cfg x
      = x.foldl (· ^^^ ·) 0x00 := by rw [crc8F, crcFrom, crcStep_of_identity h, crcInit]
    _ = x.foldr (· ^^^ ·) 0x00 := List.foldl_eq_foldr

/-- Settles O20: `crcStep` looks the XOR of value and byte up in the table, and `CRC8` answers with
the fold of it. -/
theorem crc8ReturnsTheTableFold : Obligations.Crc8ReturnsTheTableFold := fun _ _ => rfl

end Sys2Proof.Machine
end

section
/-! SUPPORT. `CMD.LOAD`, `CMD.SETF`, `CMD.GETF` and `CMD.RD` (R112 to R116, R123): one equation per
outcome, and what each leaves in the buffer. -/

namespace Sys2Proof.Machine

theorem execCmdLoad_of_unknownKind {s : State} {a : Half} (hk : kindOf s.cfg a = none) (b : Half) :
    execCmdLoad a b s = .next (failWith .contractViolation s) := by
  simp [execCmdLoad, hk]

theorem execCmdLoad_of_unsupportedDevice {s : State} {a b : Half} {k : Kind}
    (hk : kindOf s.cfg a = some k) (hx : templateOf k b = none) :
    execCmdLoad a b s = .next (failWith .unsupportedDevice s) := by
  simp [execCmdLoad, hk, hx]

theorem execCmdLoad_of_template {s : State} {a b : Half} {k : Kind} {x : Bytes}
    (hk : kindOf s.cfg a = some k) (hx : templateOf k b = some x) (hl : x.length ≤ cmdMax) :
    execCmdLoad a b s = .next (succeed (loadTemplate a x s) 0 0 []) := by
  simp [execCmdLoad, hk, hx, hl]

/-- The buffer after a load: the template, then what was there (R112). -/
theorem memRead_loadTemplate {s : State} (hm : Memory.wf s.cmd = true) (a : Half) (x : Bytes)
    (i : Nat) : memRead (loadTemplate a x s).cmd i =
      if i < x.length then x.getD i 0 else memRead s.cmd i := by
  simp [memRead_memWriteBytes x s.cmd 0 i hm]

/-- Settles O22: one clause per row of the look-ups; a formed configuration's template fits the
buffer, so its length is the register's. -/
theorem loadBuildsTheCommand : Obligations.LoadBuildsTheCommand := by
  intro s a b hm hc
  refine ⟨fun hk => execCmdLoad_of_unknownKind hk b,
    fun k hk hx => execCmdLoad_of_unsupportedDevice hk hx, fun k x hk hx => ?_⟩
  have hle : x.length ≤ cmdMax := templateOf_le hc hk hx
  refine ⟨(loadTemplate a x s).cmd, (loadTemplate a x s).cmdLen,
    Nat.mod_eq_of_lt (Nat.lt_succ_of_le hle), execCmdLoad_of_template hk hx hle, fun i hi => ?_,
    fun i hi => ?_⟩
  · rw [memRead_loadTemplate hm, if_pos hi]
  · rw [memRead_loadTemplate hm, if_neg (Nat.not_lt.2 hi)]

/-- The buffer after a field is set: one byte rewritten (R114). -/
theorem memRead_setField {s : State} (hm : Memory.wf s.cmd = true) (f : Field) (b : Half) (i : Nat) :
    memRead (setField f b s).cmd i =
      if i = f.o then setFieldBits (memRead s.cmd f.o) f.s f.w (clampField f.w b)
      else memRead s.cmd i :=
  memRead_memWrite hm f.o i _

/-- Settles O23: the field's byte takes the clamped value in its own bits, and no other byte is
written. -/
theorem setfWritesOnlyItsField : Obligations.SetfWritesOnlyItsField := by
  intro s a b f hm hc hl hf ho
  have hlook : fieldLookup s a = some f := fieldLookup_some.2 ⟨hl, hf, ho⟩
  refine ⟨(setField f b s).cmd, execCmdSetf_of_lookup hlook (field_wf hc hf).2 b, fun j hj => ?_,
    fun i hi => ?_⟩
  · rw [memRead_setField hm, if_pos rfl, getLsbD_setFieldBits _ (clampField_lt f.w b) hj]
    rfl
  · rw [memRead_setField hm, if_neg hi]

/-- Settles O24: the raw field as a quotient and a remainder. -/
theorem getfReadsItsField : Obligations.GetfReadsItsField := by
  intro s a f hl hf ho
  rw [← getFieldBits_eq]
  exact execCmdGetf_of_lookup (fieldLookup_some.2 ⟨hl, hf, ho⟩)

/-- Settles O25: the look-up succeeds again after the write, and finds the field just set. -/
theorem getfAfterSetfReturnsTheClampedValue : Obligations.GetfAfterSetfReturnsTheClampedValue := by
  intro s t a b f hm hc hl hf ho h
  have hw : f.s + f.w ≤ 8 := (field_wf hc hf).2
  have hset := execCmdSetf_of_lookup (fieldLookup_some.2 ⟨hl, hf, ho⟩) hw b
  obtain rfl : succeed (setField f b s) 0 0 [] = t := Host.Outcome.next.inj (hset.symm.trans h)
  have hlook : fieldLookup (succeed (setField f b s) 0 0 []) a = some f :=
    fieldLookup_some.2 ⟨hl, hf, ho⟩
  have hread : getFieldBits (cmdByte (succeed (setField f b s) 0 0 []) f.o) f.s f.w =
      clampField f.w b := by
    rw [cmdByte, succeed_cmd, memRead_setField hm, if_pos rfl,
      getFieldBits_setFieldBits _ hw (clampField_lt f.w b)]
  refine (execCmdGetf_of_lookup hlook).trans ?_
  rw [hread]
  rfl

/-- Settles O26: each of the three conditions excludes what a successful look-up needs. -/
theorem fieldLookupFailures : Obligations.FieldLookupFailures := by
  intro s a b hfail
  have hlook : fieldLookup s a = none := by
    refine Option.eq_none_iff_forall_ne_some.2 fun f hf => ?_
    obtain ⟨hl, hrow, ho⟩ := fieldLookup_some.1 hf
    rcases hfail with hunloaded | hunknown | ⟨g, hg, hout⟩
    · simp [hunloaded] at hl
    · cases hunknown.symm.trans hrow
    · obtain rfl : g = f := Option.some.inj (hg.symm.trans hrow)
      omega
  constructor
  · simp only [exec, execCmdSetf, hlook]
    rfl
  · simp only [exec, execCmdGetf, hlook]
    rfl

/-- Settles O29: the two branches on `CMD_LOADED`. -/
theorem rdReturnsTheLoadedCommand : Obligations.RdReturnsTheLoadedCommand := by
  refine fun s => ⟨fun hl => ?_, fun hl => ⟨?_, ?_⟩⟩
  · rw [← command_eq]
    exact if_pos hl
  · exact if_neg (Bool.eq_false_iff.1 hl)
  · exact if_neg (Bool.eq_false_iff.1 hl)

end Sys2Proof.Machine
end

section
/-! SUPPORT. `CMD.FIN` (R117 to R121): the bytes of the trailer, the state it ends in, and a run of
consecutive finalizations of a sequenced command. -/

namespace Sys2Proof.Machine

theorem toNat_byte_add_one (v : Byte) : (v + 1).toNat = (v.toNat + 1) % 256 := BitVec.toNat_add v 1

theorem byte_add_one (v : Byte) : v + 1 = BitVec.ofNat 8 ((v.toNat + 1) % 256) := by
  rw [← toNat_byte_add_one, BitVec.ofNat_toNat, BitVec.setWidth_eq]

/-- The sum of a slice, address by address. -/
theorem byteSum_memSlice (m : Memory) (i j : Nat) :
    byteSum (memSlice m i j) = ((List.range' i (j - i)).map fun a => (memRead m a).toNat).sum := by
  rw [byteSum, memSlice, List.map_map]
  rfl

/-- The bytes the CRC covers, `CMD[10 : L-2]` (R118 a). -/
theorem trailerCrc_eq (s : State) : trailerCrc s =
    crc8F s.cfg ((List.range' 10 (s.cmdLen.val - 12)).map (memRead s.cmd)) := by
  rw [trailerCrc, cmdSlice, memSlice, Nat.sub_sub]

/-- `CMD.FIN` writes the buffer, `CMD_FINAL` and the response, which is the buffer's command. -/
theorem finishCommand_eq (s : State) : finishCommand s = { s with
    cmd := (writeTrailer s).cmd, cmdFinal := true,
    resp := some ⟨0x00, 0, 0, (List.range s.cmdLen.val).map (memRead (writeTrailer s).cmd)⟩ } := by
  rw [finishCommand, command_eq]
  rfl

@[simp] theorem finishCommand_seq (s : State) : (finishCommand s).seq = s.seq := rfl
@[simp] theorem finishCommand_cmd (s : State) : (finishCommand s).cmd = (writeTrailer s).cmd := rfl

section
variable {s : State} (hm : Memory.wf s.cmd = true)
include hm

theorem memRead_writeTrailer_crc (h2 : 2 ≤ s.cmdLen.val) :
    memRead (writeTrailer s).cmd (s.cmdLen.val - 2) = trailerCrc s := by
  rw [memRead_writeTrailer hm, if_neg (by omega), if_pos rfl]

/-- The checksum byte is minus the sum of the bytes below it, the CRC byte included (R118 b). -/
theorem toNat_memRead_writeTrailer_checksum :
    (memRead (writeTrailer s).cmd (s.cmdLen.val - 1)).toNat =
      (256 - ((List.range' 1 (s.cmdLen.val - 2)).map fun i =>
        (memRead (writeTrailer s).cmd i).toNat).sum % 256) % 256 := by
  rw [memRead_writeTrailer hm, if_pos rfl, toNat_trailerChecksum, writeCrc_cmdLen,
    ← memSlice_writeTrailer_sum hm, byteSum_memSlice, Nat.sub_sub]

theorem memRead_writeTrailer_of_ne {i : Nat} (hcrc : i ≠ s.cmdLen.val - 2)
    (hsum : i ≠ s.cmdLen.val - 1) : memRead (writeTrailer s).cmd i = memRead s.cmd i := by
  rw [memRead_writeTrailer hm, if_neg hsum, if_neg hcrc]

/-- The CRC byte covers bytes that the trailer does not touch. -/
theorem trailerCrc_writeTrailer : trailerCrc (writeTrailer s) = trailerCrc s := by
  rw [trailerCrc, cmdSlice, writeTrailer_cmdLen, memSlice_writeTrailer hm (Nat.le_refl _)]
  rfl

end

/-- Settles O27: the end of `CMD.FIN`, byte by byte. -/
theorem finComputesTheTrailer : Obligations.FinComputesTheTrailer := by
  intro s k hm hl hk hs h12
  refine ⟨(writeTrailer s).cmd, ?_, ?_, toNat_memRead_writeTrailer_checksum hm,
    fun i => memRead_writeTrailer_of_ne hm⟩
  · exact (execCmdFin_plain hl hk (by omega) hs).trans (congrArg _ (finishCommand_eq s))
  · rw [memRead_writeTrailer_crc hm (by omega), trailerCrc_eq]
    rfl

/-- The buffer after the sequence number is injected: one byte rewritten (R119). -/
theorem memRead_injectSeq {s : State} (hm : Memory.wf s.cmd = true) (off i : Nat) :
    memRead (injectSeq off s).cmd i = if i = off then s.seq else memRead s.cmd i :=
  memRead_memWrite hm off i s.seq

theorem wf_injectSeq {s : State} (hm : Memory.wf s.cmd = true) (off : Nat) :
    Memory.wf (injectSeq off s).cmd = true :=
  Memory.wf_memWrite hm off s.seq

/-- The injected byte survives the trailer, which lies above it (R7, R119). -/
theorem memRead_writeTrailer_injectSeq {s : State} (hm : Memory.wf s.cmd = true) {off : Nat}
    (ho : off < s.cmdLen.val - 2) : memRead (writeTrailer (injectSeq off s)).cmd off = s.seq := by
  rw [memRead_writeTrailer_of_ne (wf_injectSeq hm off) (by rw [injectSeq_cmdLen]; omega)
    (by rw [injectSeq_cmdLen]; omega), memRead_injectSeq hm, if_pos rfl]

/-- Settles O28: the end of `CMD.FIN` after the injection, byte by byte. -/
theorem finInjectsTheSequenceNumber : Obligations.FinInjectsTheSequenceNumber := by
  intro s k off hm hl hk hs h12 ho
  have hmi : Memory.wf (injectSeq off s).cmd = true := wf_injectSeq hm off
  have hmax := s.cmdLen.isLt
  refine ⟨(writeTrailer (injectSeq off s)).cmd, ?_, memRead_writeTrailer_injectSeq hm ho, ?_,
    toNat_memRead_writeTrailer_checksum hmi, fun i hoff hcrc hsum => ?_⟩
  · rw [← byte_add_one]
    exact (execCmdFin_sequenced hl hk (by omega) hs (by omega)).trans
      (congrArg _ (finishCommand_eq (injectSeq off s)))
  · refine (memRead_writeTrailer_crc hmi (Nat.le_trans (by decide) h12)).trans ?_
    rw [← trailerCrc_writeTrailer hmi, trailerCrc_eq]
    rfl
  · rw [memRead_writeTrailer_of_ne hmi hcrc hsum, memRead_injectSeq hm, if_neg hoff]

/-- `CMD.FIN` of a loaded command ends in a final state of the same configuration and length. -/
theorem execCmdFin_final {s t : State} (hl : s.cmdLoaded = true) (h : execCmdFin s = .next t) :
    t.cmdFinal = true ∧ t.cfg = s.cfg ∧ t.cmdLen = s.cmdLen := by
  rcases execCmdFin_next h with ⟨hunloaded, _⟩ | ⟨_, _, _, _, ⟨_, rfl⟩ | ⟨_, _, _, rfl⟩⟩
  · simp [hl] at hunloaded
  · exact ⟨rfl, rfl, rfl⟩
  · exact ⟨rfl, rfl, rfl⟩

/-- A current trailer, address by address (R120 a, b). -/
theorem trailerCurrent_iff (s : State) : trailerCurrent s = true ↔
    memRead s.cmd (s.cmdLen.val - 2) =
      crc8F s.cfg ((List.range' 10 (s.cmdLen.val - 12)).map (memRead s.cmd)) ∧
    ((List.range' 1 (s.cmdLen.val - 1)).map fun i => (memRead s.cmd i).toNat).sum % 256 = 0 := by
  rw [← trailerCrc_eq, ← byteSum_memSlice, trailerCurrent, Bool.and_eq_true, beq_iff_eq, beq_iff_eq]
  rfl

/-- Settles O30: a final state that meets the invariant has a current trailer. -/
theorem finalizedCommandSumsToZero : Obligations.FinalizedCommandSumsToZero := by
  intro s t hi hl h
  obtain ⟨hfinal, hcfg, hlen⟩ := execCmdFin_final hl h
  have hcurrent := (trailerCurrent_iff t).1 ((exec_keeps_inv hi h).final hfinal)
  rw [hcfg, hlen] at hcurrent
  exact hcurrent.symm

/-- Settles O31: the first `CMD.FIN` leaves a current trailer, of which the second is a fixed point. -/
theorem refinalizingANonSequencedCommandChangesNothing :
    Obligations.RefinalizingANonSequencedCommandChangesNothing := by
  intro s t k hi hl hk hs h
  have h12 : 12 ≤ s.cmdLen.val := (hi.length_bounds hl hk).1
  have hfin : exec .cmdFin s = .next (finishCommand s) := execCmdFin_plain hl hk (by omega) hs
  obtain rfl : finishCommand s = t := Host.Outcome.next.inj (hfin.symm.trans h)
  have hti : (finishCommand s).Inv := exec_keeps_inv hi h
  calc exec .cmdFin (finishCommand s)
      = .next (finishCommand (finishCommand s)) :=
        execCmdFin_plain (s := finishCommand s) hl hk (Nat.le_trans (by decide) h12) hs
    _ = .next (succeed (finishCommand s) 0 0 (command (finishCommand s))) :=
        congrArg _ (finishCommand_of_current hti.cmdWf h12 (hti.final rfl) rfl)
    _ = .next (finishCommand s) := rfl

/-- A command of a sequenced kind is loaded, its sequence byte at `off`, under the invariant: what a
run of `CMD.FIN` keeps. -/
structure SequencedLoaded (off : Nat) (s : State) : Prop where
  inv : s.Inv
  loaded : s.cmdLoaded = true
  kind : ∃ k, kindOf s.cfg s.cmdKind = some k ∧ k.seqOff = some off

section
variable {off : Nat} {s : State}

theorem SequencedLoaded.offset_lt (h : SequencedLoaded off s) : off < s.cmdLen.val - 2 := by
  obtain ⟨k, hk, hs⟩ := h.kind
  exact (h.inv.length_bounds h.loaded hk).2 off hs

theorem SequencedLoaded.exec_cmdFin (h : SequencedLoaded off s) :
    exec .cmdFin s = .next (finishCommand (injectSeq off s)) := by
  obtain ⟨k, hk, hs⟩ := h.kind
  have := h.offset_lt
  have := s.cmdLen.isLt
  exact execCmdFin_sequenced h.loaded hk (by omega) hs (by omega)

theorem SequencedLoaded.finish (h : SequencedLoaded off s) :
    SequencedLoaded off (finishCommand (injectSeq off s)) :=
  ⟨exec_keeps_inv h.inv h.exec_cmdFin, h.loaded, h.kind⟩

end

theorem execTimes_succ_of_next {i : Instr} {s t : State} (h : exec i s = .next t) (n : Nat) :
    execTimes i (n + 1) s = execTimes i n t := by
  simp only [execTimes, h]

/-- The last of `n + 1` finalizations injects the start value plus `n`: each injects `SEQ` and hands
its successor to the rest of the run. -/
theorem SequencedLoaded.execTimes_cmdFin {off : Nat} (n : Nat) {s : State}
    (h : SequencedLoaded off s) : ∃ t, execTimes .cmdFin (n + 1) s = .next t ∧
      (memRead t.cmd off).toNat = (s.seq.toNat + n) % 256 ∧
      t.seq.toNat = (s.seq.toNat + n + 1) % 256 := by
  induction n generalizing s with
  | zero =>
    refine ⟨_, execTimes_succ_of_next h.exec_cmdFin 0, ?_, toNat_byte_add_one s.seq⟩
    rw [finishCommand_cmd, memRead_writeTrailer_injectSeq h.inv.cmdWf h.offset_lt]
    exact (Nat.mod_eq_of_lt s.seq.isLt).symm
  | succ n ih =>
    obtain ⟨t, ht, hbyte, hlast⟩ := ih h.finish
    rw [finishCommand_seq, injectSeq_seq, toNat_byte_add_one] at hbyte hlast
    exact ⟨t, (execTimes_succ_of_next h.exec_cmdFin _).trans ht, by omega, by omega⟩

/-- Settles O32, by induction on the length of the run; after 256 the count is back at the start. -/
theorem consecutiveFinalizationsCountModulo256 :
    Obligations.ConsecutiveFinalizationsCountModulo256 := by
  intro s k off hi hl hk hs
  have hloaded : SequencedLoaded off s := ⟨hi, hl, k, hk, hs⟩
  refine ⟨fun n => hloaded.execTimes_cmdFin n, fun t ht => ?_⟩
  obtain ⟨u, hu, _, hseq⟩ := hloaded.execTimes_cmdFin 255
  obtain rfl : u = t := Host.Outcome.next.inj (hu.symm.trans ht)
  apply BitVec.eq_of_toNat_eq
  have := s.seq.isLt
  omega

end Sys2Proof.Machine
end

section
/-! SUPPORT. The inner envelope (R130 to R140): what `ENV.BUILD` and `ENV.DEC` answer on each side of
their checks, and where the parts of an envelope stand. -/

namespace Sys2Proof.Machine

/-- The checks of R131 as one conjunction. -/
theorem envelopeReady_iff {d : Bytes} {s : State} : envelopeReady d s = true ↔
    d.length = 6 ∧ s.cmdLoaded = true ∧ s.cmdFinal = true ∧ s.cmdLen.val % 16 = 0 := by
  simp [envelopeReady, and_assoc]

theorem execEnvBuild_of_ready {d : Bytes} {s : State} (h : envelopeReady d s = true) :
    execEnvBuild d s = .next (succeed s 0 0 (envelope s.cfg d (command s))) :=
  congrArg _ (if_pos h)

theorem execEnvBuild_of_not_ready {d : Bytes} {s : State} (h : ¬ envelopeReady d s = true) :
    execEnvBuild d s = .next (failWith .contractViolation s) :=
  congrArg _ (if_neg h)

theorem execEnvDec_of_whole_blocks {x : Bytes} (s : State) (h : x.length % 16 = 0) :
    execEnvDec x s = .next (succeed s 0 0 (ecbDec (envelopeKey s.cfg) x)) :=
  congrArg _ (if_pos h)

theorem execEnvDec_of_partial_block {x : Bytes} (s : State) (h : x.length % 16 ≠ 0) :
    execEnvDec x s = .next (failWith .contractViolation s) :=
  congrArg _ (if_neg h)

theorem length_ecbEnc_of_whole_blocks (k : Bytes) {x : Bytes} (h : x.length % 16 = 0) :
    (ecbEnc k x).length = x.length := by
  rw [length_ecbEnc]
  omega

theorem length_ecbDec_of_whole_blocks (k : Bytes) {x : Bytes} (h : x.length % 16 = 0) :
    (ecbDec k x).length = x.length := by
  rw [length_ecbDec]
  omega

/-- The total length field, low byte first (R11, R82). -/
theorem u16le_ofNat (n : Nat) :
    u16le (BitVec.ofNat 16 n) = [BitVec.ofNat 8 (n % 256), BitVec.ofNat 8 (n / 256)] := by
  have hlow : BitVec.ofNat 8 (BitVec.ofNat 16 n).toNat = BitVec.ofNat 8 (n % 256) := by
    apply BitVec.eq_of_toNat_eq
    simp only [BitVec.toNat_ofNat]
    omega
  have hhigh : BitVec.ofNat 8 ((BitVec.ofNat 16 n).toNat / 256) = BitVec.ofNat 8 (n / 256) := by
    apply BitVec.eq_of_toNat_eq
    simp only [BitVec.toNat_ofNat]
    omega
  rw [u16le, hlow, hhigh]

/-- The header byte by byte (R82). -/
theorem envelopeHeader_eq (total : Nat) (d : Bytes) : envelopeHeader total d =
    [0x5A, 0x5A, 0x01, 0x11, BitVec.ofNat 8 (total % 256), BitVec.ofNat 8 (total / 256), 0x20, 0x00]
      ++ List.replicate 4 0x00 ++ List.replicate 8 0x00 ++ d ++ List.replicate 2 0x00
      ++ List.replicate 12 0x00 := by
  rw [envelopeHeader, u16le_ofNat]
  rfl

theorem length_envelopeHeader (total : Nat) {d : Bytes} (hd : d.length = 6) :
    (envelopeHeader total d).length = 40 := by
  simp [envelopeHeader, hd]

/-- An envelope is its header, the ciphertext and 16 bytes of fingerprint (R82). -/
theorem length_envelope (cfg : Cfg) {d c : Bytes} (hd : d.length = 6) (hc : c.length % 16 = 0) :
    (envelope cfg d c).length = c.length + 56 := by
  rw [envelope, envelopeBody, List.length_append, List.length_append, length_envelopeHeader _ hd,
    length_ecbEnc_of_whole_blocks _ hc, length_md5]
  omega

/-- Bytes 40 .. 39+L of an envelope are its ciphertext (R82). -/
theorem envelope_cipher_part (cfg : Cfg) {d c : Bytes} (hd : d.length = 6) (hc : c.length % 16 = 0) :
    ((envelope cfg d c).drop 40).take ((envelope cfg d c).length - 56) =
      ecbEnc (envelopeKey cfg) c := by
  rw [length_envelope cfg hd hc, Nat.add_sub_cancel, envelope, envelopeBody, List.append_assoc,
    List.drop_left' (length_envelopeHeader _ hd),
    List.take_left' (length_ecbEnc_of_whole_blocks _ hc)]

/-- Settles O36: a success means the checks passed, the part cut out is the ciphertext of whole
blocks, and ECB under the same key is undone block by block. -/
theorem envDecInvertsEnvBuild : Obligations.EnvDecInvertsEnvBuild := by
  intro s t u d r hbuild hresp herr hcfg
  rcases execEnvBuild_next hbuild with ⟨_, rfl⟩ | ⟨hready, rfl⟩
  · obtain rfl : errResponse .contractViolation = r := Option.some.inj hresp
    simp [errResponse, errCode] at herr
  · obtain rfl : ⟨0x00, 0, 0, envelope s.cfg d (command s)⟩ = r := Option.some.inj hresp
    obtain ⟨hd, _, _, hmod⟩ := envelopeReady_iff.1 hready
    have hc : (command s).length % 16 = 0 := by rwa [length_command]
    have hcipher : (ecbEnc (envelopeKey s.cfg) (command s)).length % 16 = 0 := by
      rwa [length_ecbEnc_of_whole_blocks _ hc]
    rw [envelope_cipher_part s.cfg hd hc]
    calc exec (.envDec (ecbEnc (envelopeKey s.cfg) (command s))) u
        = .next (succeed u 0 0
            (ecbDec (envelopeKey u.cfg) (ecbEnc (envelopeKey s.cfg) (command s)))) :=
          execEnvDec_of_whole_blocks u hcipher
      _ = .next (succeed u 0 0 (command s)) := by rw [hcfg, ecbDec_ecbEnc _ hc]
      _ = _ := by rw [command_eq]; rfl

/-- Settles O33: the header is the model's with its bytes written out, and the rest follows by name. -/
theorem envBuildLaysOutTheEnvelope : Obligations.EnvBuildLaysOutTheEnvelope := by
  intro s d hd hl hf hmod
  have htotal : 40 + (command s).length + 16 = 56 + s.cmdLen.val := by rw [length_command]; omega
  have hc : (command s).length % 16 = 0 := by rwa [length_command]
  refine ⟨envelopeHeader (56 + s.cmdLen.val) d, envelopeHeader_eq _ d, length_envelopeHeader _ hd,
    ?_, ?_⟩
  · rw [← command_eq, length_ecbEnc_of_whole_blocks _ hc, length_command]
  · rw [← command_eq, ← htotal]
    exact execEnvBuild_of_ready (envelopeReady_iff.2 ⟨hd, hl, hf, hmod⟩)

/-- Settles O55: a command of whole blocks passes the last check of R131, and the invariant gives the
loaded command the length of a template of its kind. -/
theorem envelopableKindsAreEnveloped : Obligations.EnvelopableKindsAreEnveloped := by
  intro s k ks d hi hl hf hd hk hkind
  have henv : k.envelopable = true := hkind.elim (fun h => envelopable_of_wfFor h.1 h.2 hk) id
  have hmod : s.cmdLen.val % 16 = 0 := hi.whole_blocks hl hk henv
  refine ⟨_, _, execEnvBuild_of_ready (envelopeReady_iff.2 ⟨hd, hl, hf, hmod⟩), rfl, ?_⟩
  rw [length_envelope s.cfg hd (by rwa [length_command]), length_command]

/-- Settles O34: each of the four failures falsifies the conjunction of the checks. -/
theorem envBuildChecksItsContract : Obligations.EnvBuildChecksItsContract := by
  intro s d hfail
  refine execEnvBuild_of_not_ready fun hready => ?_
  obtain ⟨hd, hl, hf, hmod⟩ := envelopeReady_iff.1 hready
  rcases hfail with h | h | h | h
  · exact h hd
  · simp [hl] at h
  · simp [hf] at h
  · exact h hmod

/-- Settles O35: the two sides of the length check. -/
theorem envDecDecryptsWholeBlocks : Obligations.EnvDecDecryptsWholeBlocks := fun s _ =>
  ⟨fun h => ⟨length_ecbDec_of_whole_blocks _ h, execEnvDec_of_whole_blocks s h⟩,
    execEnvDec_of_partial_block s⟩

end Sys2Proof.Machine
end

section
/-! SUPPORT. The structural checks of the frame parser (R161 to R165): what checks 1 to 4 ask of the
header, and what the class of the type decides once they pass. -/

namespace Sys2Proof.Machine

/-- A byte string that passes the parser's first four checks (R161 to R164). -/
structure HeaderOk (b : Bytes) : Prop where
  length_ge : 6 ≤ b.length
  magic : b.getD 0 0 = 0x83 ∧ b.getD 1 0 = 0x70
  size : b.length = (b.getD 2 0).toNat * 256 + (b.getD 3 0).toNat + 8
  fixed : b.getD 4 0 = 0x20

theorem toNat_be16_size (b : Bytes) :
    (be16 (slice b 2 4)).toNat = (b.getD 2 0).toNat * 256 + (b.getD 3 0).toNat := by
  simp [toNat_be16, slice, List.getD_eq_getElem?_getD]

/-- Past its first four checks the parser asks whole blocks of an encrypted kind and nothing of a plain
one (R165, R169). -/
theorem parseFrame_of_headerOk {b : Bytes} (h : HeaderOk b) (cfg : Cfg) :
    parseFrame cfg b =
      if encKind cfg (mtypeOf (b.getD 5 0)) then
        if b.length < 54 ∨ (b.length - 38) % 16 ≠ 0 then .error .badCiphertextLength
        else .ok (.encrypted (padOf (b.getD 5 0)) (mtypeOf (b.getD 5 0))
          (slice b 6 (b.length - 32)) (b.drop (b.length - 32)))
      else .ok (.plain (padOf (b.getD 5 0)) (mtypeOf (b.getD 5 0)) (b.drop 6)) := by
  obtain ⟨h6, ⟨h0, h1⟩, hsize, h4⟩ := h
  rw [parseFrame, if_neg (by omega), if_neg (by simp only [h0, h1]; decide),
    if_neg (by rw [toNat_be16_size]; omega), if_neg (by simp only [h4]; decide)]

theorem headerOk_of_parse {cfg : Cfg} {b : Bytes} {f : Frame} (h : parseFrame cfg b = .ok f) :
    HeaderOk b := by
  unfold parseFrame at h
  split at h
  · cases h
  next h6 =>
  split at h
  · cases h
  next hmagic =>
  split at h
  · cases h
  next hsize =>
  split at h
  · cases h
  next h4 =>
  rw [Decidable.not_not, toNat_be16_size] at hsize
  simp only [not_or, Decidable.not_not] at hmagic
  exact ⟨by omega, hmagic, hsize, Decidable.not_not.1 h4⟩

theorem receiveFrame_of_parse_error {b : Bytes} {s : State} {e : FrameReject}
    (h : parseFrame s.cfg b = .error e) : receiveFrame b s = failWith .framingError s := by
  rw [receiveFrame, h]

/-- A string that fails one of the first four checks is a `FramingError` (R161 to R164). -/
theorem receiveFrame_of_not_headerOk {b : Bytes} (h : ¬ HeaderOk b) (s : State) :
    receiveFrame b s = failWith .framingError s := by
  cases hp : parseFrame s.cfg b with
  | error e => exact receiveFrame_of_parse_error hp
  | ok f => exact absurd (headerOk_of_parse hp) h

/-- Settles O41: either the header fails one of the first four checks, or it passes them and the
ciphertext of an encrypted kind fails the fifth. -/
theorem malformedFramesAreFramingErrors : Obligations.MalformedFramesAreFramingErrors := by
  intro s b hbad
  suffices h : receiveFrame b s = failWith .framingError s from congrArg Host.Outcome.next h
  by_cases hb : HeaderOk b
  · rcases hbad with h | h | h | h | h | ⟨hm, hct⟩
    · exact absurd hb.length_ge (by omega)
    · exact absurd hb.magic.1 h
    · exact absurd hb.magic.2 h
    · exact absurd hb.size h
    · exact absurd hb.fixed h
    · rw [← mtypeOf_eq, ← encKind_iff] at hm
      refine receiveFrame_of_parse_error (e := .badCiphertextLength) ?_
      rw [parseFrame_of_headerOk hb, if_pos hm, if_pos hct]
  · exact receiveFrame_of_not_headerOk hb s

end Sys2Proof.Machine
end

section
/-! SUPPORT. What `FRM.DEC` does past the structural checks (R166 to R171): one equation for each
outcome of an encrypted kind, and the acceptance of a plain one. -/

namespace Sys2Proof.Machine

theorem ctrMismatchOf_eq (s : State) (ctr : Half) :
    ctrMismatchOf s ctr = decide (ctr ≠ s.rspCnt) := by
  rw [Bool.eq_iff_iff]
  simp [ctrMismatchOf]

/-- Acceptance, field by field (R170, R171). -/
theorem acceptFrame_eq (mt : Nibble) (pt : Bytes) (s : State) : acceptFrame mt pt s = { s with
    ctrMismatch := decide (be16 pt ≠ s.rspCnt), rxCtr := be16 pt, rspCnt := s.rspCnt + 1,
    resp := some ⟨0x00, BitVec.zeroExtend 16 mt, be16 pt, pt.drop 2⟩ } := by
  rw [acceptFrame, ctrMismatchOf_eq]
  rfl

/-- The counter is read from the first two bytes, so a cut behind them keeps it. -/
theorem be16_take (b : Bytes) {n : Nat} (h : 2 ≤ n) : be16 (b.take n) = be16 b := by
  have h0 : 0 < n := by omega
  have h1 : 1 < n := by omega
  simp [be16, List.getD_eq_getElem?_getD, h0, h1]

section
variable {s : State} (hdr : Bytes) (pad mt : Nibble) (ct sig : Bytes)

theorem receiveEncrypted_of_noKey (hk : s.keyValid = false) :
    receiveEncrypted hdr pad mt ct sig s = failWith .notAuthenticated s := by
  rw [receiveEncrypted, if_neg (by simp [hk])]

variable {hdr ct sig}

theorem receiveEncrypted_of_badSignature (hk : s.keyValid = true)
    (hs : sha256 (hdr ++ cbcDec (keyBytes s) ct) ≠ sig) :
    receiveEncrypted hdr pad mt ct sig s = { s with
      keyValid := false, tcpKey := Vector.replicate 32 0x00, resp := some ⟨0x05, 0, 0, []⟩ } := by
  rw [receiveEncrypted, if_pos hk, if_neg hs, clearKey, zeroKey_eq]
  rfl

variable {pad}

theorem receiveEncrypted_of_badPad (hk : s.keyValid = true)
    (hs : sha256 (hdr ++ cbcDec (keyBytes s) ct) = sig)
    (hp : (cbcDec (keyBytes s) ct).length < pad.toNat + 2) :
    receiveEncrypted hdr pad mt ct sig s = failWith .framingError s := by
  rw [receiveEncrypted, if_pos hk, if_pos hs, if_pos hp]

theorem receiveEncrypted_of_good (hk : s.keyValid = true)
    (hs : sha256 (hdr ++ cbcDec (keyBytes s) ct) = sig)
    (hp : pad.toNat + 2 ≤ (cbcDec (keyBytes s) ct).length) :
    receiveEncrypted hdr pad mt ct sig s = acceptFrame mt
      ((cbcDec (keyBytes s) ct).take ((cbcDec (keyBytes s) ct).length - pad.toNat)) s := by
  rw [receiveEncrypted, if_pos hk, if_pos hs, if_neg (by omega)]

end

theorem receiveFrame_of_parse_encrypted {b : Bytes} {s : State} {pad mt : Nibble} {ct sig : Bytes}
    (h : parseFrame s.cfg b = .ok (.encrypted pad mt ct sig)) :
    receiveFrame b s = receiveEncrypted (b.take 6) pad mt ct sig s := by
  rw [receiveFrame, h]

theorem receiveFrame_of_parse_plain {b : Bytes} {s : State} {pad mt : Nibble} {body : Bytes}
    (h : parseFrame s.cfg b = .ok (.plain pad mt body)) :
    receiveFrame b s = acceptFrame mt body s := by
  rw [receiveFrame, h]

/-- Settles O42: the frame parses as what it was laid out from, and each clause is one outcome of
`receiveEncrypted`. -/
theorem encryptedFrameOutcomes : Obligations.EncryptedFrameOutcomes := by
  intro s pad mt ct sig hdr pt i hwf hhdr hpt hi
  have hparse := parseFrame_bytes hwf
  simp only [Frame.wf, Bool.and_eq_true, decide_eq_true_eq] at hwf
  obtain ⟨⟨-, hsig⟩, hlen⟩ := hwf
  rw [inMax] at hlen
  rw [← frameHeader_eq pad mt (by omega)] at hhdr
  have hbytes : (Frame.encrypted pad mt ct sig).bytes = hdr ++ ct ++ sig := by
    rw [bytes_encrypted pad mt ct hsig, hhdr]
  have hexec : exec i s = .next (receiveEncrypted hdr pad mt ct sig s) := by
    have hrun : exec i s = .next (receiveFrame (Frame.encrypted pad mt ct sig).bytes s) := by
      rcases hi with rfl | rfl
      · rfl
      · rw [hbytes]; rfl
    have htake : (Frame.encrypted pad mt ct sig).bytes.take 6 = hdr := by
      rw [hbytes, hhdr]; rfl
    rw [hrun, receiveFrame_of_parse_encrypted hparse, htake]
  obtain rfl : pt = cbcDec (keyBytes s) ct := hpt
  rw [hexec]
  refine ⟨fun hk => ?_, fun hk hs => ?_, fun hk hs hp => ?_, fun hk hs hp => ?_⟩
  · rw [receiveEncrypted_of_noKey _ _ _ _ _ hk]; rfl
  · rw [receiveEncrypted_of_badSignature _ _ hk hs]
  · rw [receiveEncrypted_of_badPad _ hk hs hp]; rfl
  · refine ⟨be16 (cbcDec (keyBytes s) ct), toNat_be16 _, ?_⟩
    rw [receiveEncrypted_of_good _ hk hs hp, acceptFrame_eq,
      be16_take _ (show 2 ≤ (cbcDec (keyBytes s) ct).length - pad.toNat by omega), half_add_one]

/-- Settles O43: a plain frame of the demanded size parses under every pad nibble, and its counter is
the first two bytes of what follows the header. -/
theorem plainFramesAreAcceptedUnverified : Obligations.PlainFramesAreAcceptedUnverified := by
  intro s pad mt c1 c0 body i hreq hother hlen hi
  have hm : encKind s.cfg mt = false := (encKind_false_iff _ _).2 ⟨hreq, hother⟩
  have hbytes : (Frame.plain pad mt (c1 :: c0 :: body)).bytes =
      frameHeader body.length pad mt ++ c1 :: c0 :: body := rfl
  have hrun : exec i s = .next (receiveFrame (Frame.plain pad mt (c1 :: c0 :: body)).bytes s) := by
    rcases hi with rfl | rfl
    · rfl
    · rw [hbytes, frameHeader_eq pad mt (by omega)]; rfl
  have hparse : parseFrame s.cfg (Frame.plain pad mt (c1 :: c0 :: body)).bytes =
      .ok (.plain pad mt (c1 :: c0 :: body)) :=
    parseFrame_plain hm (by simp) (by simp only [List.length_cons]; omega)
  refine ⟨be16 (c1 :: c0 :: body), toNat_be16 _, ?_⟩
  rw [hrun, receiveFrame_of_parse_plain hparse, acceptFrame_eq, half_add_one]
  rfl

end Sys2Proof.Machine
end

section
/-! SUPPORT. The checks of `FRM.ENC` (R150 to R155): the two refusals, what a success says, and why no
plain frame that it makes is one `FRM.DEC` accepts (90_conflicts.md C1). -/

namespace Sys2Proof.Machine

theorem execFrmEnc_of_noKey {s : State} {mt : Nibble} (hm : encKind s.cfg mt = true)
    (hk : s.keyValid = false) (p r : Bytes) :
    execFrmEnc mt p r s = .next (failWith .notAuthenticated s) := by
  rw [execFrmEnc, encodeFrame, if_pos (by simp [hm, hk])]

/-- Past the key check, a size that does not fit or a short draw breaks the contract (R154, R155). -/
theorem execFrmEnc_of_badContract {s : State} {mt : Nibble} {p r : Bytes}
    (hkey : encKind s.cfg mt = true → s.keyValid = true)
    (hbad : 65535 < frameSize s.cfg mt p ∨ r.length < framePad s.cfg mt p) :
    execFrmEnc mt p r s = .next (failWith .contractViolation s) := by
  rw [execFrmEnc, encodeFrame, if_neg (by simpa using hkey)]
  by_cases hsize : 65535 < frameSize s.cfg mt p
  · rw [if_pos hsize]
  · rw [if_neg hsize, if_pos (hbad.resolve_left hsize)]

/-- Settles O40: the key is checked first; the encoder's size and pad are those of the statement. -/
theorem frmEncRefusals : Obligations.FrmEncRefusals := by
  intro s mt p r
  refine ⟨fun hmt => ?_, fun hreq hother hlen => ?_⟩
  · have hm : encKind s.cfg mt = true := (encKind_iff _ _).2 hmt
    refine ⟨fun hk => execFrmEnc_of_noKey hm hk p r, fun pad hk hp hmod hbad => ?_⟩
    obtain ⟨hsize, hpad⟩ := encrypted_measures hm hp hmod
    exact execFrmEnc_of_badContract (fun _ => hk) (by omega)
  · have hm : encKind s.cfg mt = false := (encKind_false_iff _ _).2 ⟨hreq, hother⟩
    obtain ⟨hsize, -⟩ := plain_measures hm p
    exact execFrmEnc_of_badContract (by simp [hm]) (.inl (by omega))

/-- A response without an error means that `FRM.ENC` passed its checks and returned the frame. -/
theorem execFrmEnc_success {s t : State} {mt : Nibble} {p r : Bytes} {q : Response}
    (h : execFrmEnc mt p r s = .next t) (hq : t.resp = some q) (herr : q.err = 0x00) :
    frameSize s.cfg mt p ≤ 65535 ∧ framePad s.cfg mt p ≤ r.length ∧
      q.out = encodedFrame s mt p r := by
  obtain rfl : encodeFrame mt p r s = t := Host.Outcome.next.inj h
  rcases encodeFrame_cases mt p r s with ⟨_, _, he⟩ | ⟨_, _, he⟩ | ⟨_, hsize, hdraw, he⟩
  · obtain rfl : errResponse .notAuthenticated = q := by simpa [he] using hq
    simp [errResponse, errCode] at herr
  · obtain rfl : errResponse .contractViolation = q := by simpa [he] using hq
    simp [errResponse, errCode] at herr
  · obtain rfl : ⟨0x00, 0, 0, encodedFrame s mt p r⟩ = q := by simpa [he] using hq
    exact ⟨hsize, hdraw, rfl⟩

/-- Settles O45: the frame is two bytes shorter than the size it states asks for. -/
theorem encodedPlainFramesAreRefused : Obligations.EncodedPlainFramesAreRefused := by
  intro s t u mt p r q hreq hother hexec hq herr
  have hm : encKind s.cfg mt = false := (encKind_false_iff _ _).2 ⟨hreq, hother⟩
  obtain ⟨hsize, hpad⟩ := plain_measures hm p
  obtain ⟨hfits, -, hout⟩ := execFrmEnc_success hexec hq herr
  have hparse : parseFrame u.cfg q.out = .error .lengthMismatch := by
    have hlen : (frameData s mt p r).length = p.length + 2 := by
      simp [frameData, hpad]; omega
    rw [hout, encodedFrame_plain hm, encodedHeader, parseFrame_header, if_pos (by omega)]
  exact congrArg Host.Outcome.next (receiveFrame_of_parse_error hparse)

end Sys2Proof.Machine
end

section
/-! SUPPORT. A frame of an encrypted kind as `FRM.ENC` makes it, seen by a receiver with the same
configuration and key (R150, R157, R172). -/

namespace Sys2Proof.Machine

/-- The frame `f` carries `data` encrypted under `key`, and signed over its header and `data`. -/
structure Sealed (cfg : Cfg) (key : Bytes) (pad mt : Nibble) (data f : Bytes) : Prop where
  kind : encKind cfg mt = true
  nonempty : 16 ≤ data.length
  whole : data.length % 16 = 0
  fits : data.length + 30 < 65536
  layout : f = frameHeader (data.length + 30) pad mt ++ cbcEnc key data ++
    sha256 (frameHeader (data.length + 30) pad mt ++ data)

theorem length_cbcEnc_of_whole_blocks (k : Bytes) {x : Bytes} (h : x.length % 16 = 0) :
    (cbcEnc k x).length = x.length := by
  rw [length_cbcEnc]
  omega

/-- What `FRM.ENC` of an encrypted kind returns is sealed under the session key (R150, R157). -/
theorem sealed_of_execFrmEnc {s t : State} {mt : Nibble} {p r : Bytes} {q : Response}
    (hm : encKind s.cfg mt = true) (h : execFrmEnc mt p r s = .next t) (hq : t.resp = some q)
    (herr : q.err = 0x00) :
    Sealed s.cfg (keyBytes s) (BitVec.ofNat 4 (padLen p.length)) mt (frameData s mt p r) q.out ∧
      (frameData s mt p r).length = 2 + p.length + padLen p.length := by
  obtain ⟨hsize, hdraw, hout⟩ := execFrmEnc_success h hq herr
  obtain ⟨hsizeEq, hpadEq⟩ := encrypted_measures hm (padLen_lt p.length) (padLen_mod p.length)
  have hmod := padLen_mod p.length
  have hlen : (frameData s mt p r).length = 2 + p.length + padLen p.length := by
    rw [hpadEq] at hdraw
    simp [frameData, hpadEq]
    omega
  refine ⟨⟨hm, by omega, by omega, by omega, ?_⟩, hlen⟩
  rw [hout, encodedFrame, if_pos hm, encodedHeader, hsizeEq, hpadEq,
    show p.length + padLen p.length + 32 = (frameData s mt p r).length + 30 by omega]

namespace Sealed

variable {cfg : Cfg} {key : Bytes} {pad mt : Nibble} {data f : Bytes}

theorem length_eq (h : Sealed cfg key pad mt data f) : f.length = data.length + 38 := by
  rw [h.layout]
  simp [length_cbcEnc_of_whole_blocks key h.whole]
  omega

/-- A receiver reads back what the frame was laid out from. -/
theorem parse (h : Sealed cfg key pad mt data f) :
    parseFrame cfg f = .ok (.encrypted pad mt (cbcEnc key data)
      (sha256 (frameHeader (data.length + 30) pad mt ++ data))) := by
  have hlen := length_cbcEnc_of_whole_blocks key h.whole
  have h16 := h.nonempty
  have hmod := h.whole
  have hfits := h.fits
  rw [← hlen] at h16 hmod hfits
  have hp := parseFrame_encrypted (pad := pad) h.kind
    (length_sha256 (frameHeader (data.length + 30) pad mt ++ data)) h16 hmod hfits
  rwa [hlen, ← h.layout] at hp

/-- The three parts of a sealed frame, cut by length (R84). -/
theorem parts (h : Sealed cfg key pad mt data f) :
    f.take 6 = frameHeader (data.length + 30) pad mt ∧
      slice f 6 (f.length - 32) = cbcEnc key data ∧
      f.drop (f.length - 32) = sha256 (frameHeader (data.length + 30) pad mt ++ data) := by
  have hlen : (frameHeader (data.length + 30) pad mt ++ cbcEnc key data).length = f.length - 32 := by
    rw [h.length_eq, List.length_append, length_frameHeader, length_cbcEnc_of_whole_blocks key h.whole]
    omega
  rw [slice, ← hlen, h.layout, List.take_left, List.drop_left]
  exact ⟨rfl, rfl, rfl⟩

/-- What a receiver under the same key hashes is what was signed. -/
theorem digest (h : Sealed cfg key pad mt data f) :
    sha256 (f.take 6 ++ cbcDec key (slice f 6 (f.length - 32))) = f.drop (f.length - 32) := by
  obtain ⟨hhdr, hct, hsig⟩ := h.parts
  rw [hhdr, hct, hsig, cbcDec_cbcEnc key h.whole]

/-- A receiver with the same configuration and key sees the same sealed frame. -/
theorem of_same_key {s u : State} (h : Sealed s.cfg (keyBytes s) pad mt data f)
    (hcfg : u.cfg = s.cfg) (hkey : u.tcpKey = s.tcpKey) :
    Sealed u.cfg (keyBytes u) pad mt data f := by
  rw [hcfg, keyBytes, hkey]
  exact h

/-- The holder of the key accepts a sealed frame, with its data less the pad (R167, R168, R170). -/
theorem receive {u : State} (h : Sealed u.cfg (keyBytes u) pad mt data f) (hk : u.keyValid = true)
    (hp : pad.toNat + 2 ≤ data.length) :
    receiveFrame f u = acceptFrame mt (data.take (data.length - pad.toNat)) u := by
  have hdec := cbcDec_cbcEnc (keyBytes u) h.whole
  have hsigned : sha256 (f.take 6 ++ cbcDec (keyBytes u) (cbcEnc (keyBytes u) data)) =
      sha256 (frameHeader (data.length + 30) pad mt ++ data) := by
    rw [h.parts.1, hdec]
  rw [receiveFrame_of_parse_encrypted h.parse,
    receiveEncrypted_of_good mt hk hsigned (by rw [hdec]; exact hp), hdec]

end Sealed

/-- Settles O44: the sealed frame is accepted by the holder of the key, and cutting the pad leaves
counter and payload. -/
theorem encryptedFramesRoundTrip : Obligations.EncryptedFramesRoundTrip := by
  intro s t u mt p r q hmt hexec hq herr hcfg hkey hvalid
  have hm : encKind s.cfg mt = true := (encKind_iff _ _).2 hmt
  obtain ⟨hsealed, hlen⟩ := sealed_of_execFrmEnc hm hexec hq herr
  have hpad : (BitVec.ofNat 4 (padLen p.length)).toNat = padLen p.length := by
    rw [BitVec.toNat_ofNat, Nat.mod_eq_of_lt (padLen_lt _)]
  have hbody : (frameData s mt p r).take (2 + p.length) = u16be s.reqCnt ++ p := by
    rw [frameData, ← List.append_assoc]
    exact List.take_left' (by simp)
  have hgood : receiveFrame q.out u = acceptFrame mt (u16be s.reqCnt ++ p) u := by
    rw [(hsealed.of_same_key hcfg hkey).receive hvalid (by omega), hpad, hlen, Nat.add_sub_cancel,
      hbody]
  calc exec (.frmDec q.out) u
      = .next (acceptFrame mt (u16be s.reqCnt ++ p) u) := congrArg Host.Outcome.next hgood
    _ = _ := by rw [acceptFrame_eq, be16_u16be_append]; rfl

end Sys2Proof.Machine
end

section
/-! SUPPORT. Frames that differ from a sealed frame of their length (R174): where they differ decides
which check meets them. -/

namespace Sys2Proof.Machine

/-- Header bytes 0 to 4 of a frame that parses are fixed by its length (R162 to R164). -/
theorem take_five_of_parse {cfg : Cfg} {b : Bytes} {f : Frame} (h : parseFrame cfg b = .ok f) :
    b.take 5 = (frameHeader (b.length - 8) 0 0).take 5 := by
  obtain ⟨hb, -⟩ := eq_header_of_parse h
  exact (congrArg (List.take 5) hb).trans rfl

/-- The first four checks read the length and header bytes 0 to 4 only. -/
theorem HeaderOk.of_take_five {b c : Bytes} (hc : HeaderOk c) (hlen : b.length = c.length)
    (h5 : b.take 5 = c.take 5) : HeaderOk b := by
  have hget : ∀ i < 5, b.getD i 0 = c.getD i 0 := fun i hi => by
    simpa [List.getD_eq_getElem?_getD, List.getElem?_take, hi] using
      congrArg (fun x : Bytes => x.getD i 0) h5
  obtain ⟨h6, hmagic, hsize, h4⟩ := hc
  refine ⟨by omega, ?_, ?_, ?_⟩
  · rwa [hget 0 (by decide), hget 1 (by decide)]
  · rwa [hget 2 (by decide), hget 3 (by decide), hlen]
  · rwa [hget 4 (by decide)]

/-- A string of 38 bytes or more is six header bytes, ciphertext and 32 bytes of signature (R84). -/
theorem split_frame {b : Bytes} (h : 38 ≤ b.length) :
    b.take 6 ++ slice b 6 (b.length - 32) ++ b.drop (b.length - 32) = b := by
  have h6 : (b.take (b.length - 32)).take 6 = b.take 6 := by
    rw [List.take_take, Nat.min_eq_left (by omega)]
  rw [slice, ← h6, List.take_append_drop, List.take_append_drop]

theorem cbcDec_inj (k : Bytes) {x y : Bytes} (hx : x.length % 16 = 0) (hy : y.length % 16 = 0)
    (h : cbcDec k x = cbcDec k y) : x = y := by
  rw [← cbcEnc_cbcDec k hx, h, cbcEnc_cbcDec k hy]

/-- Two frames of one length under one signature that give one string to hash are one frame, because
decryption loses nothing. -/
theorem eq_of_hashed_eq (k : Bytes) {b c : Bytes} (hlen : b.length = c.length) (h38 : 38 ≤ c.length)
    (hmod : (c.length - 38) % 16 = 0) (hsig : b.drop (b.length - 32) = c.drop (c.length - 32))
    (h : b.take 6 ++ cbcDec k (slice b 6 (b.length - 32)) =
      c.take 6 ++ cbcDec k (slice c 6 (c.length - 32))) : b = c := by
  obtain ⟨hhdr, hdec⟩ := List.append_inj h (by simp [hlen])
  have hct : slice b 6 (b.length - 32) = slice c 6 (c.length - 32) :=
    cbcDec_inj k (by rw [length_slice]; omega) (by rw [length_slice]; omega) hdec
  rw [← split_frame (b := b) (by omega), ← split_frame h38, hhdr, hct, hsig]

theorem setWidth_mtypeOf (b : Byte) : (mtypeOf b).setWidth 16 = BitVec.ofNat 16 (b.toNat % 16) := by
  revert b; decide

section
variable {u : State} {pad mt : Nibble} {data f f' : Bytes}
  (hf : Sealed u.cfg (keyBytes u) pad mt data f) (hlen : f'.length = f.length)
include hf hlen

/-- A change in header bytes 0 to 4 fails a structural check. -/
theorem receiveFrame_of_tamperedHeader (h5 : f'.take 5 ≠ f.take 5) :
    receiveFrame f' u = failWith .framingError u := by
  cases hp : parseFrame u.cfg f' with
  | error e => exact receiveFrame_of_parse_error hp
  | ok g => exact absurd (by rw [take_five_of_parse hp, take_five_of_parse hf.parse, hlen]) h5

/-- With the header bytes 0 to 4 kept and an encrypted type, it is parsed by its length; if its
signature is not the digest, the key is lost (R167). -/
theorem receiveFrame_of_tamperedDigest (h5 : f'.take 5 = f.take 5)
    (hm : encKind u.cfg (mtypeOf (f'.getD 5 0)) = true) (hk : u.keyValid = true)
    (hs : sha256 (f'.take 6 ++ cbcDec (keyBytes u) (slice f' 6 (f'.length - 32))) ≠
      f'.drop (f'.length - 32)) :
    receiveFrame f' u = { u with
      keyValid := false, tcpKey := Vector.replicate 32 0x00, resp := some ⟨0x05, 0, 0, []⟩ } := by
  have hdata := hf.length_eq
  have h16 := hf.nonempty
  have hmod := hf.whole
  have hparse : parseFrame u.cfg f' = .ok (.encrypted (padOf (f'.getD 5 0)) (mtypeOf (f'.getD 5 0))
      (slice f' 6 (f'.length - 32)) (f'.drop (f'.length - 32))) := by
    rw [parseFrame_of_headerOk ((headerOk_of_parse hf.parse).of_take_five hlen h5), if_pos hm,
      if_neg (by omega)]
  rw [receiveFrame_of_parse_encrypted hparse, receiveEncrypted_of_badSignature _ _ hk hs]

/-- A signature changed alone is never the digest: header and ciphertext still give the old one. -/
theorem receiveFrame_of_tamperedSignature (hne : f' ≠ f) (hk : u.keyValid = true)
    (hkept : f'.take (f'.length - 32) = f.take (f'.length - 32)) :
    receiveFrame f' u = { u with
      keyValid := false, tcpKey := Vector.replicate 32 0x00, resp := some ⟨0x05, 0, 0, []⟩ } := by
  have hdata := hf.length_eq
  have h16 := hf.nonempty
  have htake : ∀ n ≤ f'.length - 32, f'.take n = f.take n := fun n hn => by
    simpa [List.take_take, Nat.min_eq_left hn] using congrArg (List.take n) hkept
  have hhdr : f'.take 6 = f.take 6 := htake 6 (by omega)
  have htype : mtypeOf (f'.getD 5 0) = mt := by
    have hbyte := congrArg (fun x : Bytes => x.getD 5 0) (hhdr.trans hf.parts.1)
    simp only [List.getD_eq_getElem?_getD, List.getElem?_take_of_lt (show 5 < 6 by omega)] at hbyte
    rw [List.getD_eq_getElem?_getD, hbyte]
    exact mtypeOf_byte5 pad mt
  refine receiveFrame_of_tamperedDigest hf hlen (htake 5 (by omega)) (htype ▸ hf.kind) hk
    fun hs => hne ?_
  rw [slice, hhdr, hkept, hlen] at hs
  rw [hlen] at hkept
  calc f' = f'.take (f.length - 32) ++ f'.drop (f.length - 32) := (List.take_append_drop _ _).symm
    _ = f.take (f.length - 32) ++ f.drop (f.length - 32) := by rw [hkept, ← hs.symm.trans hf.digest]
    _ = f := List.take_append_drop _ _

/-- With the header bytes 0 to 4 kept and a plain type, it is accepted whatever the key (R169). -/
theorem receiveFrame_of_plainType (h5 : f'.take 5 = f.take 5)
    (hm : encKind u.cfg (mtypeOf (f'.getD 5 0)) = false) :
    receiveFrame f' u = acceptFrame (mtypeOf (f'.getD 5 0)) (f'.drop 6) u := by
  refine receiveFrame_of_parse_plain (pad := padOf (f'.getD 5 0)) ?_
  rw [parseFrame_of_headerOk ((headerOk_of_parse hf.parse).of_take_five hlen h5), hm]
  rfl

end

/-- Settles O46: the clauses are the places where the frame may differ from the sealed one. -/
theorem tamperedFrameOutcomes : Obligations.TamperedFrameOutcomes := by
  intro s t u mt p r f' q hmt hexec hq herr hcfg hkey hvalid hlen hne
  obtain ⟨hsealed, -⟩ := sealed_of_execFrmEnc ((encKind_iff _ _).2 hmt) hexec hq herr
  have hf := hsealed.of_same_key hcfg hkey
  have hdata := hf.length_eq
  have hmod := hf.whole
  rw [← mtypeOf_eq]
  refine ⟨fun h5 => ?_, fun hkept => ?_, fun h5 hm hsig x y hx hy => ?_, fun h5 hm => ?_⟩
  · exact congrArg Host.Outcome.next (receiveFrame_of_tamperedHeader hf hlen h5)
  · exact congrArg Host.Outcome.next (receiveFrame_of_tamperedSignature hf hlen hne hvalid hkept)
  · subst hx hy
    have hsig' : f'.drop (f'.length - 32) = q.out.drop (q.out.length - 32) := by rw [hsig, hlen]
    refine ⟨fun h => hne ?_, fun hdigest => ?_⟩
    · exact eq_of_hashed_eq (keyBytes u) hlen (by omega) (by omega) hsig' h
    · refine congrArg Host.Outcome.next (receiveFrame_of_tamperedDigest hf hlen h5 hm hvalid ?_)
      rw [hsig', ← hf.digest]
      exact hdigest
  · refine ⟨_, congrArg Host.Outcome.next (receiveFrame_of_plainType hf hlen h5 hm), hvalid, ?_⟩
    rw [acceptFrame_resp, setWidth_mtypeOf, be16, List.drop_drop]
    simp [List.getD_eq_getElem?_getD]

end Sys2Proof.Machine
end

section
/-! SUPPORT. The handshake (R181 to R190): its request as a clear frame, and one equation for each
outcome of `HS.DERIVE`. -/

namespace Sys2Proof.Machine

/-- Settles O38: the handshake type of a formed configuration is plain, so the request is the plain
frame of a 16-byte payload. -/
theorem handshakeRequestIsA24ByteClearFrame : Obligations.HandshakeRequestIsA24ByteClearFrame := by
  intro s token r hc hlen
  obtain ⟨hreq, hother⟩ := (encKind_false_iff _ _).1 (handshake_plain hc)
  have hframe := frmEncPlainFrame s _ token r hreq hother (by omega)
  rwa [hlen, ← half_add_one, BitVec.ofNat_toNat] at hframe

theorem hsWindow_eq (y : Bytes) : hsWindow y = (y.drop 8).take 64 := by
  rw [hsWindow, slice, hsOff, List.drop_take, Nat.add_sub_cancel_left]

/-- A genuine handshake, field by field: the key is held and valid (R181). -/
theorem succeed_installKey_eq (key : Vector Byte 32) (s : State) :
    succeed (installKey key s) 0 0 [] = { s with
      keyValid := true, tcpKey := key, resp := some ⟨0x00, 0, 0, []⟩ } := rfl

theorem exec_hsDerive_of_badKey {pk : Bytes} (y : Bytes) (s : State) (h : pk.length ≠ 32) :
    exec (.hsDerive y pk) s = .next { s with resp := some ⟨0x02, 0, 0, []⟩ } :=
  congrArg Host.Outcome.next (if_neg h)

theorem exec_hsDerive_of_key {pk : Bytes} (y : Bytes) (s : State) (h : pk.length = 32) :
    exec (.hsDerive y pk) s = .next (deriveFromWindow (hsWindow y) pk s) :=
  congrArg Host.Outcome.next (if_pos h)

/-- Past the operand check a failure loses the key and changes nothing else (R187). -/
theorem exec_hsDerive_of_failure {y pk : Bytes} {s : State} {e : Err} (hk : pk.length = 32)
    (h : deriveFromWindow (hsWindow y) pk s = failWith e (clearKey s)) :
    exec (.hsDerive y pk) s = .next { s with
      keyValid := false, tcpKey := Vector.replicate 32 0x00,
      resp := some ⟨errCode e, 0, 0, []⟩ } := by
  rw [exec_hsDerive_of_key y s hk, h, clearKey, zeroKey_eq]
  rfl

section
variable {w : Bytes} (pk : Bytes) (s : State)

/-- The "ERROR" test comes first, whatever the length of the window (R184). -/
theorem deriveFromWindow_of_error (he : w.take 5 = [0x45, 0x52, 0x52, 0x4F, 0x52]) :
    deriveFromWindow w pk s = failWith .handshakeRejected (clearKey s) := by
  rw [deriveFromWindow, if_pos ((windowRejects_iff w).2 he)]

theorem deriveFromWindow_of_short (he : w.take 5 ≠ [0x45, 0x52, 0x52, 0x4F, 0x52])
    (hl : w.length < 64) :
    deriveFromWindow w pk s = failWith .framingError (clearKey s) := by
  rw [deriveFromWindow, if_neg ((windowRejects_iff w).not.2 he), if_pos hl]

variable {pk}

theorem deriveFromWindow_of_badDigest (he : w.take 5 ≠ [0x45, 0x52, 0x52, 0x4F, 0x52])
    (hl : 64 ≤ w.length) (hd : sha256 (hsPlain pk w) ≠ slice w 32 64) :
    deriveFromWindow w pk s = failWith .handshakeSignatureError (clearKey s) := by
  rw [deriveFromWindow, if_neg ((windowRejects_iff w).not.2 he), if_neg (by omega), if_neg hd]

theorem deriveFromWindow_of_good (he : w.take 5 ≠ [0x45, 0x52, 0x52, 0x4F, 0x52])
    (hl : 64 ≤ w.length) (hd : sha256 (hsPlain pk w) = slice w 32 64) :
    deriveFromWindow w pk s =
      succeed (installKey (keyOf (xorBytes (hsPlain pk w) pk)) s) 0 0 [] := by
  rw [deriveFromWindow, if_neg ((windowRejects_iff w).not.2 he), if_neg (by omega), if_pos hd]

end

/-- Settles O49: each clause is one outcome of `HS.DERIVE` on the window of the reply. -/
theorem handshakeFailures : Obligations.HandshakeFailures := by
  rintro s y pk _ rfl
  rw [← hsWindow_eq]
  refine ⟨exec_hsDerive_of_badKey y s, fun hk he => ?_, fun hk he hl => ?_, fun hk he hl hd => ?_⟩
  · exact exec_hsDerive_of_failure hk (deriveFromWindow_of_error pk s he)
  · exact exec_hsDerive_of_failure hk (deriveFromWindow_of_short pk s he hl)
  · have hdigest : sha256 (hsPlain pk (hsWindow y)) ≠ slice (hsWindow y) 32 64 := by
      rwa [slice, List.take_of_length_le hl.le]
    exact exec_hsDerive_of_failure hk (deriveFromWindow_of_badDigest s he hl.ge hdigest)

/-- The window of a genuine reply is the encrypted challenge and the digest (R183). -/
theorem hsWindow_reply {z ct sig : Bytes} (rest : Bytes) (hz : z.length = 8) (hct : ct.length = 32)
    (hsig : sig.length = 32) : hsWindow (z ++ ct ++ sig ++ rest) = ct ++ sig := by
  have hdrop : (z ++ (ct ++ sig ++ rest)).drop 8 = ct ++ sig ++ rest := List.drop_left' hz
  rw [hsWindow_eq, List.append_assoc, List.append_assoc, ← List.append_assoc ct, hdrop]
  exact List.take_left' (by rw [List.length_append]; omega)

theorem getD_xorBytes {x y : Bytes} {n : Nat} (hx : n < x.length) (hy : n < y.length) :
    (xorBytes x y).getD n 0 = x.getD n 0 ^^^ y.getD n 0 := by
  simp [xorBytes, List.getD_eq_getElem?_getD, hx, hy]

/-- Settles O48: the window splits into ciphertext and digest, and decrypting the ciphertext gives
back the plaintext that was hashed. -/
theorem handshakeInstallsTheXorKey : Obligations.HandshakeInstallsTheXorKey := by
  intro s z pk pt rest hz hpk hpt he
  have hct : (cbcEnc pk pt).length = 32 := by
    rw [length_cbcEnc_of_whole_blocks pk (by omega), hpt]
  have hwindow := hsWindow_reply rest hz hct (length_sha256 pt)
  have hplain : hsPlain pk (cbcEnc pk pt ++ sha256 pt) = pt := by
    rw [hsPlain, slice, List.drop_zero, List.take_left' hct, cbcDec_cbcEnc pk (by omega)]
  have hdigest : slice (cbcEnc pk pt ++ sha256 pt) 32 64 = sha256 pt := by
    rw [slice, List.take_of_length_le (by simp [hct]), List.drop_left' hct]
  have hnoError : (cbcEnc pk pt ++ sha256 pt).take 5 ≠ [0x45, 0x52, 0x52, 0x4F, 0x52] := by
    rwa [List.take_append_of_le_length (by omega)]
  have hderive := deriveFromWindow_of_good (pk := pk) s hnoError (by simp [hct])
    (by rw [hplain, hdigest])
  refine ⟨keyOf (xorBytes pt pk), fun n hn => ?_, ?_⟩
  · rw [getElem_keyOf, getD_xorBytes (by omega) (by omega)]
  · rw [exec_hsDerive_of_key _ s hpk, hwindow, hderive, hplain, succeed_installKey_eq]

end Sys2Proof.Machine
end

section
/-! SUPPORT. Session control (R195, R197): the state `SES.DROP` leaves, and the status record of
`STAT.RD` bit by bit and byte by byte. -/

namespace Sys2Proof.Machine

/-- A dropped session, field by field (R195). -/
theorem succeed_dropSession_eq (s : State) :
    succeed (dropSession s) 0 0 [] = { s with
      keyValid := false, tcpKey := Vector.replicate 32 0x00, reqCnt := 0x0000, rspCnt := 0x0000,
      rxCtr := 0x0000, ctrMismatch := false, resp := some ⟨0x00, 0, 0, []⟩ } := by
  rw [dropSession, clearKey, zeroKey_eq]; rfl

/-- Dropping a session does not depend on what it clears, nor on the last response. -/
theorem succeed_dropSession_idem (s : State) :
    succeed (dropSession (succeed (dropSession s) 0 0 [])) 0 0 [] =
      succeed (dropSession s) 0 0 [] := rfl

/-- Settles O50: the state left is the dropped session, and dropping it again gives it back. -/
theorem sesDropClearsTheSession : Obligations.SesDropClearsTheSession := by
  refine fun s => ⟨congrArg Host.Outcome.next (succeed_dropSession_eq s), fun t h => ?_⟩
  obtain rfl : succeed (dropSession s) 0 0 [] = t := Host.Outcome.next.inj h
  exact congrArg Host.Outcome.next (succeed_dropSession_idem s)

/-- A flag's byte holds the flag at its own bit and zero elsewhere (R30). -/
theorem getLsbD_flagBit {n : Nat} (hn : n < 8) (f : Bool) (j : Nat) :
    (flagBit n f).getLsbD j = (decide (j = n) && f) := by
  cases f with
  | false => simp [flagBit]
  | true =>
    have hbit : flagBit n true = BitVec.twoPow 8 n := by
      rw [flagBit, if_pos rfl, BitVec.twoPow_eq]
    rw [hbit, BitVec.getLsbD_twoPow]
    simp [hn, eq_comm]

/-- `FLAGS` at bit `j`: at most one of the four flags stands there (R30). -/
theorem getLsbD_flagsByte (s : State) (j : Nat) :
    (flagsByte s).getLsbD j =
      ((decide (j = 0) && s.keyValid) || (decide (j = 1) && s.cmdLoaded) ||
        (decide (j = 2) && s.cmdFinal) || (decide (j = 3) && s.ctrMismatch)) := by
  simp only [flagsByte, BitVec.getLsbD_or, getLsbD_flagBit (show 0 < 8 by decide),
    getLsbD_flagBit (show 1 < 8 by decide), getLsbD_flagBit (show 2 < 8 by decide),
    getLsbD_flagBit (show 3 < 8 by decide)]

/-- Bits 7:4 of `FLAGS` are zero (R30), as a bound. -/
theorem flagsByte_lt (s : State) : (flagsByte s).toNat < 16 := by
  refine Nat.lt_pow_two_of_testBit (n := 4) _ fun j hj => ?_
  have hbit := getLsbD_flagsByte s j
  rwa [decide_eq_false (by omega), decide_eq_false (by omega), decide_eq_false (by omega),
    decide_eq_false (by omega)] at hbit

/-- The status record, each register split into its two bytes; `CMD_LEN` fits 16 bits (R197). -/
theorem statusRecord_eq (s : State) :
    statusRecord s =
      [flagsByte s, s.seq, BitVec.ofNat 8 (s.reqCnt.toNat / 256),
        BitVec.ofNat 8 (s.reqCnt.toNat % 256), BitVec.ofNat 8 (s.rspCnt.toNat / 256),
        BitVec.ofNat 8 (s.rspCnt.toNat % 256), BitVec.ofNat 8 (s.rxCtr.toNat / 256),
        BitVec.ofNat 8 (s.rxCtr.toNat % 256), BitVec.ofNat 8 (s.cmdLen.val / 256),
        BitVec.ofNat 8 (s.cmdLen.val % 256), BitVec.ofNat 8 (s.cmdKind.toNat / 256),
        BitVec.ofNat 8 (s.cmdKind.toNat % 256)] := by
  have hfits : cmdMax + 1 ≤ 2 ^ 16 := by decide
  have hlen : (BitVec.ofNat 16 s.cmdLen.val).toNat = s.cmdLen.val :=
    Nat.mod_eq_of_lt (s.cmdLen.isLt.trans_le hfits)
  simp only [statusRecord, u16be_eq, hlen, List.cons_append, List.nil_append]

/-- Settles O51: the flag byte is `FLAGS`, and the answer is the status record. -/
theorem statRdReturnsTheRegisters : Obligations.StatRdReturnsTheRegisters := by
  intro s
  have hbit := getLsbD_flagsByte s
  refine ⟨flagsByte s, (hbit 0).trans (by simp), (hbit 1).trans (by simp),
    (hbit 2).trans (by simp), (hbit 3).trans (by simp), flagsByte_lt s, ?_⟩
  rw [← statusRecord_eq]; rfl

end Sys2Proof.Machine
end

section
/-! SUPPORT. Which errors an instruction reports and what each leaves of the state (R220 to R222, R230,
R231): the table of causes, and every answer as a success, a plain failure or a lost key. -/

namespace Sys2Proof.Machine

/-- The errors the table of causes lists for an instruction, in the order of its checks (R221); a frame
row is handed in by `FRM.DEC`. -/
def causes : Instr → List Err
  | .crc8 _ => []
  | .cmdLoad _ _ => [.contractViolation, .unsupportedDevice]
  | .cmdSetf _ _ => [.contractViolation]
  | .cmdGetf _ => [.contractViolation]
  | .cmdFin => [.contractViolation]
  | .cmdRd => [.contractViolation]
  | .envBuild _ => [.contractViolation]
  | .envDec _ => [.contractViolation]
  | .frmEnc _ _ _ => [.notAuthenticated, .contractViolation]
  | .frmDec _ => [.framingError, .notAuthenticated, .signatureError]
  | .hsDerive _ _ => [.contractViolation, .handshakeRejected, .framingError, .handshakeSignatureError]
  | .sesDrop => []
  | .statRd => []
  | .illegal _ => [.illegalOperation]
  | .frameEncrypted _ _ _ _ => [.framingError, .notAuthenticated, .signatureError]
  | .framePlain _ _ _ => [.framingError, .notAuthenticated, .signatureError]

/-- The failures that clear the session key: a bad signature, and those of `HS.DERIVE` past its operand
check (R222, R230). -/
def LosesKey (i : Instr) (e : Err) : Prop :=
  e = .signatureError ∨ (∃ y pk, i = .hsDerive y pk) ∧
    (e = .framingError ∨ e = .handshakeRejected ∨ e = .handshakeSignatureError)

/-- What a next state reports of the instruction that led to it. -/
inductive Reports (i : Instr) (s : State) : State → Prop where
  /-- A success; `ILLEGAL` has none. -/
  | success {t : State} {v w : Half} {out : Bytes} (ht : t.resp = some ⟨0x00, v, w, out⟩)
      (hi : ∀ op, i ≠ .illegal op) : Reports i s t
  /-- A listed failure that changes no state. -/
  | failure (e : Err) (he : e ∈ causes i) (hkey : ¬ LosesKey i e) : Reports i s (failWith e s)
  /-- A listed failure that clears the session key. -/
  | keyLost (e : Err) (he : e ∈ causes i) (hkey : LosesKey i e)
      (hsig : e = .signatureError → handsFrame i ∧ s.keyValid = true) :
      Reports i s (failWith e (clearKey s))

theorem errCode_le (e : Err) : (errCode e).toNat ≤ 8 := by
  cases e <;> decide

theorem errCode_eq_five_iff (e : Err) : errCode e = 0x05 ↔ e = .signatureError := by
  cases e <;> simp [errCode]

/-- The failures that clear the key, by their codes (R220). -/
theorem losesKey_iff_code (i : Instr) (e : Err) : LosesKey i e ↔
    errCode e = 0x05 ∨ (∃ y pk, i = .hsDerive y pk) ∧
      (errCode e = 0x04 ∨ errCode e = 0x06 ∨ errCode e = 0x07) := by
  cases e <;> simp [LosesKey, errCode]

section
variable {i : Instr} {s t : State}

theorem handsFrame.ne_illegal (hi : handsFrame i) (op : Byte) : i ≠ .illegal op := by
  rintro rfl
  simp [handsFrame, Instr.isRequest] at hi

theorem handsFrame.ne_hsDerive (hi : handsFrame i) (y pk : Bytes) : i ≠ .hsDerive y pk := by
  rintro rfl
  simp [handsFrame, Instr.isRequest] at hi

/-- The three instructions that hand in a frame share the list of `FRM.DEC`. -/
theorem handsFrame.causes_eq (hi : handsFrame i) :
    causes i = [.framingError, .notAuthenticated, .signatureError] := by
  rcases hi with ⟨b, rfl⟩ | hi
  · rfl
  · cases i with
    | frameEncrypted => rfl
    | framePlain => rfl
    | _ => cases hi

/-- The parser loses the key by a bad signature alone. -/
theorem handsFrame.losesKey_iff (hi : handsFrame i) (e : Err) : LosesKey i e ↔ e = .signatureError := by
  simp [LosesKey, hi.ne_hsDerive]

theorem receiveFrame_reports (b : Bytes) (hi : handsFrame i) (h : receiveFrame b s = t) :
    Reports i s t := by
  subst h
  rcases receiveFrame_shape b s with h | ⟨_, h⟩ | ⟨hk, h⟩ | ⟨mt, pt, h⟩ <;> rw [h]
  · exact .failure _ (by simp [hi.causes_eq]) (by simp [hi.losesKey_iff])
  · exact .failure _ (by simp [hi.causes_eq]) (by simp [hi.losesKey_iff])
  · exact .keyLost _ (by simp [hi.causes_eq]) (.inl rfl) fun _ => ⟨hi, hk⟩
  · exact .success rfl hi.ne_illegal

theorem deriveFromWindow_reports (y pk : Bytes) (s : State) :
    Reports (.hsDerive y pk) s (deriveFromWindow (hsWindow y) pk s) := by
  rcases deriveFromWindow_cases (hsWindow y) pk s with
    ⟨_, h⟩ | ⟨_, _, h⟩ | ⟨_, _, _, h⟩ | ⟨_, _, _, h⟩ <;> rw [h]
  · exact .keyLost _ (by simp [causes]) (by simp [LosesKey]) nofun
  · exact .keyLost _ (by simp [causes]) (by simp [LosesKey]) nofun
  · exact .keyLost _ (by simp [causes]) (by simp [LosesKey]) nofun
  · exact .success rfl nofun

/-- A plain failure of an instruction that is no handshake, by an error other than a bad signature. -/
theorem Reports.of_cause {e : Err} (he : e ∈ causes i) (hs : e ≠ .signatureError)
    (hi : ∀ y pk, i ≠ .hsDerive y pk) : Reports i s (failWith e s) :=
  .failure e he (by simp [LosesKey, hs, hi])

/-- Every answer is a success or a failure the table of causes lists: one case per instruction, along
its inversion lemma. -/
theorem exec_reports (h : exec i s = .next t) : Reports i s t := by
  cases i with
  | crc8 x => cases h; exact .success rfl nofun
  | cmdLoad a b =>
    rcases execCmdLoad_next h with ⟨_, rfl⟩ | ⟨_, _, _, rfl⟩ | ⟨_, _, _, _, _, rfl⟩
    · exact .of_cause (by simp [causes]) nofun nofun
    · exact .of_cause (by simp [causes]) nofun nofun
    · exact .success rfl nofun
  | cmdSetf a b =>
    rcases execCmdSetf_next h with ⟨_, rfl⟩ | ⟨_, _, _, rfl⟩
    · exact .of_cause (.head _) nofun nofun
    · exact .success rfl nofun
  | cmdGetf a =>
    rcases execCmdGetf_next h with ⟨_, rfl⟩ | ⟨_, _, rfl⟩
    · exact .of_cause (.head _) nofun nofun
    · exact .success rfl nofun
  | cmdFin =>
    rcases execCmdFin_next h with ⟨_, rfl⟩ | ⟨_, _, _, _, ⟨_, rfl⟩ | ⟨_, _, _, rfl⟩⟩
    · exact .of_cause (.head _) nofun nofun
    · exact .success rfl nofun
    · exact .success rfl nofun
  | cmdRd =>
    rcases execCmdRd_next h with ⟨_, rfl⟩ | ⟨_, rfl⟩
    · exact .of_cause (.head _) nofun nofun
    · exact .success rfl nofun
  | envBuild d =>
    rcases execEnvBuild_next h with ⟨_, rfl⟩ | ⟨_, rfl⟩
    · exact .of_cause (.head _) nofun nofun
    · exact .success rfl nofun
  | envDec x =>
    rcases execEnvDec_next h with ⟨_, rfl⟩ | ⟨_, rfl⟩
    · exact .of_cause (.head _) nofun nofun
    · exact .success rfl nofun
  | frmEnc mt p r =>
    obtain rfl : encodeFrame mt p r s = t := Host.Outcome.next.inj h
    rcases encodeFrame_cases mt p r s with ⟨_, _, h'⟩ | ⟨_, _, h'⟩ | ⟨_, _, _, h'⟩ <;> rw [h']
    · exact .of_cause (by simp [causes]) nofun nofun
    · exact .of_cause (by simp [causes]) nofun nofun
    · exact .success rfl nofun
  | frmDec b => exact receiveFrame_reports b (.inl ⟨b, rfl⟩) (Host.Outcome.next.inj h)
  | hsDerive y pk =>
    rcases execHsDerive_next h with ⟨_, rfl⟩ | ⟨_, rfl⟩
    · exact .failure _ (by simp [causes]) (by simp [LosesKey])
    · exact deriveFromWindow_reports y pk s
  | sesDrop => cases h; exact .success rfl nofun
  | statRd => cases h; exact .success rfl nofun
  | illegal op => cases h; exact .of_cause (.head _) nofun nofun
  | frameEncrypted => exact receiveFrame_reports _ (.inr rfl) (Host.Outcome.next.inj h)
  | framePlain => exact receiveFrame_reports _ (.inr rfl) (Host.Outcome.next.inj h)

/-- The code of a response is 0 or that of a listed cause (R221). -/
theorem exec_resp_err {r : Response} (h : exec i s = .next t) (hr : t.resp = some r) :
    (r.err = 0x00 ∧ ∀ op, i ≠ .illegal op) ∨ ∃ e ∈ causes i, r.err = errCode e := by
  cases exec_reports h with
  | success ht hi =>
    obtain rfl := Option.some.inj (ht.symm.trans hr)
    exact .inl ⟨rfl, hi⟩
  | failure e he =>
    obtain rfl := Option.some.inj hr
    exact .inr ⟨e, he, rfl⟩
  | keyLost e he =>
    obtain rfl := Option.some.inj hr
    exact .inr ⟨e, he, rfl⟩

end

/-- Settles O14: a success has code 0, and the two sorts of failure are the two clauses on the state. -/
theorem failedOperationsDeliverNothing : Obligations.FailedOperationsDeliverNothing := by
  intro i s t h
  cases exec_reports h with
  | success ht => exact ⟨_, ht, Nat.zero_le 8, fun hne => absurd rfl hne⟩
  | failure e _ hkey =>
    refine ⟨errResponse e, rfl, errCode_le e, fun _ => ⟨rfl, fun h5 => ?_, fun hl => ?_, fun _ => rfl⟩⟩
    · exact absurd (.inl ((errCode_eq_five_iff e).1 h5)) hkey
    · exact absurd ((losesKey_iff_code i e).2 hl) hkey
  | keyLost e _ hkey hsig =>
    refine ⟨errResponse e, rfl, errCode_le e, fun _ => ⟨rfl, fun h5 => ?_, fun _ => ?_, fun hl => ?_⟩⟩
    · exact hsig ((errCode_eq_five_iff e).1 h5)
    · rw [clearKey, zeroKey_eq]; rfl
    · exact absurd ((losesKey_iff_code i e).1 hkey) hl

/-- Settles O15: each clause is the instruction's row of the table of causes, read as codes. -/
theorem errorCausesAreComplete : Obligations.ErrorCausesAreComplete := by
  intro i s t r h hr
  have hcode := exec_resp_err h hr
  cases i <;> simpa [causes, errCode] using hcode

/-- Settles O47: without a key an encrypted kind stops at the key check in both directions; a plain kind
has no such check, no pad to draw, and a size that fits. -/
theorem noEncryptedServiceWithoutAKey : Obligations.NoEncryptedServiceWithoutAKey := by
  intro s hk
  refine ⟨fun mt p r hm => execFrmEnc_of_noKey hm hk p r, fun b pad mt ct sig hparse => ?_,
    fun mt p r hm hlen => ?_, fun b pad mt body hparse => ?_⟩
  · have hrun := (receiveFrame_of_parse_encrypted hparse).trans
      (receiveEncrypted_of_noKey (b.take 6) pad mt ct sig hk)
    exact congrArg Host.Outcome.next hrun
  · obtain ⟨hsize, hpad⟩ := plain_measures hm p
    exact ⟨_, _, execFrmEnc_of_checks (by simp [hm]) (by omega) (by omega), rfl⟩
  · exact ⟨_, _, _, _, congrArg Host.Outcome.next (receiveFrame_of_parse_plain hparse), rfl⟩

end Sys2Proof.Machine
end

section
/-! SUPPORT. The reset state and the reset event (R250 to R254). -/

namespace Sys2Proof.Machine

/-- The cleared key as a list of bytes (R26). -/
theorem toList_zeroKey : zeroKey.toList = List.replicate 32 (0x00 : Byte) := by
  rw [zeroKey_eq, Vector.toList_replicate]

/-- A reset event is taken from the port and leaves the reset state of the same configuration, with
the later events still to come (R250, R252). -/
theorem step_reset {s : State} {rest : List PortEvent} (hp : s.pending = .reset :: rest) :
    step s = .next { State.resetWith s.cfg with pending := rest } := by
  simp only [step, takeEvent, hp, applyReset]

/-- Settles O1: `State.reset` is the reset state of one configuration; in each, the key is the cleared
key and nothing is written in the buffer. -/
theorem resetStateOfEveryRegister : Obligations.ResetStateOfEveryRegister := by
  intro s hs
  obtain ⟨cfg, rfl⟩ : ∃ cfg, s = State.resetWith cfg := hs.elim (⟨Config.installed, ·⟩) id
  exact ⟨rfl, rfl, rfl, rfl, toList_zeroKey, rfl, rfl, rfl, rfl, rfl, rfl, memRead_nil⟩

/-- Settles O2: no command is loaded and no key is valid, so only the clauses on the configuration, the
empty buffer and the cleared registers ask for anything. -/
theorem resetMeetsTheInvariant : Obligations.ResetMeetsTheInvariant :=
  fun _ => State.Inv.resetWith

/-- Settles O3: the step on a reset event. -/
theorem resetEventRestoresTheResetState : Obligations.ResetEventRestoresTheResetState :=
  fun _ _ => step_reset

end Sys2Proof.Machine
end
